-- ==== Sys2Proof/Word.lean ====
section
/-! DEFINITION. The two widths the spec computes with (R8): a byte of 8 bits and a machine word of
WORD_BITS = 32 bits. -/

namespace Sys2Proof

/-- R8: "A byte is 8 bits". -/
abbrev Byte := BitVec 8

/-- R8: "a word is WORD_BITS = 32 bits". -/
abbrev Word := BitVec 32

end Sys2Proof
end

