-- ==== Sys2Proof/Config.lean ====
section
/-! DEFINITION. What is fixed for one build of the block (the parameters of R6) and what the world outside it
supplies at each turn (which agent moves, the TIMER, the bus transmitter's status). Values the spec withholds are
opaque constants: nothing can be proved about them. -/

namespace Sys2Proof

/-- The two agents that execute operations (R10): the application core and the rendering core.
PANEL and TIMER are devices outside the block. -/
inductive Agent where
  | host
  | engine
  deriving DecidableEq, Repr, Inhabited

namespace Config

/-- BOUNDARY_POLICY of R6 and R130: the two readings of "take priority". -/
inductive BoundaryPolicy where
  | allInOrder
  | contrastOrCommand
  deriving DecidableEq, Repr

/-- The function MONO_CONTRAST of R6 (OPEN; default the identity) on brightness 0 to 127, as plain data:
the identity, or a table indexed by the brightness. -/
inductive MonoContrast where
  | identity
  | table (t : List Byte)
  deriving DecidableEq, Repr

/-- T_ROW of R6 (OPEN): the nominal per-row scan period of the panel in ticks, num / den. It need not be a whole
number of ticks: R6's own defaults make it about 98.1 (R215). -/
structure RowPeriod where
  num : Nat
  den : Nat
  deriving DecidableEq, Repr

/-- The function MUX_ENC of R6 (OPEN; default the row count minus one) from a count of rows to the operand byte, as
plain data: the default, or a table indexed by the count of rows. -/
inductive MuxEnc where
  | rowsMinusOne
  | table (t : List Byte)
  deriving DecidableEq, Repr

/-- HEIGHT of R6: "the 40 visible rows". -/
def height : Nat := 40

/-- BANDS of R6: ceil(HEIGHT / 8). -/
def bands : Nat := (height + 7) / 8

/-- MUX_PARK of R6: the multiplex count, in rows, while parked. -/
def muxParkRows : Nat := 1

/-- MUX_RUN of R6: the multiplex count, in rows, while scanning. -/
def muxRunRows : Nat := 57

/-- ROWS_PRE of R6. -/
def rowsPre : Nat := 8

/-- ROWS_POST of R6. -/
def rowsPost : Nat := 48

/-- BRIGHT_MAX of R6. -/
def brightMax : Nat := 127

/-- Every OPEN row of R6, plus the opaque tables of R70 and the persisted key of R153. R35: none of them changes
while the block runs. T_PRE, T_POST and the two multiplex operands follow from these (Operands.lean). -/
structure Params where
  width          : Nat
  pcmdLen        : Nat
  tRow           : RowPeriod
  tickBits       : Nat
  tickHz         : Nat
  busHz          : Nat
  cmdSetMux      : Byte
  cmdSetOffset   : Byte
  cmdSetContrast : Byte
  cmdNop         : Byte
  muxEnc         : MuxEnc
  parkOffset     : Byte
  restoreOffset  : Byte
  monoContrast   : MonoContrast
  policy         : BoundaryPolicy
  modeGray       : List Byte
  modeMono       : List Byte
  init           : List Byte
  configKey      : Option (List Char)
  deriving DecidableEq, Repr

/-- PLANE_BYTES of R6: BANDS * WIDTH. -/
def Params.planeBytes (p : Params) : Nat := bands * p.width

/-- PLANE_WORDS of R6: PLANE_BYTES / 4. -/
def Params.planeWords (p : Params) : Nat := p.planeBytes / 4

/-- The MODE_GRAY table (R70: not in the source): a free value. -/
opaque modeGrayTable : List Byte

/-- The MODE_MONO table (R70: not in the source): a free value. -/
opaque modeMonoTable : List Byte

/-- The INIT table (R70: not in the source): a free value. -/
opaque initTable : List Byte

/-- BUS_HZ of R6: OPEN with no default, a free value. -/
opaque busRate : Nat

/-- The default column of R6. PRESUMED (log 2): the spec marks most of these numbers "from general knowledge, not
in source"; T_ROW is the period that gives both of its intervals, 785 and 4709. Only State.reset uses them; claims are stated for every parameter set. -/
def Params.default : Params where
  width := 72
  pcmdLen := 8
  tRow := ⟨4709, 48⟩
  tickBits := 32
  tickHz := 1000000
  busHz := busRate
  cmdSetMux := 0xA8#8
  cmdSetOffset := 0xD3#8
  cmdSetContrast := 0x81#8
  cmdNop := 0xE3#8
  muxEnc := .rowsMinusOne
  parkOffset := 52#8
  restoreOffset := 47#8
  monoContrast := .identity
  policy := .allInOrder
  modeGray := modeGrayTable
  modeMono := modeMonoTable
  init := initTable
  configKey := none

end Config

/-- What the world outside the block decides for one turn (DESIGN CHOICE, log 4): which agent moves, how many
atomic actions it performs before the other may move (`budget`), how many ticks the TIMER counted since the last
turn, what a poll of TNF and BSY reads (R32), which bytes arrived on the receive side (R98), and how far back an
unsynchronised plane read of the ENGINE may look (`age`, R51 (d), R203). -/
structure Turn where
  agent  : Agent
  budget : Nat
  ticks  : Nat
  tnf    : Bool
  bsy    : Bool
  rx     : List Byte
  age    : Nat
  deriving DecidableEq, Repr, Inhabited

/-- The turn taken when State lists no further input: a free value, a fresh one for each number. -/
opaque Config.freeTurn : Nat → Turn

end Sys2Proof
end

