-- ==== Sys2Proof/Syntax.lean ====
section
/-! DEFINITION. The operations of the block: one constructor for each of the 42 rows of spec/opcode_table.json
(R73), in the table's order: 9 host operations (R61), 14 sequencer operations (R62), 8 sub-operations, 11 bus
groups (R63). -/

namespace Sys2Proof

/-- The two bit-planes of the framebuffer (R18). -/
inductive Plane where
  | a
  | b
  deriving DecidableEq, Repr

/-- One byte write of DRAW (R49): "replaces any bytes of PLANE_A and PLANE_B with any values". -/
structure PlaneWrite where
  plane : Plane
  off   : Nat
  val   : Byte
  deriving DecidableEq, Repr

/-- The operations. `fn` is the field SEQ[5:4], the subframe index 0 to 2 (R62). -/
inductive Instr where
  -- format H (R61)
  | enable
  | disable
  | isActive
  | showSync
  | showAsync
  | sendCmd (c : List Byte)
  | brightness (v : Int)
  | invert (v : Bool)
  | draw (ws : List PlaneWrite)
  -- format S, positions of the sequencer (R62)
  | engIdle
  | engStart
  | engCheck
  | s1 (fn : Fin 3)
  | s2 (fn : Fin 3)
  | s3 (fn : Fin 3)
  | s4 (fn : Fin 3)
  | s5 (fn : Fin 3)
  | s6 (fn : Fin 3)
  | s7 (fn : Fin 3)
  | s8 (fn : Fin 3)
  | s9 (fn : Fin 3)
  | s10 (fn : Fin 3)
  | engExit
  -- format S, sub-operations (R62)
  | svcPublish
  | svcContrast
  | svcCommand
  | sfgPass
  | sfgWord (wi : Nat) (mask : Word)
  | busGroup (dc : Bool) (s : List Byte)
  | busByte (b : Byte)
  | waitUntil (d : Nat)
  -- format B (R63)
  | park
  | frame (fn : Fin 3)
  | contrast (fn : Fin 3)
  | restore
  | inject
  | monoFrame
  | directCmd (c : List Byte)
  | monoContrast
  | modeGray
  | modeMono
  | init
  deriving DecidableEq, Repr

end Sys2Proof
end

