-- ==== Sys2Proof/WellFormed.lean ====
section
/-! DEFINITION. Which operations are well formed: operands in the ranges the rules give them, and within the field
widths of the byte code of Decode.lean. -/

namespace Sys2Proof

/-- A DRAW write names a byte of a plane: offset 0 to PLANE_BYTES - 1 (R41), and it fits a 32-bit field. -/
def PlaneWrite.wf (p : Config.Params) (w : PlaneWrite) : Bool :=
  decide (w.off < p.planeBytes) && decide (w.off < 2 ^ 32)

/-- A byte string whose length fits the 32-bit length field of the byte code (log 6). -/
def fitsLength (n : Nat) : Bool := decide (n < 2 ^ 32)

/-- SFG.WORD takes WI in 0 to PLANE_WORDS - 1 and MASK all zeros or all ones (R85). WAIT.UNTIL takes a deadline of
TICK_BITS bits (R99). A sequencer position carries FN 0, 1 or 2 by its type (R62). SENDCMD takes a string of any
length and BRIGHTNESS an integer of any size (R127, R145); the byte code has a 32-bit field for each (log 6). -/
def Instr.wf (p : Config.Params) : Instr → Bool
  | .sendCmd c => fitsLength c.length
  | .brightness v => decide (-(2 ^ 31) ≤ v) && decide (v < 2 ^ 31)
  | .draw ws => fitsLength ws.length && ws.all (PlaneWrite.wf p)
  | .sfgWord wi mask =>
      decide (wi < p.planeWords) && decide (wi < 2 ^ 32) && (mask == 0#32 || mask == 0xFFFFFFFF#32)
  | .busGroup _ s => fitsLength s.length
  | .waitUntil d => decide (d < 2 ^ p.tickBits) && decide (d < 2 ^ 64)
  | .directCmd c => fitsLength c.length
  | .enable => true
  | .disable => true
  | .isActive => true
  | .showSync => true
  | .showAsync => true
  | .invert _ => true
  | .engIdle => true
  | .engStart => true
  | .engCheck => true
  | .s1 _ => true
  | .s2 _ => true
  | .s3 _ => true
  | .s4 _ => true
  | .s5 _ => true
  | .s6 _ => true
  | .s7 _ => true
  | .s8 _ => true
  | .s9 _ => true
  | .s10 _ => true
  | .engExit => true
  | .svcPublish => true
  | .svcContrast => true
  | .svcCommand => true
  | .sfgPass => true
  | .busByte _ => true
  | .park => true
  | .frame _ => true
  | .contrast _ => true
  | .restore => true
  | .inject => true
  | .monoFrame => true
  | .monoContrast => true
  | .modeGray => true
  | .modeMono => true
  | .init => true

end Sys2Proof
end

