-- ==== Sys2Proof/Decode.lean ====
section
/-! DEFINITION. The decoder and the encoder.

The only operation code the spec gives is SEQ[5:0] = {FN[1:0], STEP[3:0]} (R62): a first byte below 64 IS that code,
with its two top bits 0. The spec gives the other operations no code ("The block has no instruction words", R60);
first bytes from 64 on, with their operand fields, are this model's own byte code for them (DESIGN CHOICE, log 6).
The machine's ENGINE fetches its operation through this decoder at every position. -/

namespace Sys2Proof

/-- Why a byte string is no operation, by name. -/
inductive DecodeError where
  /-- the string ends inside an operation -/
  | truncated
  /-- STEP code 14 or 15 (R62: unused) -/
  | reservedStep (code : Nat)
  /-- FN = 3 at one of S1 to S10 (R25: never produced) -/
  | subframeThree
  /-- FN not 0 at IDLE, CHECK, START or EXIT (R62) -/
  | fnNotZero
  /-- a first byte that is no operation code -/
  | unknownCode (b : Byte)
  /-- a boolean, plane or subframe field holding another value -/
  | badField (b : Byte)
  deriving DecidableEq, Repr

/-- The value parsed and the bytes that follow it, or why there is none. -/
abbrev Parsed (α : Type) := Except DecodeError (α × List Byte)

/-- Goes on with the bytes that follow. -/
def parsedThen {α β : Type} (r : Parsed α) (f : α → List Byte → Parsed β) : Parsed β :=
  match r with
  | .ok (a, rest) => f a rest
  | .error e => .error e

/-- Replaces the value parsed. -/
def parsedMap {α β : Type} (f : α → β) (r : Parsed α) : Parsed β :=
  parsedThen r (fun a rest => .ok (f a, rest))

/-! ### Fields -/

/-- The k low bytes of n, least significant first. -/
def leBytes : Nat → Nat → List Byte
  | 0, _ => []
  | k + 1, n => BitVec.ofNat 8 n :: leBytes k (n / 256)

/-- A number from its bytes, least significant first. -/
def fromLE : List Byte → Nat
  | [] => 0
  | b :: bs => b.toNat + 256 * fromLE bs

/-- The first n bytes. -/
def takeBytes : Nat → List Byte → Parsed (List Byte)
  | 0, bs => .ok ([], bs)
  | _ + 1, [] => .error .truncated
  | n + 1, b :: bs => parsedMap (b :: ·) (takeBytes n bs)

def takeByte (bs : List Byte) : Parsed Byte :=
  match bs with
  | [] => .error .truncated
  | b :: rest => .ok (b, rest)

/-- A number of k bytes. -/
def takeNat (k : Nat) (bs : List Byte) : Parsed Nat := parsedMap fromLE (takeBytes k bs)

/-- A byte string after its 4-byte length. -/
def takeString (bs : List Byte) : Parsed (List Byte) := parsedThen (takeNat 4 bs) takeBytes

def boolOf (b : Byte) : Except DecodeError Bool :=
  if b = 0#8 then .ok false else if b = 1#8 then .ok true else .error (.badField b)

def planeOf (b : Byte) : Except DecodeError Plane :=
  if b = 0#8 then .ok .a else if b = 1#8 then .ok .b else .error (.badField b)

def subframeOf (b : Byte) : Except DecodeError (Fin 3) :=
  if h : b.toNat < 3 then .ok ⟨b.toNat, h⟩ else .error (.badField b)

/-- A one-byte field read by `f`. -/
def takeField {α : Type} (f : Byte → Except DecodeError α) (bs : List Byte) : Parsed α :=
  parsedThen (takeByte bs) (fun b rest =>
    match f b with
    | .ok a => .ok (a, rest)
    | .error e => .error e)

/-- A 32-bit two's-complement integer. -/
def signed32 (n : Nat) : Int := if n < 2 ^ 31 then (n : Int) else (n : Int) - 2 ^ 32

/-- One write of a DRAW: plane, 4-byte offset, value. -/
def takeWrite (bs : List Byte) : Parsed PlaneWrite :=
  parsedThen (takeField planeOf bs) (fun p r1 =>
    parsedThen (takeNat 4 r1) (fun off r2 =>
      parsedThen (takeByte r2) (fun v r3 => .ok (⟨p, off, v⟩, r3))))

def takeWrites : Nat → List Byte → Parsed (List PlaneWrite)
  | 0, bs => .ok ([], bs)
  | n + 1, bs =>
    parsedThen (takeWrite bs) (fun w rest => parsedMap (w :: ·) (takeWrites n rest))

/-! ### The sequencer code (R62) -/

/-- FN = SEQ[5:4] of the code. -/
def seqFn (code : Nat) : Nat := code / 16

/-- STEP = SEQ[3:0] of the code. -/
def seqStep (code : Nat) : Nat := code % 16

/-- A position that needs FN 0, 1 or 2. -/
def withSubframe (fn : Nat) (f : Fin 3 → Instr) : Except DecodeError Instr :=
  if h : fn < 3 then .ok (f ⟨fn, h⟩) else .error .subframeThree

/-- A position that needs FN 0. -/
def withFnZero (fn : Nat) (i : Instr) : Except DecodeError Instr :=
  if fn = 0 then .ok i else .error .fnNotZero

/-- The operation at SEQ = {FN, STEP} (R62). -/
def decodeSeq (fn step : Nat) : Except DecodeError Instr :=
  match step with
  | 0 => withFnZero fn .engIdle
  | 1 => withSubframe fn .s1
  | 2 => withSubframe fn .s2
  | 3 => withSubframe fn .s3
  | 4 => withSubframe fn .s4
  | 5 => withSubframe fn .s5
  | 6 => withSubframe fn .s6
  | 7 => withSubframe fn .s7
  | 8 => withSubframe fn .s8
  | 9 => withSubframe fn .s9
  | 10 => withSubframe fn .s10
  | 11 => withFnZero fn .engCheck
  | 12 => withFnZero fn .engStart
  | 13 => withFnZero fn .engExit
  | code => .error (.reservedStep code)

/-! ### The model's byte code for the other operations (log 6) -/

/-- 0x40 to 0x48 the host operations, 0x50 to 0x57 the sub-operations, 0x60 to 0x6A the bus groups, each in the
order of the opcode table. -/
def decodeCode (b : Byte) (rest : List Byte) : Parsed Instr :=
  match b.toNat with
  | 0x40 => .ok (.enable, rest)
  | 0x41 => .ok (.disable, rest)
  | 0x42 => .ok (.isActive, rest)
  | 0x43 => .ok (.showSync, rest)
  | 0x44 => .ok (.showAsync, rest)
  | 0x45 => parsedMap .sendCmd (takeString rest)
  | 0x46 => parsedMap (fun n => .brightness (signed32 n)) (takeNat 4 rest)
  | 0x47 => parsedMap .invert (takeField boolOf rest)
  | 0x48 => parsedMap .draw (parsedThen (takeNat 4 rest) takeWrites)
  | 0x50 => .ok (.svcPublish, rest)
  | 0x51 => .ok (.svcContrast, rest)
  | 0x52 => .ok (.svcCommand, rest)
  | 0x53 => .ok (.sfgPass, rest)
  | 0x54 =>
    parsedThen (takeNat 4 rest) (fun wi r1 =>
      parsedMap (fun m => .sfgWord wi (BitVec.ofNat 32 m)) (takeNat 4 r1))
  | 0x55 => parsedThen (takeField boolOf rest) (fun dc r1 => parsedMap (.busGroup dc) (takeString r1))
  | 0x56 => parsedMap .busByte (takeByte rest)
  | 0x57 => parsedMap .waitUntil (takeNat 8 rest)
  | 0x60 => .ok (.park, rest)
  | 0x61 => parsedMap .frame (takeField subframeOf rest)
  | 0x62 => parsedMap .contrast (takeField subframeOf rest)
  | 0x63 => .ok (.restore, rest)
  | 0x64 => .ok (.inject, rest)
  | 0x65 => .ok (.monoFrame, rest)
  | 0x66 => parsedMap .directCmd (takeString rest)
  | 0x67 => .ok (.monoContrast, rest)
  | 0x68 => .ok (.modeGray, rest)
  | 0x69 => .ok (.modeMono, rest)
  | 0x6A => .ok (.init, rest)
  | _ => .error (.unknownCode b)

/-- One operation from the front of any byte string, with the bytes that follow it. -/
def decode : List Byte → Parsed Instr
  | [] => .error .truncated
  | b :: rest =>
    if b.toNat < 64 then
      match decodeSeq (seqFn b.toNat) (seqStep b.toNat) with
      | .ok i => .ok (i, rest)
      | .error e => .error e
    else decodeCode b rest

/-! ### The encoder -/

/-- SEQ = {FN, STEP} as a number (R62). -/
def seqCode (fn : Fin 3) (step : Nat) : Nat := 16 * fn.val + step

/-- The first byte: SEQ for a position of the sequencer (R62), the model's code for every other operation. -/
def opcode : Instr → Nat
  | .enable => 0x40
  | .disable => 0x41
  | .isActive => 0x42
  | .showSync => 0x43
  | .showAsync => 0x44
  | .sendCmd _ => 0x45
  | .brightness _ => 0x46
  | .invert _ => 0x47
  | .draw _ => 0x48
  | .engIdle => 0
  | .engStart => 12
  | .engCheck => 11
  | .s1 fn => seqCode fn 1
  | .s2 fn => seqCode fn 2
  | .s3 fn => seqCode fn 3
  | .s4 fn => seqCode fn 4
  | .s5 fn => seqCode fn 5
  | .s6 fn => seqCode fn 6
  | .s7 fn => seqCode fn 7
  | .s8 fn => seqCode fn 8
  | .s9 fn => seqCode fn 9
  | .s10 fn => seqCode fn 10
  | .engExit => 13
  | .svcPublish => 0x50
  | .svcContrast => 0x51
  | .svcCommand => 0x52
  | .sfgPass => 0x53
  | .sfgWord _ _ => 0x54
  | .busGroup _ _ => 0x55
  | .busByte _ => 0x56
  | .waitUntil _ => 0x57
  | .park => 0x60
  | .frame _ => 0x61
  | .contrast _ => 0x62
  | .restore => 0x63
  | .inject => 0x64
  | .monoFrame => 0x65
  | .directCmd _ => 0x66
  | .monoContrast => 0x67
  | .modeGray => 0x68
  | .modeMono => 0x69
  | .init => 0x6A

def boolByte (v : Bool) : Byte := if v then 1#8 else 0#8

def planeByte : Plane → Byte
  | .a => 0#8
  | .b => 1#8

def stringBytes (c : List Byte) : List Byte := leBytes 4 c.length ++ c

def writeBytes (w : PlaneWrite) : List Byte := planeByte w.plane :: (leBytes 4 w.off ++ [w.val])

/-- The operand fields. -/
def operandBytes : Instr → List Byte
  | .sendCmd c => stringBytes c
  | .brightness v => leBytes 4 (v % 2 ^ 32).toNat
  | .invert v => [boolByte v]
  | .draw ws => leBytes 4 ws.length ++ ws.flatMap writeBytes
  | .sfgWord wi mask => leBytes 4 wi ++ leBytes 4 mask.toNat
  | .busGroup dc s => boolByte dc :: stringBytes s
  | .busByte b => [b]
  | .waitUntil d => leBytes 8 d
  | .frame fn => [BitVec.ofNat 8 fn.val]
  | .contrast fn => [BitVec.ofNat 8 fn.val]
  | .directCmd c => stringBytes c
  | .enable => []
  | .disable => []
  | .isActive => []
  | .showSync => []
  | .showAsync => []
  | .engIdle => []
  | .engStart => []
  | .engCheck => []
  | .s1 _ => []
  | .s2 _ => []
  | .s3 _ => []
  | .s4 _ => []
  | .s5 _ => []
  | .s6 _ => []
  | .s7 _ => []
  | .s8 _ => []
  | .s9 _ => []
  | .s10 _ => []
  | .engExit => []
  | .svcPublish => []
  | .svcContrast => []
  | .svcCommand => []
  | .sfgPass => []
  | .park => []
  | .restore => []
  | .inject => []
  | .monoFrame => []
  | .monoContrast => []
  | .modeGray => []
  | .modeMono => []
  | .init => []

/-- The bytes of an operation. -/
def encode (i : Instr) : List Byte := BitVec.ofNat 8 (opcode i) :: operandBytes i

/-! ### Words as spec/opcode_table.json numbers them -/

/-- The longest run of zero operand bytes that follows a table word: every operand field at 0. -/
def operandPadding : List Byte := List.replicate 16 0#8

/-- The operation the decoder reads from the bits of a table row: bit 0 the least significant bit of the first
byte, the bits above `nbits` zero. -/
def decodeTableWord (nbits w : Nat) : Option Instr :=
  match decode (leBytes ((nbits + 7) / 8) (w % 2 ^ nbits) ++ operandPadding) with
  | .ok (i, _) => some i
  | .error _ => none

end Sys2Proof
end

