-- ==== Sys2Proof/Machine/Brightness.lean ====
section
/-! DEFINITION. The arithmetic of the Brightness Modulator (43_brightness_modulator.md): clamp, integer square root,
the three derived contrast bytes, and the persisted key. Nothing here reads or writes State; State.reset uses it. -/

namespace Sys2Proof.Machine

/-- Three bytes indexed by the subframe: the tables PCON and WCON (R21, R22). -/
structure Triple where
  b0 : Byte
  b1 : Byte
  b2 : Byte
  deriving DecidableEq, Repr

/-- Table entry k (R8: `WCON[i]`). -/
def tripleGet (t : Triple) (k : Fin 3) : Byte :=
  match k with
  | 0 => t.b0
  | 1 => t.b1
  | 2 => t.b2

/-- Table entry k replaced. -/
def tripleSet (t : Triple) (k : Fin 3) (v : Byte) : Triple :=
  match k with
  | 0 => { t with b0 := v }
  | 1 => { t with b1 := v }
  | 2 => { t with b2 := v }

/-- R145, R148: the input clamped to 0..127 before anything else. -/
def clampBrightness (v : Int) : Nat :=
  if v < 0 then 0 else if (Config.brightMax : Int) < v then Config.brightMax else v.toNat

/-- The largest r' with r'^2 at most n that agrees with r above its k low bits. -/
def isqrtBits : Nat → Nat → Nat → Nat
  | 0, _, r => r
  | k + 1, n, r => if (r + 2 ^ k) * (r + 2 ^ k) ≤ n then isqrtBits k n (r + 2 ^ k) else isqrtBits k n r

/-- R147: the exact integer floor square root. -/
def isqrt (n : Nat) : Nat := isqrtBits (Nat.log2 n / 2 + 1) n 0

/-- c of R146: isqrt (b << 17). -/
def deriveRoot (b : Nat) : Nat := isqrt (b * 2 ^ 17)

/-- byte0 of R146, before it is stored: multiplier K0 = 30, offset A0 = 6. -/
def deriveRaw0 (b : Nat) : Nat := deriveRoot b * 30 / 2 ^ 12 + 6

/-- byte1 of R146: K1 = 72, A1 = 14. -/
def deriveRaw1 (b : Nat) : Nat := deriveRoot b * 72 / 2 ^ 12 + 14

/-- raw2 of R146: K2 = 340, A2 = 20, before the clamp. -/
def deriveRaw2 (b : Nat) : Nat := deriveRoot b * 340 / 2 ^ 12 + 20

/-- R146: DERIVE(b), the contrast bytes of subframes 0, 1 and 2. Only byte2 has an output clamp (R148). -/
def deriveTriple (b : Nat) : Triple where
  b0 := BitVec.ofNat 8 (deriveRaw0 b)
  b1 := BitVec.ofNat 8 (deriveRaw1 b)
  b2 := BitVec.ofNat 8 (min 255 (deriveRaw2 b))

/-- CFG_LEVELS of R6: config level 0, 1, 2 to brightness. -/
def configLevel : Char → Option Nat
  | '0' => some 0
  | '1' => some 28
  | '2' => some 127
  | _ => none

/-- The text before the digit of the key's line (R153). -/
def keyPrefix : List Char := ['b', 'r', 'i', 'g', 'h', 't', 'n', 'e', 's', 's', ',']

/-- A well-formed key: the text of R153 and one digit 0, 1 or 2. -/
def parseKey (line : List Char) : Option Nat :=
  match line.drop keyPrefix.length with
  | [d] => if line.take keyPrefix.length = keyPrefix then configLevel d else none
  | _ => none

/-- R153, R172: the start-up brightness; absence or parse failure silently gives 127. -/
def keyBrightness (key : Option (List Char)) : Nat :=
  match key with
  | none => 127
  | some line =>
    match parseKey line with
    | some b => b
    | none => 127

end Sys2Proof.Machine
end

