-- ==== Sys2Proof/Machine/State.lean ====
section
/-! DEFINITION. The state of the machine, as plain data, and its value after reset (10_state.md). -/

namespace Sys2Proof.Machine

/-- A byte region as a list of (offset, byte) pairs in canonical form: offsets strictly rising, no entry equal to
what an unlisted offset reads as (`Memory.unlisted`). R41: regions are separate arrays that never overlap, each
addressed from its own start. -/
abbrev Memory := List Host.Cell

/-- What a byte that nothing has written reads as. The spec leaves the buffers' first contents unspecified (R36,
U11); 0 is a DESIGN CHOICE (log 1, unsafe). -/
def Memory.unlisted : Byte := 0#8

/-- The five words of SYNC (R12). -/
inductive Flag where
  | threadState
  | copyPending
  | pendingCmd
  | contrastPending
  | invert
  deriving DecidableEq, Repr

/-- The byte regions reached by offset (R41). PCON and WCON are the three-byte tables of R21 and R22. -/
inductive Region where
  | planeA
  | planeB
  | sf (k : Fin 3)
  | pcmd
  deriving DecidableEq, Repr

/-- The positions of the sequencer (R62). -/
inductive Pos where
  | idle
  | s1
  | s2
  | s3
  | s4
  | s5
  | s6
  | s7
  | s8
  | s9
  | s10
  | check
  | start
  | exit
  deriving DecidableEq, Repr

/-- The bus transfer groups of R63. -/
inductive Group where
  | park
  | frame (fn : Fin 3)
  | contrast (fn : Fin 3)
  | restore
  | inject
  | monoFrame
  | directCmd (c : List Byte)
  | monoContrast
  | modeGray
  | modeMono
  | init
  deriving DecidableEq, Repr

/-- One entry of the bus trace (R8): the DC level (false 0 command, true 1 data, R28) and the byte. -/
abbrev BusEntry := Bool × Byte

/-- The causes of R175. Only contractViolation is ever delivered. -/
inductive ErrorCause where
  | contractViolation
  | hardwareDesync
  | configError
  | engineHang
  deriving DecidableEq, Repr

/-- What the last host operation handed back to its caller (R171, R161). -/
inductive Result where
  | done
  | bool (v : Bool)
  | error (c : ErrorCause) (info : Nat)
  deriving DecidableEq, Repr

/-- What a plane read of the ENGINE with no flag between may still miss (R51): a byte write of the HOST with the
value it replaced, and the HOST's release of a flag. -/
inductive Race where
  | drew (p : Plane) (off : Nat) (old : Byte)
  | released (f : Flag)
  deriving DecidableEq, Repr

/-- The atomic actions the pseudocode of the spec is made of; an operation in progress is the list of those it has
still to perform. -/
inductive Task where
  /-- BUS.GROUP of the bytes the group has when this action runs -/
  | emit (g : Group)
  /-- DC <- dc (R96) -/
  | drive (dc : Bool)
  /-- the loop of R96 from byte index k on -/
  | bytes (k : Nat) (s : List Byte)
  /-- spin until TNF = 1, then write one byte (R95) -/
  | send (b : Byte)
  /-- while RNE = 1, read and discard one received byte (R95, R96) -/
  | drain
  /-- spin until BSY = 0 (R96) -/
  | idle
  /-- spin until the tick counter has reached d (R99) -/
  | await (d : Nat)
  /-- DL <- Tick() + interval (R103, R108) -/
  | setDeadline (interval : Nat)
  /-- FN <- fn -/
  | setFn (fn : Fin 3)
  /-- STEP <- p -/
  | goto (p : Pos)
  /-- FlagWrite(THREAD_STATE, v) and STEP <- p, as one action (R101, R113; log 9) -/
  | announce (v : Word) (p : Pos)
  /-- the branch of ENG.CHECK (R102) -/
  | testRun
  /-- the branch of S10 (R112) -/
  | nextSubframe (fn : Fin 3)
  /-- FlagWrite(f, v) (R8) -/
  | flagWrite (f : Flag) (v : Word)
  /-- spin until FlagRead(f) = v (R8) -/
  | spin (f : Flag) (v : Word)
  /-- MASK from FlagRead(INVERT), then the loop (R88) -/
  | pass
  /-- the loop of R88 from word index k on -/
  | words (k : Nat)
  /-- V1 <- MemRead(PLANE_A, 4*wi, 4) ^ mask (R85) -/
  | loadV1 (wi : Nat) (mask : Word)
  /-- V2 <- MemRead(PLANE_B, 4*wi, 4) (R85) -/
  | loadV2 (wi : Nat)
  /-- the three MemWrites of R85 -/
  | storeSf (wi : Nat)
  /-- if FlagRead(COPY_PENDING) != 0: SVC.PUBLISH (R130) -/
  | pollPublish
  /-- if FlagRead(CONTRAST_PENDING) != 0: SVC.CONTRAST (R130) -/
  | pollContrast
  /-- if FlagRead(PENDING_CMD) != 0: SVC.COMMAND (R130) -/
  | pollCommand
  /-- the CONTRAST_OR_COMMAND branch of R130 -/
  | pollContrastElseCommand
  /-- WCON[k] <- PCON[k] (R132, R145) -/
  | adopt (k : Fin 3)
  /-- PCON[k] <- DERIVE(BRIGHT)[k] (R145, R158) -/
  | derive (k : Fin 3)
  /-- BRIGHT <- b (R145) -/
  | setBright (b : Nat)
  /-- MemWrite(PCMD, k, 1, ·) for the bytes left (R127) -/
  | fillPcmd (k : Nat) (s : List Byte)
  /-- launch ENGINE at ENG.START (R155, R156) -/
  | launch
  /-- one byte write of DRAW (R49) -/
  | drawByte (w : PlaneWrite)
  /-- hand a result to the caller of the host operation -/
  | ret (r : Result)
  deriving DecidableEq, Repr

/-- The state. INVENTORY.md gives each field's rule. `engWork`, `hostWork`, `hostProg`, `result`, `races`, `inputs`,
`turnNo`, `budget` and `age` are the model's own. -/
structure State where
  cfg             : Config.Params
  -- SYNC, words 0 to 4 (R12)
  threadState     : Word
  copyPending     : Word
  pendingCmd      : Word
  contrastPending : Word
  invert          : Word
  -- shared buffers (R18, R20 to R22) and BRIGHT (R24)
  planeA          : Memory
  planeB          : Memory
  pcmd            : Memory
  pcon            : Triple
  wcon            : Triple
  bright          : Nat
  -- engine-private buffers (R19)
  sf0             : Memory
  sf1             : Memory
  sf2             : Memory
  -- engine registers (R25 to R30)
  fn              : BitVec 2
  stepCode        : BitVec 4
  dl              : Nat
  wi              : Word
  mask            : Word
  v1              : Word
  v2              : Word
  bi              : Nat
  -- bus port (R28, R8) and transmitter status (R32)
  dc              : Bool
  trace           : List BusEntry
  tnf             : Bool
  bsy             : Bool
  rxq             : List Byte
  -- TIMER (R33)
  tick            : Nat
  -- the two agents' operations in progress, the HOST's calls to come, its last result
  engWork         : List Task
  hostWork        : List Task
  hostProg        : List Instr
  result          : Result
  -- ordering of plane accesses (R51)
  races           : List Race
  -- the outside world's decisions
  inputs          : List Turn
  turnNo          : Nat
  budget          : Nat
  age             : Nat
  deriving DecidableEq, Repr

/-- Why the machine stops with a fault. -/
inductive Fault where
  /-- THREAD_STATE holds a value above 3 (R13, U3). Raised by an engine turn and by every read of THREAD_STATE.
  Safe: the spec's own treatment, and no rule writes such a value. -/
  | illegalThreadState (v : Word)
  /-- a write of THREAD_STATE that is no edge of R160 for the agent that writes (U3). Raised by FlagWrite.
  Safe: the spec's own treatment, and no reachable state meets it. -/
  | illegalTransition (old new : Word)
  /-- (FN, STEP) is no position of R62: STEP 14 or 15, FN = 3, or FN not 0 where R62 says 0 (U3). Raised by an
  engine turn. Safe: the spec's own treatment. -/
  | illegalSequencer (e : DecodeError)
  /-- an access to an offset outside its region (R41). Raised by DRAW, SFG.WORD and the filling of PCMD with an
  operand out of range. Safe: such an offset does not exist. -/
  | outsideRegion (r : Region) (off : Nat)
  deriving DecidableEq, Repr

/-- Why the machine gives an operation no meaning. -/
inductive Refusal where
  /-- an operation with no meaning yet; said by exec's own arms only. Safe. -/
  | notModelled (mnemonic : String)
  /-- a parameter set R214 and U6 refuse. Raised by a step. Safe. -/
  | badParameters
  /-- a host operation begun in Starting or Stopping (R134, U4). Raised by ENABLE, SHOW, SHOW_ASYNC, SENDCMD and
  BRIGHTNESS. Safe: the spec's own treatment. -/
  | transitionalState
  /-- a host operation begun while another is in progress (D31). Raised by every host operation. Safe. -/
  | hostBusy
  /-- the HOST breaks an ownership right (R180, R208, U5): it writes the bus port while the ENGINE owns it, PCMD
  or PCON while its flag is set, or WCON while the engine is active. Raised by those writes. Safe. -/
  | ownership
  /-- the HOST's next call is no operation the HOST performs (R61, R196). Raised by a step. Safe. -/
  | notAHostOperation (i : Instr)
  deriving DecidableEq, Repr

/-- What one atomic action does: it is done, it has to be tried again (a spin whose condition does not hold), or it
stops the machine. -/
inductive Act where
  | done (s : State)
  | wait
  | fault (f : Fault)
  | refuse (r : Refusal)
  deriving DecidableEq, Repr

/-- R36: the state after reset of a machine built with parameters `p`. Where R36 says "unspecified" the value here
is a DESIGN CHOICE (log 1). -/
def State.resetWith (p : Config.Params) : State where
  cfg := p
  threadState := 0#32
  copyPending := 0#32
  pendingCmd := 0#32
  contrastPending := 0#32
  invert := 0#32
  planeA := []
  planeB := []
  pcmd := []
  pcon := deriveTriple (keyBrightness p.configKey)
  wcon := deriveTriple (keyBrightness p.configKey)
  bright := keyBrightness p.configKey
  sf0 := []
  sf1 := []
  sf2 := []
  fn := 0#2
  stepCode := 0#4
  dl := 0
  wi := 0#32
  mask := 0#32
  v1 := 0#32
  v2 := 0#32
  bi := 0
  dc := false
  trace := []
  tnf := true
  bsy := false
  rxq := []
  tick := 0
  engWork := []
  hostWork := []
  hostProg := []
  result := .done
  races := []
  inputs := []
  turnNo := 0
  budget := 0
  age := 0

/-- The machine right after reset, with the parameters of R6's default column (log 2) and no persisted key. -/
def State.reset : State := State.resetWith Config.Params.default

end Sys2Proof.Machine
end

