-- ==== Sys2Proof/Machine/Ops.lean ====
section
/-! DEFINITION. The named operations over memory, the tables, the agents' work and the sequencer that every meaning
is made of. -/

namespace Sys2Proof.Machine

/-! ### Memory (R41, R44) -/

/-- The byte at an offset. -/
def Memory.read : Memory → Nat → Byte
  | [], _ => Memory.unlisted
  | (b, v) :: m, a => if a = b then v else Memory.read m a

/-- The byte at an offset replaced, in canonical form. -/
def Memory.write : Memory → Nat → Byte → Memory
  | [], a, v => if v = Memory.unlisted then [] else [(a, v)]
  | (b, w) :: m, a, v =>
    if a < b then (if v = Memory.unlisted then (b, w) :: m else (a, v) :: (b, w) :: m)
    else if a = b then (if v = Memory.unlisted then m else (a, v) :: m)
    else (b, w) :: Memory.write m a v

/-- Every listed offset is at least `lo`, the offsets rise strictly, and no entry holds the unlisted byte. -/
def Memory.wfFrom : Nat → Memory → Bool
  | _, [] => true
  | lo, (a, v) :: m => decide (lo ≤ a) && v != Memory.unlisted && Memory.wfFrom (a + 1) m

/-- The canonical form. -/
def Memory.wf (m : Memory) : Bool := Memory.wfFrom 0 m

/-- Every listed offset lies below the region's size. -/
def Memory.below (n : Nat) (m : Memory) : Bool := m.all (fun c => decide (c.1 < n))

/-- The bytes at offsets 0 to n - 1, ascending (R43). -/
def Memory.bytes (m : Memory) (n : Nat) : List Byte := (List.range n).map (Memory.read m)

/-- R44: the little-endian word `{m[a+3], m[a+2], m[a+1], m[a]}`. -/
def Memory.readWord (m : Memory) (a : Nat) : Word :=
  Memory.read m (a + 3) ++ Memory.read m (a + 2) ++ Memory.read m (a + 1) ++ Memory.read m a

/-- Byte k of a word, byte 0 the least significant. -/
def wordByte (w : Word) (k : Nat) : Byte := w.extractLsb' (8 * k) 8

/-- R44: a word written little-endian. -/
def Memory.writeWord (m : Memory) (a : Nat) (w : Word) : Memory :=
  Memory.write (Memory.write (Memory.write (Memory.write m a (wordByte w 0)) (a + 1) (wordByte w 1))
    (a + 2) (wordByte w 2)) (a + 3) (wordByte w 3)

/-! ### Regions (R41) -/

/-- The size of a region in bytes. -/
def regionSize (p : Config.Params) : Region → Nat
  | .planeA => p.planeBytes
  | .planeB => p.planeBytes
  | .sf _ => p.planeBytes
  | .pcmd => p.pcmdLen

/-- The region of a plane. -/
def planeRegion : Plane → Region
  | .a => .planeA
  | .b => .planeB

/-- The contents of a region. -/
def State.region (s : State) : Region → Memory
  | .planeA => s.planeA
  | .planeB => s.planeB
  | .sf 0 => s.sf0
  | .sf 1 => s.sf1
  | .sf 2 => s.sf2
  | .pcmd => s.pcmd

/-- The contents of a region replaced. -/
def State.setRegion (s : State) (r : Region) (m : Memory) : State :=
  match r with
  | .planeA => { s with planeA := m }
  | .planeB => { s with planeB := m }
  | .sf 0 => { s with sf0 := m }
  | .sf 1 => { s with sf1 := m }
  | .sf 2 => { s with sf2 := m }
  | .pcmd => { s with pcmd := m }

/-- Whether n bytes from an offset lie inside the region. -/
def inRegion (p : Config.Params) (r : Region) (off n : Nat) : Bool := decide (off + n ≤ regionSize p r)

/-- One byte of a region, as the tests and the claims read it. -/
def State.byteAt (s : State) (r : Region) (off : Nat) : Byte := Memory.read (s.region r) off

/-! ### Plane reads that race with the HOST's drawing (R51, R203) -/

/-- A plane with its `n` latest unsynchronised byte writes undone, newest first. -/
def rewind (p : Plane) : List Race → Nat → Memory → Memory
  | [], _, m => m
  | .released _ :: l, n, m => rewind p l n m
  | .drew _ _ _ :: _, 0, m => m
  | .drew q off old :: l, n + 1, m => rewind p l n (if q = p then Memory.write m off old else m)

/-- The plane as an ENGINE read of this turn sees it: R51 (d) lets it miss the HOST's writes that no flag has
ordered before it; `age` says how many. Each word read is a value the word really held (R203). -/
def State.planeView (s : State) (p : Plane) : Memory :=
  rewind p s.races s.age (s.region (planeRegion p))

/-! ### The agents' work -/

/-- The actions an agent's operation in progress has still to perform. -/
def State.work (s : State) : Agent → List Task
  | .host => s.hostWork
  | .engine => s.engWork

def State.setWork (s : State) (a : Agent) (ts : List Task) : State :=
  match a with
  | .host => { s with hostWork := ts }
  | .engine => { s with engWork := ts }

/-- The actions `ts` come before what the agent has still to do. -/
def State.push (s : State) (a : Agent) (ts : List Task) : State := s.setWork a (ts ++ s.work a)

/-! ### The sequencer (R26, R62) -/

/-- The STEP code of a position. -/
def posCode : Pos → BitVec 4
  | .idle => 0#4
  | .s1 => 1#4
  | .s2 => 2#4
  | .s3 => 3#4
  | .s4 => 4#4
  | .s5 => 5#4
  | .s6 => 6#4
  | .s7 => 7#4
  | .s8 => 8#4
  | .s9 => 9#4
  | .s10 => 10#4
  | .check => 11#4
  | .start => 12#4
  | .exit => 13#4

/-- A subframe index as the two bits of FN (R25). -/
def fnBits (k : Fin 3) : BitVec 2 := BitVec.ofNat 2 k.val

/-- SEQ = {FN, STEP} as the byte the decoder reads (R62). -/
def State.seqByte (s : State) : Byte := BitVec.ofNat 8 (16 * s.fn.toNat + s.stepCode.toNat)

/-! ### Ownership of the bus port (R38 (f), R163) -/

/-- ENGINE while THREAD_STATE is Running or Stopping, and in Starting from the launch on, when the engine is idle no
more: R163 hands the port over "after the MODE_GRAY group is complete and before the launch" (log 29). HOST
otherwise. -/
def State.busOwner (s : State) : Agent :=
  if s.threadState = 2#32 ∨ s.threadState = 3#32 ∨ (s.threadState = 1#32 ∧ s.stepCode ≠ posCode .idle) then .engine
  else .host

/-- R180, R208: the HOST may not write the bus port or the DC line while the ENGINE owns it. Nothing checks the
ENGINE: its sequence is fixed. -/
def State.mayDriveBus (s : State) (a : Agent) : Bool :=
  match a with
  | .engine => true
  | .host => s.busOwner == .host

/-! ### Handing a result or an error to the caller (R171, R175) -/

/-- The numeric codes of R175. -/
def errorCode : ErrorCause → Nat
  | .contractViolation => 1
  | .hardwareDesync => 2
  | .configError => 3
  | .engineHang => 4

/-- `raise`: ends the host operation at once and hands the error to its caller; nothing is saved, no flag is
touched, and the ENGINE is undisturbed (R171). There is no trap entry and so no return from one (R178). -/
def raiseTasks (c : ErrorCause) (info : Nat) : List Task := [.ret (.error c info)]

/-! ### Outcomes of a list of actions -/

abbrev Program := Host.Outcome (List Task) Fault Refusal

end Sys2Proof.Machine
end

