-- ==== Sys2Proof/Machine/Flags.lean ====
section
/-! DEFINITION. The five SYNC words (R12): reading, writing, the ordering that goes with them (R51), and the cycle
of THREAD_STATE (R13, R160). -/

namespace Sys2Proof.Machine

/-- The word index of a flag in SYNC (R12). -/
def flagIndex : Flag → Nat
  | .threadState => 0
  | .copyPending => 1
  | .pendingCmd => 2
  | .contrastPending => 3
  | .invert => 4

/-- The word a flag holds. -/
def State.flag (s : State) : Flag → Word
  | .threadState => s.threadState
  | .copyPending => s.copyPending
  | .pendingCmd => s.pendingCmd
  | .contrastPending => s.contrastPending
  | .invert => s.invert

def State.setFlag (s : State) (f : Flag) (v : Word) : State :=
  match f with
  | .threadState => { s with threadState := v }
  | .copyPending => { s with copyPending := v }
  | .pendingCmd => { s with pendingCmd := v }
  | .contrastPending => { s with contrastPending := v }
  | .invert => { s with invert := v }

/-- The values of THREAD_STATE (R12). -/
def stopped : Word := 0#32
def starting : Word := 1#32
def running : Word := 2#32
def stopping : Word := 3#32

/-- "a value above 3 is never written by any rule" (R13). -/
def legalThreadState (v : Word) : Bool := decide (v.toNat ≤ 3)

/-- The edges of R160 with the agent that writes each. -/
def legalEdge (a : Agent) (old new : Word) : Bool :=
  match a with
  | .host => (old == stopped && new == starting) || (old == running && new == stopping)
  | .engine => (old == starting && new == running) || (old == stopping && new == stopped)

/-- R51 (c): a FlagRead of the ENGINE that returns a value the HOST wrote sees every access the HOST made before
that write: the draws older than the HOST's latest release of the flag can no longer be missed. -/
def acquireRaces (f : Flag) (l : List Race) : List Race := l.takeWhile (fun r => r != .released f)

/-- R51 (b): the HOST's FlagWrite is a release. The ENGINE's own write replaces the HOST's value, so that a later
read of the flag returns nothing the HOST released. -/
def writeRaces (a : Agent) (f : Flag) (l : List Race) : List Race :=
  match a with
  | .host => .released f :: l
  | .engine => l.filter (fun r => r != .released f)

/-- FlagRead by the ENGINE: its effect on the ordering; the value is `State.flag`. -/
def State.acquire (s : State) (f : Flag) : State := { s with races := acquireRaces f s.races }

/-- FlagWrite(f, v) (R8) with its release. -/
def State.writeFlag (s : State) (a : Agent) (f : Flag) (v : Word) : State :=
  { s.setFlag f v with races := writeRaces a f s.races }

/-- FlagWrite as an action: a write of THREAD_STATE that is no edge of R160 is a fault (U3). -/
def flagWriteAct (a : Agent) (f : Flag) (v : Word) (s : State) : Act :=
  match f with
  | .threadState =>
    if legalEdge a s.threadState v then .done (s.writeFlag a .threadState v)
    else .fault (.illegalTransition s.threadState v)
  | f => .done (s.writeFlag a f v)

/-- One poll of `spin until FlagRead(f) == v` (R8, R173: no bound, no timeout). -/
def spinAct (f : Flag) (v : Word) (s : State) : Act :=
  match f with
  | .threadState =>
    if legalThreadState s.threadState then (if s.threadState = v then .done s else .wait)
    else .fault (.illegalThreadState s.threadState)
  | f => if s.flag f = v then .done s else .wait

/-- The path a host operation takes, from one FlagRead of THREAD_STATE (R129): the active path when it reads
Running, the direct path when it reads Stopped; an operation begun in Starting or Stopping is refused (R134, U4). -/
def choosePath (s : State) (active direct : List Task) : Program :=
  if s.threadState = running then .next active
  else if s.threadState = stopped then .next direct
  else if legalThreadState s.threadState then .refused .transitionalState
  else .fault (.illegalThreadState s.threadState)

end Sys2Proof.Machine
end

