-- ==== Sys2Proof/Machine/Operands.lean ====
section
/-! DEFINITION. Operand assembly: the values that follow from the parameters (R6), the bytes of every bus group (R64
to R71), the padded command (R127), deadlines and their comparison (R99, R118), the subframe transform of one word
(R85). -/

namespace Sys2Proof.Config

/-! ### Values that follow from the parameters (R6) -/

/-- The whole number of ticks nearest to the scan time of `rows` rows, rows * T_ROW (log 3: the rounding). -/
def Params.ticksOfRows (p : Params) (rows : Nat) : Nat := (2 * (rows * p.tRow.num) + p.tRow.den) / (2 * p.tRow.den)

/-- T_PRE = ROWS_PRE * T_ROW. -/
def Params.tPre (p : Params) : Nat := p.ticksOfRows rowsPre

/-- T_POST = ROWS_POST * T_ROW. -/
def Params.tPost (p : Params) : Nat := p.ticksOfRows rowsPost

/-- MUX_ENC(n) of R6 and R71. Past the end of a table too short the default of R6 holds, n - 1 (log 18). -/
def Params.muxByte (p : Params) (rows : Nat) : Byte :=
  match p.muxEnc with
  | .rowsMinusOne => BitVec.ofNat 8 (rows - 1)
  | .table t => t.getD rows (BitVec.ofNat 8 (rows - 1))

/-- MUX_ENC(MUX_PARK) = MUX_ENC(1) (R64). -/
def Params.muxPark (p : Params) : Byte := p.muxByte muxParkRows

/-- MUX_ENC(MUX_RUN) = MUX_ENC(57) (R67). -/
def Params.muxRun (p : Params) : Byte := p.muxByte muxRunRows

end Sys2Proof.Config

namespace Sys2Proof.Machine

/-! ### Bus groups -/

/-- MONO_CONTRAST(b) of R6. Past the end of a table too short the default of R6 holds, b itself (log 18). -/
def monoContrastByte (p : Config.Params) (b : Nat) : Byte :=
  match p.monoContrast with
  | .identity => BitVec.ofNat 8 b
  | .table t => t.getD b (BitVec.ofNat 8 b)

/-- R64: multiplex pair first, then the offset pair. -/
def parkBytes (p : Config.Params) : List Byte := [p.cmdSetMux, p.muxPark, p.cmdSetOffset, p.parkOffset]

/-- R67. -/
def restoreBytes (p : Config.Params) : List Byte := [p.cmdSetMux, p.muxRun, p.cmdSetOffset, p.restoreOffset]

/-- The region of subframe buffer k. -/
def State.subframe (s : State) (k : Fin 3) : Memory := s.region (.sf k)

/-- The DC level of a group (R63): true is data mode. -/
def groupDc : Group → Bool
  | .frame _ => true
  | .monoFrame => true
  | .park => false
  | .contrast _ => false
  | .restore => false
  | .inject => false
  | .directCmd _ => false
  | .monoContrast => false
  | .modeGray => false
  | .modeMono => false
  | .init => false

/-- The bytes of a group as the state stands (R64 to R70). -/
def groupBytes (s : State) : Group → List Byte
  | .park => parkBytes s.cfg
  | .frame fn => Memory.bytes (s.subframe fn) s.cfg.planeBytes
  | .contrast fn => [s.cfg.cmdSetContrast, tripleGet s.wcon fn]
  | .restore => restoreBytes s.cfg
  | .inject => Memory.bytes s.pcmd s.cfg.pcmdLen
  | .monoFrame => Memory.bytes s.planeA s.cfg.planeBytes
  | .directCmd c => c
  | .monoContrast => [s.cfg.cmdSetContrast, monoContrastByte s.cfg s.bright]
  | .modeGray => s.cfg.modeGray
  | .modeMono => s.cfg.modeMono
  | .init => s.cfg.init

/-- A group as it stands on the bus trace. -/
def traceOf (dc : Bool) (bytes : List Byte) : List BusEntry := bytes.map (fun b => (dc, b))

/-- R127, R68: the command and its padding of no-ops, PCMD_LEN bytes in all. -/
def paddedCommand (p : Config.Params) (c : List Byte) : List Byte :=
  c ++ List.replicate (p.pcmdLen - c.length) p.cmdNop

/-! ### Pixels (R42, R18) -/

/-- The byte offset of the pixel at column x, row y. -/
def pixelOffset (p : Config.Params) (x y : Nat) : Nat := y / 8 * p.width + x

/-- Bit y mod 8 of the pixel's byte in a region: bit 0 is the topmost of the band's eight rows. -/
def State.pixelBit (s : State) (r : Region) (x y : Nat) : Bool :=
  (s.byteAt r (pixelOffset s.cfg x y)).getLsbD (y % 8)

/-- The pixel's colour, `(planeB << 1) | planeA`: 0 black, 1 white, 2 darkgray, 3 lightgray. -/
def State.colour (s : State) (x y : Nat) : Nat :=
  2 * (s.pixelBit .planeB x y).toNat + (s.pixelBit .planeA x y).toNat

/-- In which of the three subframes the pixel is lit, and in how many (R87). -/
def State.shown (s : State) (x y : Nat) : List Bool × Nat :=
  let bits := [s.pixelBit (.sf 0) x y, s.pixelBit (.sf 1) x y, s.pixelBit (.sf 2) x y]
  (bits, bits.count true)

/-! ### Ticks (R118) -/

/-- now + interval, modulo 2^TICK_BITS. -/
def tickAdd (p : Config.Params) (now interval : Nat) : Nat := (now + interval) % 2 ^ p.tickBits

/-- sdiff_TICK_BITS(now, d) of R8: the difference modulo 2^TICK_BITS read as two's complement. -/
def tickDiff (p : Config.Params) (now d : Nat) : Int :=
  Int.bmod ((now : Int) - (d : Int)) (2 ^ p.tickBits)

/-- The wait of R99 ends. -/
def deadlinePassed (p : Config.Params) (now d : Nat) : Bool := decide (0 ≤ tickDiff p now d)

/-! ### The transform of one word (R85) -/

/-- MASK from the word read from INVERT (R88): any non-zero value reads as true (R17). -/
def maskOf (inv : Word) : Word := if inv = 0#32 then 0#32 else 0xFFFFFFFF#32

/-- SF0, SF1, SF2 of V1 and V2. -/
def sfWord0 (v1 v2 : Word) : Word := v1 ||| v2
def sfWord1 (v1 _v2 : Word) : Word := v1
def sfWord2 (v1 v2 : Word) : Word := v1 &&& (v1 ^^^ v2)

end Sys2Proof.Machine
end

