-- ==== Sys2Proof/Machine/Programs.lean ====
section
/-! DEFINITION. The sub-operations as the lists of actions their pseudocode is made of; the meanings and the actions
that call a sub-operation both use these. -/

namespace Sys2Proof.Machine

/-- BUS.BYTE (R95). -/
def busByteTasks (b : Byte) : List Task := [.send b, .drain]

/-- BUS.GROUP (R96). -/
def busGroupTasks (dc : Bool) (s : List Byte) : List Task := [.drive dc, .bytes 0 s, .idle, .drain]

/-- WAIT.UNTIL (R99). -/
def waitUntilTasks (d : Nat) : List Task := [.await d]

/-- SFG.WORD (R85). -/
def sfgWordTasks (wi : Nat) (mask : Word) : List Task := [.loadV1 wi mask, .loadV2 wi, .storeSf wi]

/-- SVC.PUBLISH (R131). -/
def svcPublishTasks : List Task := [.pass, .flagWrite .copyPending 0#32]

/-- SVC.CONTRAST (R132). -/
def svcContrastTasks : List Task := [.adopt 0, .adopt 1, .adopt 2, .flagWrite .contrastPending 0#32]

/-- SVC.COMMAND (R133). -/
def svcCommandTasks : List Task := [.emit .inject, .flagWrite .pendingCmd 0#32]

/-- SERVICE (R130) under each BOUNDARY_POLICY. -/
def serviceTasks : Config.BoundaryPolicy → List Task
  | .allInOrder => [.pollPublish, .pollContrast, .pollCommand]
  | .contrastOrCommand => [.pollPublish, .pollContrastElseCommand]

/-- The direct path of BRIGHTNESS (R145), which DISABLE repeats (R158). -/
def directContrastTasks : List Task := [.adopt 0, .adopt 1, .adopt 2, .emit .monoContrast]

/-- PCON <- DERIVE(BRIGHT) (R145, R158). -/
def deriveTasks : List Task := [.derive 0, .derive 1, .derive 2]

end Sys2Proof.Machine
end

