-- ==== Sys2Proof/Machine/Actions.lean ====
section
/-! DEFINITION. What each atomic action does. `a` is the agent that performs it; the action itself has already been
taken off the agent's work. -/

namespace Sys2Proof.Machine

/-! ### Bus (R95, R96) -/

/-- DC <- dc: "toggled immediately before each transfer group". -/
def driveAct (a : Agent) (dc : Bool) (s : State) : Act :=
  if s.mayDriveBus a then .done { s with dc := dc } else .refuse .ownership

/-- The loop head of R96: BI <- k and BUS.BYTE of the next byte, or the loop's end. -/
def bytesAct (a : Agent) (k : Nat) (bs : List Byte) (s : State) : Act :=
  match bs with
  | [] => .done s
  | b :: rest => .done ({ s with bi := k }.push a (busByteTasks b ++ [Task.bytes (k + 1) rest]))

/-- spin until TNF == 1; write b: appends (DC, b) to the bus trace, DC as currently driven. -/
def sendAct (a : Agent) (b : Byte) (s : State) : Act :=
  if s.mayDriveBus a then
    (if s.tnf then .done { s with trace := s.trace ++ [(s.dc, b)] } else .wait)
  else .refuse .ownership

/-- while RNE == 1: read and discard one received byte; one byte an action. -/
def drainAct (a : Agent) (s : State) : Act :=
  match s.rxq with
  | [] => .done s
  | _ :: q => .done ({ s with rxq := q }.push a [.drain])

/-- spin until BSY == 0. -/
def idleAct (s : State) : Act := if s.bsy then .wait else .done s

/-- BUS.GROUP of a group's bytes, taken as the group begins (log 28). -/
def emitAct (a : Agent) (g : Group) (s : State) : Act :=
  .done (s.push a (busGroupTasks (groupDc g) (groupBytes s g)))

/-! ### Timer (R99, R103, R108) -/

def awaitAct (d : Nat) (s : State) : Act := if deadlinePassed s.cfg s.tick d then .done s else .wait

def setDeadlineAct (interval : Nat) (s : State) : Act := .done { s with dl := tickAdd s.cfg s.tick interval }

/-! ### Sequencer -/

def setFnAct (fn : Fin 3) (s : State) : Act := .done { s with fn := fnBits fn }

def gotoAct (p : Pos) (s : State) : Act := .done { s with stepCode := posCode p }

/-- The ENGINE's announcements of Running and Stopped: the flag and the next position in one action, so that the HOST
never launches an ENGINE that has announced Stopped and is not yet idle (R156; log 9). -/
def announceAct (a : Agent) (v : Word) (p : Pos) (s : State) : Act :=
  if legalEdge a s.threadState v then .done { s.writeFlag a .threadState v with stepCode := posCode p }
  else .fault (.illegalTransition s.threadState v)

/-- R102: THREAD_STATE read Running gives FN <- 0, STEP <- S1, anything else STEP <- EXIT; one action (log 9). -/
def testRunAct (s : State) : Act :=
  if legalThreadState s.threadState then
    (if s.threadState = running then .done { s.acquire .threadState with fn := 0#2, stepCode := posCode .s1 }
     else .done { s.acquire .threadState with stepCode := posCode .exit })
  else .fault (.illegalThreadState s.threadState)

/-- R112: FN = 2 wraps to 0 and goes to CHECK; else FN + 1 and S1; one action (log 9). -/
def nextSubframeAct (fn : Fin 3) (s : State) : Act :=
  match fn with
  | 0 => .done { s with fn := 1#2, stepCode := posCode .s1 }
  | 1 => .done { s with fn := 2#2, stepCode := posCode .s1 }
  | 2 => .done { s with fn := 0#2, stepCode := posCode .check }

/-! ### Subframe generator (R85, R88) -/

def passAct (a : Agent) (s : State) : Act :=
  .done ({ s.acquire .invert with mask := maskOf s.invert }.push a [.words 0])

/-- The loop head of R88: WI <- k and SFG.WORD, or the loop's end. -/
def wordsAct (a : Agent) (k : Nat) (s : State) : Act :=
  if k < s.cfg.planeWords then
    .done ({ s with wi := BitVec.ofNat 32 k }.push a (sfgWordTasks k s.mask ++ [Task.words (k + 1)]))
  else .done s

def loadV1Act (wi : Nat) (mask : Word) (s : State) : Act :=
  if inRegion s.cfg .planeA (4 * wi) 4 then
    .done { s with v1 := Memory.readWord (s.planeView .a) (4 * wi) ^^^ mask }
  else .fault (.outsideRegion .planeA (4 * wi))

def loadV2Act (wi : Nat) (s : State) : Act :=
  if inRegion s.cfg .planeB (4 * wi) 4 then .done { s with v2 := Memory.readWord (s.planeView .b) (4 * wi) }
  else .fault (.outsideRegion .planeB (4 * wi))

/-- R85: the three stores of a word, as one action (log 28), so that SF0 to SF2 nest between the turns of a pass too. -/
def storeSfAct (wi : Nat) (s : State) : Act :=
  if inRegion s.cfg (.sf 0) (4 * wi) 4 then
    .done { s with
      sf0 := Memory.writeWord s.sf0 (4 * wi) (sfWord0 s.v1 s.v2)
      sf1 := Memory.writeWord s.sf1 (4 * wi) (sfWord1 s.v1 s.v2)
      sf2 := Memory.writeWord s.sf2 (4 * wi) (sfWord2 s.v1 s.v2) }
  else .fault (.outsideRegion (.sf 0) (4 * wi))

/-! ### Boundary service (R130) -/

def pollPublishAct (a : Agent) (s : State) : Act :=
  if s.copyPending = 0#32 then .done (s.acquire .copyPending)
  else .done ((s.acquire .copyPending).push a svcPublishTasks)

def pollContrastAct (a : Agent) (s : State) : Act :=
  if s.contrastPending = 0#32 then .done (s.acquire .contrastPending)
  else .done ((s.acquire .contrastPending).push a svcContrastTasks)

def pollCommandAct (a : Agent) (s : State) : Act :=
  if s.pendingCmd = 0#32 then .done (s.acquire .pendingCmd)
  else .done ((s.acquire .pendingCmd).push a svcCommandTasks)

/-- CONTRAST_OR_COMMAND: the command flag is read only when no contrast update is pending. -/
def pollContrastElseCommandAct (a : Agent) (s : State) : Act :=
  if s.contrastPending = 0#32 then .done ((s.acquire .contrastPending).push a [.pollCommand])
  else .done ((s.acquire .contrastPending).push a svcContrastTasks)

/-! ### Tables, brightness, command buffer -/

/-- WCON[k] <- PCON[k]. The HOST writes WCON only while the engine is inactive (R10, R208). -/
def adoptAct (a : Agent) (k : Fin 3) (s : State) : Act :=
  if a = .host ∧ s.threadState = running then .refuse .ownership
  else .done { s with wcon := tripleSet s.wcon k (tripleGet s.pcon k) }

/-- PCON[k] <- DERIVE(BRIGHT)[k]; only while CONTRAST_PENDING = 0 (R10, R54, R208). -/
def deriveAct (k : Fin 3) (s : State) : Act :=
  if s.contrastPending = 0#32 then
    .done { s with pcon := tripleSet s.pcon k (tripleGet (deriveTriple s.bright) k) }
  else .refuse .ownership

def setBrightAct (b : Nat) (s : State) : Act := .done { s with bright := b }

/-- The two loops of R127 over the padded command; only while PENDING_CMD = 0 (R10, R54, R208). An offset past PCMD
does not exist (R41). -/
def fillPcmdAct (a : Agent) (k : Nat) (bs : List Byte) (s : State) : Act :=
  match bs with
  | [] => .done s
  | b :: rest =>
    if s.pendingCmd = 0#32 then
      (if inRegion s.cfg .pcmd k 1 then
        .done ({ s with pcmd := Memory.write s.pcmd k b }.push a [.fillPcmd (k + 1) rest])
      else .fault (.outsideRegion .pcmd k))
    else .refuse .ownership

/-! ### Host -/

/-- R156: the ENGINE begins executing at ENG.START; it sees everything the HOST did before (R52 (7)). -/
def launchAct (s : State) : Act :=
  .done { s with fn := 0#2, stepCode := posCode .start, races := [] }

/-- One byte write of DRAW; a write outside the plane touches an offset that does not exist (R41). -/
def drawByteAct (w : PlaneWrite) (s : State) : Act :=
  if inRegion s.cfg (planeRegion w.plane) w.off 1 then
    .done { s.setRegion (planeRegion w.plane) (Memory.write (s.region (planeRegion w.plane)) w.off w.val) with
      races := .drew w.plane w.off (s.byteAt (planeRegion w.plane) w.off) :: s.races }
  else .fault (.outsideRegion (planeRegion w.plane) w.off)

def retAct (r : Result) (s : State) : Act := .done { s with result := r }

/-! ### All of them -/

def act (a : Agent) (t : Task) (s : State) : Act :=
  match t with
  | .emit g => emitAct a g s
  | .drive dc => driveAct a dc s
  | .bytes k bs => bytesAct a k bs s
  | .send b => sendAct a b s
  | .drain => drainAct a s
  | .idle => idleAct s
  | .await d => awaitAct d s
  | .setDeadline n => setDeadlineAct n s
  | .setFn fn => setFnAct fn s
  | .goto p => gotoAct p s
  | .announce v p => announceAct a v p s
  | .testRun => testRunAct s
  | .nextSubframe fn => nextSubframeAct fn s
  | .flagWrite f v => flagWriteAct a f v s
  | .spin f v => spinAct f v s
  | .pass => passAct a s
  | .words k => wordsAct a k s
  | .loadV1 wi mask => loadV1Act wi mask s
  | .loadV2 wi => loadV2Act wi s
  | .storeSf wi => storeSfAct wi s
  | .pollPublish => pollPublishAct a s
  | .pollContrast => pollContrastAct a s
  | .pollCommand => pollCommandAct a s
  | .pollContrastElseCommand => pollContrastElseCommandAct a s
  | .adopt k => adoptAct a k s
  | .derive k => deriveAct k s
  | .setBright b => setBrightAct b s
  | .fillPcmd k bs => fillPcmdAct a k bs s
  | .launch => launchAct s
  | .drawByte w => drawByteAct w s
  | .ret r => retAct r s

end Sys2Proof.Machine
end

