-- ==== Sys2Proof/Machine/Run.lean ====
section
/-! DEFINITION. Performing an operation: an agent takes the actions of its operation in progress one after another
until the operation is complete, a spin's condition does not hold, or the turn's budget is used up. What is left
stays in the agent's work, and the agent's next turn goes on with it. -/

namespace Sys2Proof.Machine

/-- At most n actions of agent a. -/
def go (a : Agent) : Nat → State → Host.Outcome State Fault Refusal
  | 0, s => .next s
  | n + 1, s =>
    match s.work a with
    | [] => .next s
    | t :: ts =>
      match act a t (s.setWork a ts) with
      | .done s' => go a n s'
      | .wait => .next s
      | .fault f => .fault f
      | .refuse r => .refused r

/-- An agent goes on with its operation in progress. -/
def resume (a : Agent) (s : State) : Host.Outcome State Fault Refusal := go a s.budget s

/-- An agent begins the operation whose actions are `ts`. -/
def perform (a : Agent) (ts : List Task) (s : State) : Host.Outcome State Fault Refusal :=
  resume a (s.push a ts)

/-- The HOST begins an operation: one at a time (D31, R162). -/
def performHost (p : Program) (s : State) : Host.Outcome State Fault Refusal :=
  match s.hostWork with
  | _ :: _ => .refused .hostBusy
  | [] =>
    match p with
    | .next ts => perform .host ts s
    | .fault f => .fault f
    | .refused r => .refused r

end Sys2Proof.Machine
end

