-- ==== Sys2Proof/Machine/BusTiming.lean ====
section
/-! DEFINITION. The bus primitives, the wait, and the engine's sequence (41_bus_timing_engine.md). The operand `fn`
is the field FN of SEQ that the position was fetched with. -/

namespace Sys2Proof.Machine

/-- BUS.BYTE (R95), by the agent that owns the bus port (R38 (f)). -/
def execBusByte (b : Byte) (s : State) : Host.Outcome State Fault Refusal :=
  perform s.busOwner (busByteTasks b) s

/-- BUS.GROUP (R96). -/
def execBusGroup (dc : Bool) (bytes : List Byte) (s : State) : Host.Outcome State Fault Refusal :=
  perform s.busOwner (busGroupTasks dc bytes) s

/-- WAIT.UNTIL (R99). -/
def execWaitUntil (d : Nat) (s : State) : Host.Outcome State Fault Refusal := perform .engine (waitUntilTasks d) s

/-- ENG.IDLE (R100): "the engine has no step: it reads nothing, writes nothing". -/
def execEngIdle (s : State) : Host.Outcome State Fault Refusal := perform .engine [] s

/-- ENG.START (R101). -/
def execEngStart (s : State) : Host.Outcome State Fault Refusal :=
  perform .engine [.setFn 0, .pass, .announce running .check] s

/-- ENG.CHECK (R102). -/
def execEngCheck (s : State) : Host.Outcome State Fault Refusal := perform .engine [.testRun] s

/-- ENG.EXIT (R113). -/
def execEngExit (s : State) : Host.Outcome State Fault Refusal :=
  perform .engine [.announce stopped .idle] s

/-- S1 (R103). -/
def execS1 (_fn : Fin 3) (s : State) : Host.Outcome State Fault Refusal :=
  perform .engine [.setDeadline s.cfg.tPre, .goto .s2] s

/-- S2 (R104). -/
def execS2 (_fn : Fin 3) (s : State) : Host.Outcome State Fault Refusal :=
  perform .engine [.emit .park, .goto .s3] s

/-- S3 (R105). -/
def execS3 (fn : Fin 3) (s : State) : Host.Outcome State Fault Refusal :=
  perform .engine [.emit (.frame fn), .goto .s4] s

/-- S4 (R106). -/
def execS4 (fn : Fin 3) (s : State) : Host.Outcome State Fault Refusal :=
  perform .engine [.emit (.contrast fn), .goto .s5] s

/-- S5 (R107). -/
def execS5 (_fn : Fin 3) (s : State) : Host.Outcome State Fault Refusal :=
  perform .engine (waitUntilTasks s.dl ++ [Task.goto .s6]) s

/-- S6 (R108). -/
def execS6 (_fn : Fin 3) (s : State) : Host.Outcome State Fault Refusal :=
  perform .engine [.setDeadline s.cfg.tPost, .goto .s7] s

/-- S7 (R109). -/
def execS7 (_fn : Fin 3) (s : State) : Host.Outcome State Fault Refusal :=
  perform .engine [.emit .restore, .goto .s8] s

/-- S8 (R110). -/
def execS8 (fn : Fin 3) (s : State) : Host.Outcome State Fault Refusal :=
  perform .engine [.emit (.contrast fn), .goto .s9] s

/-- S9 (R111): SERVICE only when FN = 2. -/
def execS9 (fn : Fin 3) (s : State) : Host.Outcome State Fault Refusal :=
  match fn with
  | 0 => perform .engine [.goto .s10] s
  | 1 => perform .engine [.goto .s10] s
  | 2 => perform .engine (serviceTasks s.cfg.policy ++ [Task.goto .s10]) s

/-- S10 (R112). -/
def execS10 (fn : Fin 3) (s : State) : Host.Outcome State Fault Refusal :=
  perform .engine (waitUntilTasks s.dl ++ [Task.nextSubframe fn]) s

end Sys2Proof.Machine
end

