-- ==== Sys2Proof/Machine/Channels.lean ====
section
/-! DEFINITION. The synchronization channels (42_sync_channels.md): SHOW, SHOW_ASYNC, SENDCMD, INVERT on the HOST's
side, SVC.PUBLISH, SVC.CONTRAST, SVC.COMMAND on the ENGINE's, and DRAW (R49). -/

namespace Sys2Proof.Machine

/-- SHOW (R125). -/
def execShow (s : State) : Host.Outcome State Fault Refusal :=
  performHost (choosePath s
    [.flagWrite .copyPending 1#32, .spin .copyPending 0#32, .ret .done]
    [.emit .monoFrame, .ret .done]) s

/-- SHOW_ASYNC (R126): the flag without the wait. -/
def execShowAsync (s : State) : Host.Outcome State Fault Refusal :=
  performHost (choosePath s
    [.flagWrite .copyPending 1#32, .ret .done]
    [.emit .monoFrame, .ret .done]) s

/-- SENDCMD's active path (R127): the length check comes before any write (R170). -/
def sendActiveTasks (p : Config.Params) (c : List Byte) : List Task :=
  if p.pcmdLen < c.length then raiseTasks .contractViolation c.length
  else [.fillPcmd 0 (paddedCommand p c), .flagWrite .pendingCmd 1#32, .spin .pendingCmd 0#32, .ret .done]

/-- SENDCMD (R127); on the direct path exactly the n bytes, no padding, no limit. -/
def execSendCmd (c : List Byte) (s : State) : Host.Outcome State Fault Refusal :=
  performHost (choosePath s (sendActiveTasks s.cfg c) [.emit (.directCmd c), .ret .done]) s

/-- INVERT (R128): the flag and nothing else. -/
def execInvert (v : Bool) (s : State) : Host.Outcome State Fault Refusal :=
  performHost (.next [.flagWrite .invert (if v then 1#32 else 0#32), .ret .done]) s

/-- DRAW (R49): byte by byte, in the order given (R47: not atomic beyond one byte). -/
def execDraw (ws : List PlaneWrite) (s : State) : Host.Outcome State Fault Refusal :=
  performHost (.next (ws.map Task.drawByte ++ [Task.ret .done])) s

/-- SVC.PUBLISH (R131). -/
def execSvcPublish (s : State) : Host.Outcome State Fault Refusal := perform .engine svcPublishTasks s

/-- SVC.CONTRAST (R132). -/
def execSvcContrast (s : State) : Host.Outcome State Fault Refusal := perform .engine svcContrastTasks s

/-- SVC.COMMAND (R133). -/
def execSvcCommand (s : State) : Host.Outcome State Fault Refusal := perform .engine svcCommandTasks s

end Sys2Proof.Machine
end

