-- ==== Sys2Proof/Machine/Groups.lean ====
section
/-! DEFINITION. The bus transfer groups as operations of their own (R63): each emits its bytes, by the agent R63 says
emits it. -/

namespace Sys2Proof.Machine

/-- A group of the HOST's: only while it owns the bus port (R10, R180, R208). -/
def hostGroup (g : Group) (s : State) : Program :=
  if s.busOwner = .host then .next [.emit g] else .refused .ownership

/-- PARK (R64), emitted by S2. -/
def execPark (s : State) : Host.Outcome State Fault Refusal := perform .engine [.emit .park] s

/-- FRAME (R65), emitted by S3. -/
def execFrame (fn : Fin 3) (s : State) : Host.Outcome State Fault Refusal := perform .engine [.emit (.frame fn)] s

/-- CONTRAST (R66), emitted by S4 and S8. -/
def execContrast (fn : Fin 3) (s : State) : Host.Outcome State Fault Refusal :=
  perform .engine [.emit (.contrast fn)] s

/-- RESTORE (R67), emitted by S7. -/
def execRestore (s : State) : Host.Outcome State Fault Refusal := perform .engine [.emit .restore] s

/-- INJECT (R68), emitted by SVC.COMMAND. -/
def execInject (s : State) : Host.Outcome State Fault Refusal := perform .engine [.emit .inject] s

/-- MONOFRAME (R69), emitted by the HOST on the direct path. -/
def execMonoFrame (s : State) : Host.Outcome State Fault Refusal := performHost (hostGroup .monoFrame s) s

/-- DIRECTCMD (R69). -/
def execDirectCmd (c : List Byte) (s : State) : Host.Outcome State Fault Refusal :=
  performHost (hostGroup (.directCmd c) s) s

/-- MONOCONTRAST (R69). -/
def execMonoContrast (s : State) : Host.Outcome State Fault Refusal := performHost (hostGroup .monoContrast s) s

/-- MODE_GRAY (R70), emitted by ENABLE. -/
def execModeGray (s : State) : Host.Outcome State Fault Refusal := performHost (hostGroup .modeGray s) s

/-- MODE_MONO (R70), emitted by DISABLE and at start-up (R196). -/
def execModeMono (s : State) : Host.Outcome State Fault Refusal := performHost (hostGroup .modeMono s) s

/-- INIT (R70), emitted before the block's first operation (R196). -/
def execInit (s : State) : Host.Outcome State Fault Refusal := performHost (hostGroup .init s) s

end Sys2Proof.Machine
end

