-- ==== Sys2Proof/Machine/Lifecycle.lean ====
section
/-! DEFINITION. ENABLE, DISABLE, ISACTIVE (44_lifecycle.md). -/

namespace Sys2Proof.Machine

/-- ENABLE's actions once THREAD_STATE has read Stopped (R155). -/
def enableTasks : List Task :=
  [.flagWrite .threadState starting, .emit .modeGray, .launch, .spin .threadState running, .ret .done]

/-- ENABLE (R155): "no-op if already `Running`". -/
def execEnable (s : State) : Host.Outcome State Fault Refusal :=
  performHost (choosePath s [.ret .done] enableTasks) s

/-- DISABLE's actions once THREAD_STATE has read Running (R158). -/
def disableTasks : List Task :=
  [Task.flagWrite .threadState stopping, .spin .threadState stopped, .emit .modeMono, .emit .monoFrame]
    ++ deriveTasks ++ directContrastTasks ++ [Task.ret .done]

/-- DISABLE (R158): "no-op if not `Running`" (R74). -/
def execDisable (s : State) : Host.Outcome State Fault Refusal :=
  performHost
    (if s.threadState = running then .next disableTasks
     else if legalThreadState s.threadState then .next [.ret .done]
     else .fault (.illegalThreadState s.threadState)) s

/-- ISACTIVE (R161): FlagRead(THREAD_STATE) == 2. -/
def execIsActive (s : State) : Host.Outcome State Fault Refusal :=
  performHost
    (if legalThreadState s.threadState then .next [.ret (.bool (s.threadState == running))]
     else .fault (.illegalThreadState s.threadState)) s

end Sys2Proof.Machine
end

