-- ==== Sys2Proof/Machine/Modulator.lean ====
section
/-! DEFINITION. BRIGHTNESS (43_brightness_modulator.md) and the start-up sequence that uses it (R196 to R198). -/

namespace Sys2Proof.Machine

/-- BRIGHTNESS (R145). -/
def execBrightness (v : Int) (s : State) : Host.Outcome State Fault Refusal :=
  performHost (choosePath s
    ([Task.setBright (clampBrightness v)] ++ deriveTasks ++
      [Task.flagWrite .contrastPending 1#32, .spin .contrastPending 0#32, .ret .done])
    ([Task.setBright (clampBrightness v)] ++ deriveTasks ++ directContrastTasks ++ [Task.ret .done])) s

/-- R198 steps 4 and 5: INIT and the monochrome timing table, then BRIGHTNESS of the persisted key (R197).
The order is the spec's own (D25); that the three are calls of the HOST is the model's choice (log 5, log 15). -/
def startupProgram (p : Config.Params) : List Instr :=
  [.init, .modeMono, .brightness (keyBrightness p.configKey)]

end Sys2Proof.Machine
end

