-- ==== Sys2Proof/Machine/SubframeGenerator.lean ====
section
/-! DEFINITION. SFG.WORD and SFG.PASS (40_subframe_generator.md). -/

namespace Sys2Proof.Machine

/-- SFG.PASS (R88): MASK from INVERT, sampled once, then SFG.WORD for WI = 0 to PLANE_WORDS - 1. -/
def execSfgPass (s : State) : Host.Outcome State Fault Refusal := perform .engine [.pass] s

/-- SFG.WORD (R85). -/
def execSfgWord (wi : Nat) (mask : Word) (s : State) : Host.Outcome State Fault Refusal :=
  perform .engine (sfgWordTasks wi mask) s

end Sys2Proof.Machine
end

