-- ==== Sys2Proof/Machine/Dispatch.lean ====
section
/-! DEFINITION. One arm for each operation of the table. -/

namespace Sys2Proof.Machine

def exec (i : Instr) (s : State) : Host.Outcome State Fault Refusal :=
  match i with
  -- format H
  | .enable => Sys2Proof.Machine.execEnable s
  | .disable => Sys2Proof.Machine.execDisable s
  | .isActive => Sys2Proof.Machine.execIsActive s
  | .showSync => Sys2Proof.Machine.execShow s
  | .showAsync => Sys2Proof.Machine.execShowAsync s
  | .sendCmd c => Sys2Proof.Machine.execSendCmd c s
  | .brightness v => Sys2Proof.Machine.execBrightness v s
  | .invert v => Sys2Proof.Machine.execInvert v s
  | .draw ws => Sys2Proof.Machine.execDraw ws s
  -- format S
  | .engIdle => Sys2Proof.Machine.execEngIdle s
  | .engStart => Sys2Proof.Machine.execEngStart s
  | .engCheck => Sys2Proof.Machine.execEngCheck s
  | .s1 fn => Sys2Proof.Machine.execS1 fn s
  | .s2 fn => Sys2Proof.Machine.execS2 fn s
  | .s3 fn => Sys2Proof.Machine.execS3 fn s
  | .s4 fn => Sys2Proof.Machine.execS4 fn s
  | .s5 fn => Sys2Proof.Machine.execS5 fn s
  | .s6 fn => Sys2Proof.Machine.execS6 fn s
  | .s7 fn => Sys2Proof.Machine.execS7 fn s
  | .s8 fn => Sys2Proof.Machine.execS8 fn s
  | .s9 fn => Sys2Proof.Machine.execS9 fn s
  | .s10 fn => Sys2Proof.Machine.execS10 fn s
  | .engExit => Sys2Proof.Machine.execEngExit s
  | .svcPublish => Sys2Proof.Machine.execSvcPublish s
  | .svcContrast => Sys2Proof.Machine.execSvcContrast s
  | .svcCommand => Sys2Proof.Machine.execSvcCommand s
  | .sfgPass => Sys2Proof.Machine.execSfgPass s
  | .sfgWord wi mask => Sys2Proof.Machine.execSfgWord wi mask s
  | .busGroup dc bytes => Sys2Proof.Machine.execBusGroup dc bytes s
  | .busByte b => Sys2Proof.Machine.execBusByte b s
  | .waitUntil d => Sys2Proof.Machine.execWaitUntil d s
  -- format B
  | .park => Sys2Proof.Machine.execPark s
  | .frame fn => Sys2Proof.Machine.execFrame fn s
  | .contrast fn => Sys2Proof.Machine.execContrast fn s
  | .restore => Sys2Proof.Machine.execRestore s
  | .inject => Sys2Proof.Machine.execInject s
  | .monoFrame => Sys2Proof.Machine.execMonoFrame s
  | .directCmd c => Sys2Proof.Machine.execDirectCmd c s
  | .monoContrast => Sys2Proof.Machine.execMonoContrast s
  | .modeGray => Sys2Proof.Machine.execModeGray s
  | .modeMono => Sys2Proof.Machine.execModeMono s
  | .init => Sys2Proof.Machine.execInit s

end Sys2Proof.Machine
end

