-- ==== Sys2Proof/Machine/Fetch.lean ====
section
/-! DEFINITION. A turn: the outside world's decisions applied, then which operation the agent begins or goes on with;
the parameter sets that are refused; placing one operation where the next turn fetches it. -/

namespace Sys2Proof.Machine

/-! ### Parameters (R214, U6) -/

/-- An interval in 1 to 2^(TICK_BITS - 1) - 1. -/
def intervalOk (p : Config.Params) (t : Nat) : Bool := decide (0 < t) && decide (t < 2 ^ (p.tickBits - 1))

/-- "A model refuses other parameter sets." -/
def paramsOk (p : Config.Params) : Bool :=
  p.planeBytes % 4 == 0 && decide (0 < p.pcmdLen) && intervalOk p p.tPre && intervalOk p p.tPost

/-! ### Turns -/

/-- What the outside world decided: TICK counts on (R33), the transmitter's status (R32), bytes received (R98), how
far back an unsynchronised plane read may look (R51), the budget of actions. -/
def State.beginTurn (s : State) (t : Turn) : State :=
  { s with
    tick := tickAdd s.cfg s.tick t.ticks
    tnf := t.tnf
    bsy := t.bsy
    rxq := s.rxq ++ t.rx
    budget := t.budget
    age := t.age }

/-- The next turn: the first listed input, or a free value. -/
def State.nextTurn (s : State) : Turn :=
  match s.inputs with
  | t :: _ => t
  | [] => Config.freeTurn s.turnNo

/-- The input is used up, or the free value's number is. -/
def State.takeTurn (s : State) : State :=
  match s.inputs with
  | _ :: rest => { s with inputs := rest }
  | [] => { s with turnNo := s.turnNo + 1 }

/-- The operations the HOST performs: format H (R61), and INIT and MODE_MONO, which it sends at start-up (R196). -/
def isHostCall : Instr → Bool
  | .enable => true
  | .disable => true
  | .isActive => true
  | .showSync => true
  | .showAsync => true
  | .sendCmd _ => true
  | .brightness _ => true
  | .invert _ => true
  | .draw _ => true
  | .modeMono => true
  | .init => true
  | .engIdle => false
  | .engStart => false
  | .engCheck => false
  | .s1 _ => false
  | .s2 _ => false
  | .s3 _ => false
  | .s4 _ => false
  | .s5 _ => false
  | .s6 _ => false
  | .s7 _ => false
  | .s8 _ => false
  | .s9 _ => false
  | .s10 _ => false
  | .engExit => false
  | .svcPublish => false
  | .svcContrast => false
  | .svcCommand => false
  | .sfgPass => false
  | .sfgWord _ _ => false
  | .busGroup _ _ => false
  | .busByte _ => false
  | .waitUntil _ => false
  | .park => false
  | .frame _ => false
  | .contrast _ => false
  | .restore => false
  | .inject => false
  | .monoFrame => false
  | .directCmd _ => false
  | .monoContrast => false
  | .modeGray => false

/-- What a turn comes to. -/
inductive Fetched where
  /-- the agent goes on with its operation in progress -/
  | goOn (a : Agent) (s : State)
  /-- the agent begins an operation -/
  | begin (i : Instr) (s : State)
  /-- the agent has nothing to do -/
  | rest (s : State)
  | fault (f : Fault)
  | refuse (r : Refusal)
  deriving DecidableEq, Repr

/-- The ENGINE's turn: a THREAD_STATE above 3 gives it no step (U3); else it goes on with its operation in progress, or
begins the operation SEQ encodes. A SEQ that is no position gives it no step where it would begin one (U3); that SEQ is
looked at only there, and not while an operation is in progress, is a DESIGN CHOICE (log 30). -/
def fetchEngine (s : State) : Fetched :=
  if legalThreadState s.threadState then
    match s.engWork with
    | _ :: _ => .goOn .engine s
    | [] =>
      match decode [s.seqByte] with
      | .ok (i, _) => .begin i s
      | .error e => .fault (.illegalSequencer e)
  else .fault (.illegalThreadState s.threadState)

/-- The HOST's turn: it goes on, or begins the next call of its program (D31: one at a time). -/
def fetchHost (s : State) : Fetched :=
  match s.hostWork with
  | _ :: _ => .goOn .host s
  | [] =>
    match s.hostProg with
    | [] => .rest s
    | i :: rest => if isHostCall i then .begin i { s with hostProg := rest } else .refuse (.notAHostOperation i)

/-- The state in which the turn's agent acts. -/
def State.inTurn (s : State) : State := s.takeTurn.beginTurn s.nextTurn

/-- One turn up to the operation it performs. -/
def fetch (s : State) : Fetched :=
  if paramsOk s.cfg then
    match s.nextTurn.agent with
    | .engine => fetchEngine s.inTurn
    | .host => fetchHost s.inTurn
  else .refuse .badParameters

/-! ### Placing one operation for the next turn (log 5) -/

/-- A turn in which every poll succeeds, with a budget that covers any operation of the default parameters. -/
def readyTurn (a : Agent) : Turn where
  agent := a
  budget := 8192
  ticks := 0
  tnf := true
  bsy := false
  rx := []
  age := 0

/-- SEQ <- code, the ENGINE at rest there, its turn next. -/
def State.placeSeq (s : State) (code : Nat) : State :=
  { s with
    fn := BitVec.ofNat 2 (seqFn code)
    stepCode := BitVec.ofNat 4 (seqStep code)
    engWork := []
    inputs := readyTurn .engine :: s.inputs }

/-- The HOST at rest with this call next. -/
def State.placeCall (s : State) (i : Instr) : State :=
  { s with hostProg := i :: s.hostProg, hostWork := [], inputs := readyTurn .host :: s.inputs }

/-- These actions as what an agent goes on with, its turn next. -/
def State.placeWork (s : State) (a : Agent) (ts : List Task) : State :=
  { s.setWork a ts with inputs := readyTurn a :: s.inputs }

/-- A position of the sequencer is placed as SEQ, a call of the HOST as its next call. A sub-operation or a bus group
stands in no program, for another operation uses it (R62, R63): it is placed as the work in progress of the agent that
performs it. -/
def State.placeInstr (s : State) (i : Instr) : State :=
  match i with
  | .svcPublish => s.placeWork .engine svcPublishTasks
  | .svcContrast => s.placeWork .engine svcContrastTasks
  | .svcCommand => s.placeWork .engine svcCommandTasks
  | .sfgPass => s.placeWork .engine [.pass]
  | .sfgWord wi mask => s.placeWork .engine (sfgWordTasks wi mask)
  | .busGroup dc bs => s.placeWork s.busOwner (busGroupTasks dc bs)
  | .busByte b => s.placeWork s.busOwner (busByteTasks b)
  | .waitUntil d => s.placeWork .engine (waitUntilTasks d)
  | .park => s.placeWork .engine [.emit .park]
  | .frame fn => s.placeWork .engine [.emit (.frame fn)]
  | .contrast fn => s.placeWork .engine [.emit (.contrast fn)]
  | .restore => s.placeWork .engine [.emit .restore]
  | .inject => s.placeWork .engine [.emit .inject]
  | .monoFrame => s.placeWork .host [.emit .monoFrame]
  | .directCmd c => s.placeWork .host [.emit (.directCmd c)]
  | .monoContrast => s.placeWork .host [.emit .monoContrast]
  | .modeGray => s.placeWork .host [.emit .modeGray]
  | .modeMono => s.placeCall .modeMono
  | .init => s.placeCall .init
  | .enable => s.placeCall .enable
  | .disable => s.placeCall .disable
  | .isActive => s.placeCall .isActive
  | .showSync => s.placeCall .showSync
  | .showAsync => s.placeCall .showAsync
  | .sendCmd c => s.placeCall (.sendCmd c)
  | .brightness v => s.placeCall (.brightness v)
  | .invert v => s.placeCall (.invert v)
  | .draw ws => s.placeCall (.draw ws)
  | .engIdle => s.placeSeq (opcode .engIdle)
  | .engStart => s.placeSeq (opcode .engStart)
  | .engCheck => s.placeSeq (opcode .engCheck)
  | .s1 fn => s.placeSeq (opcode (.s1 fn))
  | .s2 fn => s.placeSeq (opcode (.s2 fn))
  | .s3 fn => s.placeSeq (opcode (.s3 fn))
  | .s4 fn => s.placeSeq (opcode (.s4 fn))
  | .s5 fn => s.placeSeq (opcode (.s5 fn))
  | .s6 fn => s.placeSeq (opcode (.s6 fn))
  | .s7 fn => s.placeSeq (opcode (.s7 fn))
  | .s8 fn => s.placeSeq (opcode (.s8 fn))
  | .s9 fn => s.placeSeq (opcode (.s9 fn))
  | .s10 fn => s.placeSeq (opcode (.s10 fn))
  | .engExit => s.placeSeq (opcode .engExit)

/-- ENG.START stands only in Starting (R101) and ENG.EXIT only in Stopping (R113). -/
def State.placeThreadState (s : State) (i : Instr) : State :=
  match i with
  | .engStart => { s with threadState := starting }
  | .engExit => { s with threadState := stopping }
  | _ => s

/-- The operation of a table word placed where the next turn fetches it; a word that is no operation is placed as
SEQ, so that the step rejects it by name. -/
def State.placeWord (s : State) (nbits w : Nat) : State :=
  match decodeTableWord nbits w with
  | some i => (s.placeThreadState i).placeInstr i
  | none => s.placeSeq (w % 64)

end Sys2Proof.Machine
end

