-- ==== Sys2Proof/Machine/Step.lean ====
section
/-! DEFINITION. One step: one turn of one agent. -/

namespace Sys2Proof.Machine

def step (s : State) : Host.Outcome State Fault Refusal :=
  match fetch s with
  | .goOn a s' => resume a s'
  | .begin i s' => exec i s'
  | .rest s' => .next s'
  | .fault f => .fault f
  | .refuse r => .refused r

/-- s with the operation of a table word where step fetches its next operation (log 5). -/
def State.withFetchWord (s : State) (nbits w : Nat) : State := s.placeWord nbits w

end Sys2Proof.Machine
end

