-- ==== Sys2Proof/Safety.lean ====
section
/-! DEFINITION. The terms claims are stated in: a ready transmitter, the legal states of the two agents together, the
invariants of R38 and R89, and the bus trace grammar of R78. -/

namespace Sys2Proof.Machine

/-! ### Stops -/

/-- The outcome is a next state. -/
def goesOn (o : Host.Outcome State Fault Refusal) : Prop := ∃ t, o = .next t

/-! ### The transmitter -/

/-- The polls of TNF and BSY succeed in this turn (R32). -/
def State.busReady (s : State) : Prop := s.tnf = true ∧ s.bsy = false

/-- Actions enough for one transfer group of n bytes, the draining of what has been received, and the action that
ends its step. -/
def State.groupBudget (s : State) (n : Nat) : Nat := 3 * n + s.rxq.length + 6

/-- Actions enough for one SFG.PASS and three more. -/
def passBudget (p : Config.Params) : Nat := 4 * p.planeWords + 5

/-- BI after a group of n bytes (R96). -/
def lastIndex (n : Nat) (before : Nat) : Nat := if n = 0 then before else n - 1

/-- The state after a whole transfer group (R96): DC driven, the bytes on the trace, the receiver emptied. -/
def State.sent (s : State) (dc : Bool) (bs : List Byte) : State :=
  { s with dc := dc, bi := lastIndex bs.length s.bi, trace := s.trace ++ traceOf dc bs, rxq := [] }

/-! ### The transform, byte by byte (R86) -/

/-- m of R86. -/
def maskByte (inv : Word) : Byte := if inv = 0#32 then 0#8 else 0xFF#8

/-- SF0, SF1 and SF2 of `t` are the transform of the planes `ma`, `mb` under the INVERT word `inv`, on every byte
of a buffer (R23, R86). -/
def consistentWith (t : State) (ma mb : Memory) (inv : Word) : Prop :=
  ∀ i, i < t.cfg.planeBytes →
    t.byteAt (.sf 0) i = (Memory.read ma i ^^^ maskByte inv) ||| Memory.read mb i ∧
    t.byteAt (.sf 1) i = Memory.read ma i ^^^ maskByte inv ∧
    t.byteAt (.sf 2) i = (Memory.read ma i ^^^ maskByte inv) &&& ((Memory.read ma i ^^^ maskByte inv) ^^^ Memory.read mb i)

/-- R89: SF2 is a subset of SF1 and SF1 a subset of SF0, bit for bit. -/
def State.nested (s : State) : Prop :=
  ∀ i, s.byteAt (.sf 2) i &&& ~~~ s.byteAt (.sf 1) i = 0#8 ∧ s.byteAt (.sf 1) i &&& ~~~ s.byteAt (.sf 0) i = 0#8

/-! ### Memory -/

/-- Every region in canonical form and inside its size (R41). -/
def State.memoryOk (s : State) : Prop :=
  ∀ r, Memory.wf (s.region r) = true ∧ Memory.below (regionSize s.cfg r) (s.region r) = true

/-- The value the last of the writes to a byte gives it, if any writes it. -/
def lastWrite (p : Plane) (off : Nat) : List PlaneWrite → Option Byte
  | [] => none
  | w :: ws =>
    match lastWrite p off ws with
    | some v => some v
    | none => if w.plane = p ∧ w.off = off then some w.val else none

/-! ### The two agents together -/

/-- Actions of a transfer group in progress. -/
def isBusTask : Task → Bool
  | .drive _ => true
  | .bytes _ _ => true
  | .send _ => true
  | .drain => true
  | .idle => true
  | _ => false

/-- Actions of a pass in progress (R88). -/
def isPassTask : Task → Bool
  | .pass => true
  | .words _ => true
  | .loadV1 _ _ => true
  | .loadV2 _ => true
  | .storeSf _ => true
  | _ => false

/-- Actions of SERVICE besides a pass and a group (R130 to R133). -/
def isServiceTask : Task → Bool
  | .pollPublish => true
  | .pollContrast => true
  | .pollCommand => true
  | .pollContrastElseCommand => true
  | .adopt _ => true
  | .emit .inject => true
  | .flagWrite .copyPending v => v == 0#32
  | .flagWrite .contrastPending v => v == 0#32
  | .flagWrite .pendingCmd v => v == 0#32
  | _ => false

/-- The cycle boundary: (FN, STEP) = (2, S9) (R9, R111). -/
def atBoundary (fn : BitVec 2) (st : BitVec 4) : Bool := fn == 2#2 && st == posCode .s9

/-- The positions that send a transfer group: S2, S3, S4, S7, S8 and the boundary (R62). -/
def busPlace (fn : BitVec 2) (st : BitVec 4) : Bool :=
  st == posCode .s2 || st == posCode .s3 || st == posCode .s4 || st == posCode .s7 || st == posCode .s8 || atBoundary fn st

/-- The positions that run a pass: the boundary and ENG.START (R92). -/
def passPlace (fn : BitVec 2) (st : BitVec 4) : Bool := atBoundary fn st || st == posCode .start

/-- Which actions may stand in the ENGINE's work at the position (FN, STEP), but for the last. -/
def bodyTask (fn : BitVec 2) (st : BitVec 4) (t : Task) : Bool :=
  (isBusTask t && busPlace fn st) || (isPassTask t && passPlace fn st) || (isServiceTask t && atBoundary fn st) ||
    (match t with
     | .emit .park => st == posCode .s2
     | .emit (.frame k) => st == posCode .s3 && fnBits k == fn
     | .emit (.contrast k) => (st == posCode .s4 || st == posCode .s8) && fnBits k == fn
     | .emit .restore => st == posCode .s7
     | .setDeadline _ => st == posCode .s1 || st == posCode .s6
     | .await _ => st == posCode .s5 || st == posCode .s10
     | .setFn k => st == posCode .start && k == 0
     | _ => false)

/-- The action that ends the operation at the position (FN, STEP). -/
def lastTask (fn : BitVec 2) (st : BitVec 4) (t : Task) : Bool :=
  match t with
  | .goto .s2 => st == posCode .s1
  | .goto .s3 => st == posCode .s2
  | .goto .s4 => st == posCode .s3
  | .goto .s5 => st == posCode .s4
  | .goto .s6 => st == posCode .s5
  | .goto .s7 => st == posCode .s6
  | .goto .s8 => st == posCode .s7
  | .goto .s9 => st == posCode .s8
  | .goto .s10 => st == posCode .s9
  | .nextSubframe k => st == posCode .s10 && fnBits k == fn
  | .testRun => st == posCode .check
  | .announce v .check => st == posCode .start && v == running
  | .announce v .idle => st == posCode .exit && v == stopped
  | _ => false

/-- The work is what is left of an operation: body actions, then the last one. -/
def workFits (body last : Task → Bool) : List Task → Bool
  | [] => true
  | [t] => last t
  | t :: ts => body t && workFits body last ts

/-- The ENGINE's work belongs to the position it stands at. -/
def State.engineFits (s : State) : Bool := workFits (bodyTask s.fn s.stepCode) (lastTask s.fn s.stepCode) s.engWork

/-- The engine is idle (R100). -/
def State.engineIdle (s : State) : Bool := s.fn == 0#2 && s.stepCode == posCode .idle && s.engWork == []

/-- The engine is at ENG.START (R101). -/
def State.atStart (s : State) : Bool := s.fn == 0#2 && s.stepCode == posCode .start

/-- The engine is at ENG.CHECK with FN = 0, or at one of S1 to S10 with FN 0, 1 or 2 (R62, R114). -/
def State.inLoop (s : State) : Bool :=
  (s.fn == 0#2 && s.stepCode == posCode .check) ||
    (s.fn != 3#2 && decide (1 ≤ s.stepCode.toNat) && decide (s.stepCode.toNat ≤ 10))

/-- The engine is at ENG.EXIT (R113). -/
def State.atExit (s : State) : Bool := s.fn == 0#2 && s.stepCode == posCode .exit

/-- What the HOST may still have to do while the engine is Running: no bus, no WCON, no THREAD_STATE. -/
def activeTask : Task → Bool
  | .ret _ => true
  | .drawByte _ => true
  | .derive _ => true
  | .setBright b => decide (b ≤ Config.brightMax)
  | .fillPcmd _ _ => true
  | .flagWrite .copyPending v => v == 1#32
  | .flagWrite .invert v => v == 0#32 || v == 1#32
  | .spin _ _ => true
  | _ => false

/-- The wait that follows the setting of a request flag by a blocking operation (R129). -/
def requestWait (f : Flag) : List Task := [.spin f 0#32, .ret .done]

/-- The HOST's work while the engine is Running: SENDCMD and BRIGHTNESS set their flag last and then wait. -/
def activeWork : List Task → Bool
  | [] => true
  | .flagWrite .pendingCmd v :: ts => v == 1#32 && ts == requestWait .pendingCmd
  | .flagWrite .contrastPending v :: ts => v == 1#32 && ts == requestWait .contrastPending
  | t :: ts => activeTask t && activeWork ts

/-- What the HOST may still have to do while the engine is Stopped: no request flag, no THREAD_STATE. -/
def directTask : Task → Bool
  | .ret _ => true
  | .drawByte _ => true
  | .derive _ => true
  | .adopt _ => true
  | .setBright b => decide (b ≤ Config.brightMax)
  | .emit _ => true
  | .drive _ => true
  | .bytes _ _ => true
  | .send _ => true
  | .drain => true
  | .idle => true
  | .flagWrite .invert v => v == 0#32 || v == 1#32
  | .spin .threadState _ => true
  | _ => false

/-- What is left of ENABLE once it has launched the engine. -/
def enableWait : List Task := [.spin .threadState running, .ret .done]

/-- ENABLE between its write of Starting and the launch (R163: the HOST still owns the bus). -/
def launching (w : List Task) : Bool :=
  w.dropWhile (fun t => isBusTask t || t == .emit .modeGray) == .launch :: enableWait

/-- DISABLE between its write of Stopping and its reading Stopped. -/
def disableWait : List Task := disableTasks.drop 1

/-- R160 to R163: for each value of THREAD_STATE, where the engine stands and what the HOST is in the middle of. -/
def State.phaseOk (s : State) : Bool :=
  if s.threadState = stopped then s.engineIdle && (s.hostWork == enableTasks || s.hostWork.all directTask)
  else if s.threadState = starting then
    (s.engineIdle && launching s.hostWork) || (s.atStart && s.hostWork == enableWait)
  else if s.threadState = running then s.inLoop && (s.hostWork == disableTasks || activeWork s.hostWork)
  else if s.threadState = stopping then (s.inLoop || s.atExit) && s.hostWork == disableWait
  else false

/-- R54, R205: a command or contrast request stands only while its blocking requester waits for it. -/
def State.requestsOk (s : State) : Bool :=
  (s.pendingCmd == 0#32 || s.hostWork == requestWait .pendingCmd) &&
    (s.contrastPending == 0#32 || s.hostWork == requestWait .contrastPending)

/-- R38 (a), (b), (f) and R162 made into one condition on a state: the agents are where the protocol lets them be,
together. -/
def State.coupled (s : State) : Prop := s.engineFits = true ∧ s.phaseOk = true ∧ s.requestsOk = true

/-- Registers within their ranges: BRIGHT 0 to 127 (R24), flags 0 or 1 (R12), TICK and DL of TICK_BITS bits
(R27, R33). -/
def State.rangesOk (s : State) : Prop :=
  s.bright ≤ Config.brightMax ∧
  (∀ f, f ≠ Flag.threadState → s.flag f = 0#32 ∨ s.flag f = 1#32) ∧
  s.tick < 2 ^ s.cfg.tickBits ∧ s.dl < 2 ^ s.cfg.tickBits

/-! ### Operands in range -/

/-- The operand of an action names a byte that exists (R41). -/
def taskInRange (p : Config.Params) : Task → Bool
  | .drawByte w => decide (w.off < p.planeBytes)
  | .fillPcmd k bs => decide (k + bs.length ≤ p.pcmdLen)
  | .loadV1 wi _ => decide (wi < p.planeWords)
  | .loadV2 wi => decide (wi < p.planeWords)
  | .storeSf wi => decide (wi < p.planeWords)
  | _ => true

/-- A call of the HOST after start-up: one of R61, and a DRAW only of bytes the planes have (R49). -/
def ordinaryCall (p : Config.Params) (i : Instr) : Bool :=
  isHostCall i &&
    (match i with
     | .init => false
     | .modeMono => false
     | .draw ws => ws.all (fun w => decide (w.off < p.planeBytes))
     | _ => true)

/-- Every operand in use or to come is in range. -/
def State.inRange (s : State) : Bool :=
  s.engWork.all (taskInRange s.cfg) && s.hostWork.all (taskInRange s.cfg) && s.hostProg.all (ordinaryCall s.cfg)

/-- The conditions under which the block runs: the agents coupled by the protocol, registers in their ranges, the
HOST's calls ordinary. -/
def State.safe (s : State) : Prop := s.coupled ∧ s.rangesOk ∧ s.inRange = true

/-- R36 with the rows it leaves unspecified (U11) as `u` holds them: the state after reset of a machine built with
parameters `p`, for every such contents. -/
def State.resetFrom (p : Config.Params) (u : State) : State :=
  { State.resetWith p with
    planeA := u.planeA, planeB := u.planeB, sf0 := u.sf0, sf1 := u.sf1, sf2 := u.sf2, pcmd := u.pcmd, dl := u.dl
    wi := u.wi, mask := u.mask, v1 := u.v1, v2 := u.v2, bi := u.bi, dc := u.dc, tick := u.tick, tnf := u.tnf
    bsy := u.bsy, rxq := u.rxq, result := u.result }

/-- The plane as a pass that begins now sees it, after its read of INVERT (R88). -/
def State.seen (s : State) (p : Plane) : Memory := (s.acquire .invert).planeView p

/-! ### The bus trace of the running engine (R78) -/

/-- What one iteration with subframe index k puts on the trace. -/
def iterationTrace (s : State) (k : Fin 3) : List BusEntry :=
  traceOf false (parkBytes s.cfg) ++ traceOf true (groupBytes s (.frame k)) ++ traceOf false (groupBytes s (.contrast k))
    ++ traceOf false (restoreBytes s.cfg) ++ traceOf false (groupBytes s (.contrast k))

/-- An outer cycle with no command pending: three iterations with k = 0, 1, 2. -/
def outerCycle (s : State) : List BusEntry := iterationTrace s 0 ++ iterationTrace s 1 ++ iterationTrace s 2

/-- A turn of the engine in which every poll succeeds. -/
def engineTurn (budget ticks : Nat) : Turn where
  agent := .engine
  budget := budget
  ticks := ticks
  tnf := true
  bsy := false
  rx := []
  age := 0

/-- The turns of one iteration S1 to S10: the TIMER reaches each deadline in the turn that waits for it. -/
def iterationTurns (p : Config.Params) (n : Nat) : List Turn :=
  [engineTurn n 0, engineTurn n 0, engineTurn n 0, engineTurn n 0, engineTurn n p.tPre,
   engineTurn n 0, engineTurn n 0, engineTurn n 0, engineTurn n 0, engineTurn n p.tPost]

/-- The turns of one outer cycle: ENG.CHECK and three iterations. -/
def cycleTurns (p : Config.Params) (n : Nat) : List Turn :=
  engineTurn n 0 :: (iterationTurns p n ++ iterationTurns p n ++ iterationTurns p n)

/-- Whether S9 with FN = 2 serves the command channel (R130): PENDING_CMD set, and under CONTRAST_OR_COMMAND no
contrast update pending. -/
def State.commandServed (s : State) : Prop :=
  s.pendingCmd ≠ 0#32 ∧ ¬ (s.cfg.policy = .contrastOrCommand ∧ s.contrastPending ≠ 0#32)

/-! ### Scripts of turns -/

/-- The turns of a request made just before the boundary: the HOST calls, the ENGINE serves, the HOST returns. The
transmitter is ready in the ENGINE's turn; the budgets cover the three operations. -/
def servedTurns (p : Config.Params) (h e r : Turn) : Prop :=
  h.agent = .host ∧ p.pcmdLen + 8 ≤ h.budget ∧
  e.agent = .engine ∧ e.tnf = true ∧ e.bsy = false ∧
  passBudget p + 3 * p.pcmdLen + h.rx.length + e.rx.length + 24 ≤ e.budget ∧
  r.agent = .host ∧ 2 ≤ r.budget

/-- The turns of ENABLE and DISABLE one right after the other: ENABLE launches, the ENGINE starts, ENABLE returns,
DISABLE writes Stopping, the ENGINE checks and exits, DISABLE finishes. Every budget is n and every poll succeeds. -/
def enableDisableTurns (n : Nat) : List Turn :=
  [{ engineTurn n 0 with agent := .host }, engineTurn n 0, { engineTurn n 0 with agent := .host },
   { engineTurn n 0 with agent := .host }, engineTurn n 0, engineTurn n 0, { engineTurn n 0 with agent := .host }]

/-! ### The panel's side, as far as the trace tells (R58, R206, R212) -/

/-- Where the PANEL's GDRAM write position stands under the launch premise of R196 (a window of PLANE_BYTES bytes
that wraps): the data bytes sent so far, modulo PLANE_BYTES. -/
def gdramPosition (p : Config.Params) (tr : List BusEntry) : Nat := (tr.filter (fun e => e.1)).length % p.planeBytes

/-- The data bytes that stand in an agent's work, given the DC level its first group goes out with: those of the
group in progress and of groups still to begin. A FRAME or a MONOFRAME still to begin counts PLANE_BYTES. -/
def pendingData (p : Config.Params) : Bool → List Task → Nat
  | _, [] => 0
  | _, .drive d :: ts => pendingData p d ts
  | dc, .bytes _ bs :: ts => (if dc then bs.length else 0) + pendingData p dc ts
  | dc, .send _ :: ts => (if dc then 1 else 0) + pendingData p dc ts
  | _, .emit g :: ts => (if groupDc g then p.planeBytes else 0) + pendingData p (groupDc g) ts
  | dc, _ :: ts => pendingData p dc ts

/-- The group in progress comes first: no part of one stands behind another action. -/
def groupFirst (w : List Task) : Bool := (w.dropWhile isBusTask).all (fun t => !isBusTask t)

/-- R206: with what is in progress completed, the GDRAM write position is back at the start of its window. -/
def State.framesWhole (s : State) : Prop :=
  groupFirst s.hostWork = true ∧ groupFirst s.engWork = true ∧
  ((s.trace.filter (fun e => e.1)).length + pendingData s.cfg s.dc s.hostWork + pendingData s.cfg s.dc s.engWork)
    % s.cfg.planeBytes = 0

/-- R212: S2 to S4 fit in the pre-frame interval. -/
def busFastEnough (p : Config.Params) : Prop := 8 * (p.planeBytes + 6) * p.tickHz < p.busHz * p.tPre

/-! ### Received bytes (R98) -/

/-- Two states that differ in the values of the received bytes only. -/
def sameButReceived (s u : State) : Prop := u = { s with rxq := u.rxq } ∧ u.rxq.length = s.rxq.length

/-- Two outcomes of such states. -/
def outcomesButReceived (o q : Host.Outcome State Fault Refusal) : Prop :=
  match o, q with
  | .next s, .next u => sameButReceived s u
  | .fault f, .fault g => f = g
  | .refused r, .refused x => r = x
  | _, _ => False

end Sys2Proof.Machine
end

