-- ==== Sys2Proof/Certificates/Slice0/Obligations.lean ====
section
/-! DEFINITION. The statements for the provers. Each docstring says which rule it formalises, and where it rests on
a choice of the spec's own or of the model's. A statement about an operation is made of a state in which its agent
is at rest, for every parameter set, with a budget of actions that covers the whole operation (log 4); which
lines of a rule are one action of it is log 4, log 9 and log 28. Whatever a statement names of `races` is the model's
record of log 8, of `result` that of log 19, and `budget`, `tnf`, `bsy` and `rxq` are what a turn brings (log 4, log
20). The premises `paramsOk` or PLANE_BYTES a multiple of 4 are R214's, `memoryOk` is R41's, and `busReady` says that the
transmitter answers TNF = 1 and BSY = 0 in the turn. -/

open Sys2Proof Sys2Proof.Machine

/-! ### Encoding -/

/-- R62 for the positions of the sequencer; for the other operations the byte code is the model's own (log 6):
decoding an encoded well-formed operation gives it back, with every operand, whatever follows. -/
def Obligations.DecodeEncode : Prop :=
  ∀ (p : Config.Params) (i : Instr) (rest : List Byte), i.wf p = true → decode (encode i ++ rest) = .ok (i, rest)

/-- The other direction (log 6): the bytes an operation is decoded from are its encoding, so that no two byte strings
stand for one operation. -/
def Obligations.EncodeDecode : Prop :=
  ∀ (bs rest : List Byte) (i : Instr), decode bs = .ok (i, rest) → encode i ++ rest = bs

/-- R62: SEQ[5:0] = {FN[1:0], STEP[3:0]} with the STEP codes of its table, the codes being the spec's own (D26). -/
def Obligations.SequencerWords : Prop :=
  decode [0x00#8] = .ok (.engIdle, []) ∧ decode [0x0C#8] = .ok (.engStart, []) ∧
  decode [0x0B#8] = .ok (.engCheck, []) ∧ decode [0x0D#8] = .ok (.engExit, []) ∧
  ∀ fn : Fin 3,
    decode [BitVec.ofNat 8 (16 * fn.val + 1)] = .ok (.s1 fn, []) ∧
    decode [BitVec.ofNat 8 (16 * fn.val + 2)] = .ok (.s2 fn, []) ∧
    decode [BitVec.ofNat 8 (16 * fn.val + 3)] = .ok (.s3 fn, []) ∧
    decode [BitVec.ofNat 8 (16 * fn.val + 4)] = .ok (.s4 fn, []) ∧
    decode [BitVec.ofNat 8 (16 * fn.val + 5)] = .ok (.s5 fn, []) ∧
    decode [BitVec.ofNat 8 (16 * fn.val + 6)] = .ok (.s6 fn, []) ∧
    decode [BitVec.ofNat 8 (16 * fn.val + 7)] = .ok (.s7 fn, []) ∧
    decode [BitVec.ofNat 8 (16 * fn.val + 8)] = .ok (.s8 fn, []) ∧
    decode [BitVec.ofNat 8 (16 * fn.val + 9)] = .ok (.s9 fn, []) ∧
    decode [BitVec.ofNat 8 (16 * fn.val + 10)] = .ok (.s10 fn, [])

/-- R13, R74, U3: an engine turn that finds THREAD_STATE above 3, or is to begin an operation (log 30) and finds SEQ at
a code R62 leaves unused, stops with the fault named for it. That FN other than 0 at IDLE, CHECK, START and EXIT is such
a code is DEDUCED (log 7). That every engine turn faults where THREAD_STATE is above 3 is DEDUCED (log 11). -/
def Obligations.ReservedStatesFault : Prop :=
  ∀ s : State, paramsOk s.cfg = true → s.nextTurn.agent = .engine →
    (3 < s.threadState.toNat → step s = .fault (.illegalThreadState s.threadState)) ∧
    (s.threadState.toNat ≤ 3 → s.engWork = [] →
      (14 ≤ s.stepCode.toNat → ∃ e, step s = .fault (.illegalSequencer e)) ∧
      (s.fn = 3#2 → ∃ e, step s = .fault (.illegalSequencer e)) ∧
      (s.fn ≠ 0#2 → (s.stepCode = 0#4 ∨ 11 ≤ s.stepCode.toNat) → ∃ e, step s = .fault (.illegalSequencer e)))

/-! ### Steps (one step is one turn of one agent: log 4) -/

/-- R2, R26: when the ENGINE is at rest and the code of (FN, STEP) decodes to an operation, its turn is `exec` of that
operation; with an operation in progress its turn goes on with it. What the turn brings besides is in `inTurn`: TICK,
the status bits, the bytes received, the budget, the input used up. Where U3 gives an illegal SEQ no engine step, that a
turn with an operation in progress goes on with it, whatever SEQ holds, is the model's choice (log 30), and so is what a
turn brings (log 4, log 20, log 25). -/
def Obligations.EngineTurn : Prop :=
  ∀ s : State, paramsOk s.cfg = true → s.nextTurn.agent = .engine → s.threadState.toNat ≤ 3 →
    (∀ i rest, s.engWork = [] → decode [s.seqByte] = .ok (i, rest) → step s = exec i s.inTurn) ∧
    (s.engWork ≠ [] → step s = go .engine s.nextTurn.budget s.inTurn) ∧
    (∀ t ts, s.inputs = t :: ts →
      s.inTurn = { s with
        inputs := ts, tick := (s.tick + t.ticks) % 2 ^ s.cfg.tickBits, tnf := t.tnf, bsy := t.bsy
        rxq := s.rxq ++ t.rx, budget := t.budget, age := t.age })

/-- R61, R162: when the HOST is at rest and its next call is an operation of its own, its turn is `exec` of that call;
with one in progress its turn goes on with it, one at a time; with no call to come nothing happens. Which operations are
the HOST's own (`isHostCall`: the nine of R61, and INIT and MODE_MONO, which it sends at start-up) and that a call of
any other is refused with notAHostOperation are the model's choice (log 15). So are the list of calls `hostProg` (log
5), the cut into turns (log 4), and that a turn with a call in progress goes on with it (log 13). -/
def Obligations.HostTurn : Prop :=
  ∀ s : State, paramsOk s.cfg = true → s.nextTurn.agent = .host →
    (∀ i rest, s.hostWork = [] → s.hostProg = i :: rest → isHostCall i = true →
      step s = exec i { s.inTurn with hostProg := rest }) ∧
    (∀ i rest, s.hostWork = [] → s.hostProg = i :: rest → isHostCall i = false →
      step s = .refused (.notAHostOperation i)) ∧
    (s.hostWork ≠ [] → step s = go .host s.nextTurn.budget s.inTurn) ∧
    (s.hostWork = [] → s.hostProg = [] → step s = .next s.inTurn)

/-- R214 (derived by the spec from R118 and R45, which rest on D14 and D2): a step is refused for its parameters exactly
when they break one of the constraints. That it is a step that refuses, whatever its turn, is the model's choice (log
10). -/
def Obligations.ParameterRefusal : Prop :=
  ∀ s : State, step s = .refused .badParameters ↔
    ¬ (s.cfg.planeBytes % 4 = 0 ∧ 1 ≤ s.cfg.pcmdLen ∧
      0 < s.cfg.tPre ∧ s.cfg.tPre < 2 ^ (s.cfg.tickBits - 1) ∧
      0 < s.cfg.tPost ∧ s.cfg.tPost < 2 ^ (s.cfg.tickBits - 1))

/-! ### Bus primitives and the wait -/

/-- R95 (the place of the drain is the spec's own choice, D23): once TNF = 1 the byte is appended with DC as driven and
the receiver is emptied; while TNF = 0 nothing is appended and the operation waits. That it is executed on its own, by
the owner of the port, is the model's choice (log 15; log 29 for who that is), and so is how it waits (log 20). -/
def Obligations.BusByte : Prop :=
  ∀ (b : Byte) (s : State), s.work s.busOwner = [] →
    (s.tnf = true → s.rxq.length + 2 ≤ s.budget →
      exec (.busByte b) s = .next { s with trace := s.trace ++ [(s.dc, b)], rxq := [] }) ∧
    (s.tnf = false → exec (.busByte b) s = .next (s.setWork s.busOwner [.send b, .drain]))

/-- R96 (D23, D24): DC driven, the bytes appended in ascending order, complete only once BSY = 0, the receiver emptied;
an empty group only drives DC. While BSY = 1 the bytes are out and the operation waits; while TNF = 0 it waits with its
first byte. The value BI is left with after a group is the model's choice (log 26). So are its being executed on its
own, by the owner of the port (log 15; log 29 for who that is), and how it waits (log 20). -/
def Obligations.BusGroup : Prop :=
  ∀ (dc : Bool) (bs : List Byte) (s : State), s.work s.busOwner = [] →
    ((s.tnf = true ∨ bs = []) → s.groupBudget bs.length ≤ s.budget →
      (s.bsy = false →
        exec (.busGroup dc bs) s = .next { s with
          dc := dc
          bi := if bs.length = 0 then s.bi else bs.length - 1
          trace := s.trace ++ bs.map (fun b => (dc, b))
          rxq := [] }) ∧
      (s.bsy = true →
        exec (.busGroup dc bs) s = .next ({ s with
          dc := dc
          bi := if bs.length = 0 then s.bi else bs.length - 1
          trace := s.trace ++ bs.map (fun b => (dc, b))
          rxq := if bs.length = 0 then s.rxq else [] }.setWork s.busOwner [.idle, .drain]))) ∧
    (s.tnf = false → ∀ b rest, bs = b :: rest → 2 ≤ s.budget →
      exec (.busGroup dc bs) s = .next ({ s with dc := dc, bi := 0 }.setWork s.busOwner
        [.send b, .drain, .bytes 1 rest, .idle, .drain]))

/-- R173, R174, U8: a spin has no exit of its own. Whatever its budget, a turn whose awaited condition does not hold
changes nothing but what the turn itself brings: TNF and BSY for either agent (the HOST's polls on the direct path,
while it owns the bus port, are those of R95 and R96 too), the tick counter for the ENGINE, a flag for the HOST. That a
failed poll ends the turn with the work unchanged, and that TNF, BSY and TICK are what the turn brings, are the model's
choice (log 4, log 20, log 25); who owns the port is log 29. The tick comparison is the spec's own choice (D14). -/
def Obligations.SpinsHaveNoExit : Prop :=
  ∀ (s : State) (ts : List Task), paramsOk s.cfg = true → s.threadState.toNat ≤ 3 →
    (∀ b, s.nextTurn.agent = .engine → s.engWork = .send b :: ts → s.nextTurn.tnf = false → step s = .next s.inTurn) ∧
    (s.nextTurn.agent = .engine → s.engWork = .idle :: ts → s.nextTurn.bsy = true → step s = .next s.inTurn) ∧
    (∀ b, s.nextTurn.agent = .host → s.hostWork = .send b :: ts → s.busOwner = .host → s.nextTurn.tnf = false →
      step s = .next s.inTurn) ∧
    (s.nextTurn.agent = .host → s.hostWork = .idle :: ts → s.nextTurn.bsy = true → step s = .next s.inTurn) ∧
    (∀ d, s.nextTurn.agent = .engine → s.engWork = .await d :: ts →
      tickDiff s.cfg ((s.tick + s.nextTurn.ticks) % 2 ^ s.cfg.tickBits) d < 0 → step s = .next s.inTurn) ∧
    (∀ f v, s.nextTurn.agent = .host → s.hostWork = .spin f v :: ts → s.flag f ≠ v → step s = .next s.inTurn)

/-- R99 (D14): the wait ends when the wrapped signed difference of TICK and the deadline is not negative, and until then
the operation waits. That it is executed on its own is the model's choice (log 15), and so is how it waits (log 20). -/
def Obligations.WaitUntil : Prop :=
  ∀ (d : Nat) (s : State), s.engWork = [] → 1 ≤ s.budget →
    (0 ≤ Int.bmod ((s.tick : Int) - (d : Int)) (2 ^ s.cfg.tickBits) → exec (.waitUntil d) s = .next s) ∧
    (Int.bmod ((s.tick : Int) - (d : Int)) (2 ^ s.cfg.tickBits) < 0 →
      exec (.waitUntil d) s = .next { s with engWork := [.await d] })

/-- R99, R118: a wrap of the counter does no harm. With TICK_BITS at least 1, a deadline set n ticks ahead, n below
2^(TICK_BITS - 1), has passed e ticks later exactly when e is at least n, for every e below n + 2^(TICK_BITS - 1); at
that bound the wrapped difference turns negative again (log 25). The comparison, and that equality ends the wait, are the
spec's own choice (D14, the sentence of R99). -/
def Obligations.DeadlineWrapSafe : Prop :=
  ∀ (p : Config.Params) (now n e : Nat), 0 < p.tickBits → n < 2 ^ (p.tickBits - 1) → e < n + 2 ^ (p.tickBits - 1) →
    deadlinePassed p (tickAdd p now e) (tickAdd p now n) = decide (n ≤ e)

/-! ### The ten steps, the loop's start, check and end -/

/-- R103, R108: DL from a fresh read of TICK, modulo 2^TICK_BITS, and the next position; nothing else changes. -/
def Obligations.DeadlineSteps : Prop :=
  ∀ (k : Fin 3) (s : State), s.engWork = [] → 2 ≤ s.budget →
    exec (.s1 k) s = .next { s with dl := (s.tick + s.cfg.tPre) % 2 ^ s.cfg.tickBits, stepCode := 2#4 } ∧
    exec (.s6 k) s = .next { s with dl := (s.tick + s.cfg.tPost) % 2 ^ s.cfg.tickBits, stepCode := 7#4 }

/-- R104, R109, with the bytes of R64 and R67 (their order is the spec's own choice, D12). The value BI is left with is
the model's choice (log 26). -/
def Obligations.ParkRestoreSteps : Prop :=
  ∀ (k : Fin 3) (s : State), s.engWork = [] → s.busReady → s.groupBudget 4 ≤ s.budget →
    exec (.s2 k) s = .next { s with
      dc := false, bi := 3, rxq := [], stepCode := 3#4
      trace := s.trace ++ [(false, s.cfg.cmdSetMux), (false, s.cfg.muxPark), (false, s.cfg.cmdSetOffset),
        (false, s.cfg.parkOffset)] } ∧
    exec (.s7 k) s = .next { s with
      dc := false, bi := 3, rxq := [], stepCode := 8#4
      trace := s.trace ++ [(false, s.cfg.cmdSetMux), (false, s.cfg.muxRun), (false, s.cfg.cmdSetOffset),
        (false, s.cfg.restoreOffset)] }

/-- R105, R65: the whole subframe buffer of the position's subframe index, in data mode, ascending (the order is the
spec's own choice, D34). The value BI is left with is the model's choice (log 26). -/
def Obligations.FrameStep : Prop :=
  ∀ (k : Fin 3) (s : State), s.engWork = [] → s.busReady → s.groupBudget s.cfg.planeBytes ≤ s.budget →
    exec (.s3 k) s = .next { s with
      dc := true
      bi := if s.cfg.planeBytes = 0 then s.bi else s.cfg.planeBytes - 1
      rxq := []
      stepCode := 4#4
      trace := s.trace ++ (List.range s.cfg.planeBytes).map (fun i => (true, s.byteAt (.sf k) i)) }

/-- R106, R110: the same two bytes at S4 and at S8, in command mode. The value BI is left with is the model's choice
(log 26). -/
def Obligations.ContrastSteps : Prop :=
  ∀ (k : Fin 3) (s : State), s.engWork = [] → s.busReady → s.groupBudget 2 ≤ s.budget →
    exec (.s4 k) s = .next { s with
      dc := false, bi := 1, rxq := [], stepCode := 5#4
      trace := s.trace ++ [(false, s.cfg.cmdSetContrast), (false, tripleGet s.wcon k)] } ∧
    exec (.s8 k) s = .next { s with
      dc := false, bi := 1, rxq := [], stepCode := 9#4
      trace := s.trace ++ [(false, s.cfg.cmdSetContrast), (false, tripleGet s.wcon k)] }

/-- R107: WAIT.UNTIL(DL), then S6; while the deadline is to come the position and everything else stay. When the
deadline has passed is R99's comparison, the spec's own choice (D14); that a failed poll leaves the rest of the work in
`engWork` is the model's (log 20). -/
def Obligations.PreFrameWait : Prop :=
  ∀ (k : Fin 3) (s : State), s.engWork = [] → 2 ≤ s.budget →
    (deadlinePassed s.cfg s.tick s.dl = true → exec (.s5 k) s = .next { s with stepCode := 6#4 }) ∧
    (deadlinePassed s.cfg s.tick s.dl = false → exec (.s5 k) s = .next { s with engWork := [.await s.dl, .goto .s6] })

/-- R111, R202: in S9 of subframes 0 and 1 nothing is served and no flag is read. -/
def Obligations.NoMidCycleService : Prop :=
  ∀ (k : Fin 3) (s : State), k ≠ 2 → s.engWork = [] → 1 ≤ s.budget → exec (.s9 k) s = .next { s with stepCode := 10#4 }

/-- R130 (its order and policies are the spec's own reading, D16): S9 of subframe 2 serves every pending channel, or
under CONTRAST_OR_COMMAND the command only when no contrast update is pending, and changes nothing else: the bus, its
registers and the receiver only for a command, the temporaries of the pass only for a publish. The planes are those the
ENGINE sees after its read of COPY_PENDING, in the model's reading of U2 (log 8). -/
def Obligations.BoundaryService : Prop :=
  ∀ s : State, s.engWork = [] → s.busReady → s.memoryOk → s.cfg.planeBytes % 4 = 0 →
    passBudget s.cfg + s.groupBudget s.cfg.pcmdLen + 16 ≤ s.budget →
    ∃ t, exec (.s9 2) s = .next t ∧ t.stepCode = 10#4 ∧
      t.copyPending = 0#32 ∧ t.contrastPending = 0#32 ∧
      (s.copyPending ≠ 0#32 → consistentWith t ((s.acquire .copyPending).seen .a) ((s.acquire .copyPending).seen .b) s.invert) ∧
      (s.copyPending = 0#32 → t.sf0 = s.sf0 ∧ t.sf1 = s.sf1 ∧ t.sf2 = s.sf2 ∧
        t.wi = s.wi ∧ t.mask = s.mask ∧ t.v1 = s.v1 ∧ t.v2 = s.v2) ∧
      (s.contrastPending ≠ 0#32 → t.wcon = s.pcon) ∧ (s.contrastPending = 0#32 → t.wcon = s.wcon) ∧
      (s.commandServed → t.pendingCmd = 0#32 ∧ t.dc = false ∧ t.rxq = [] ∧
        t.trace = s.trace ++ traceOf false (Memory.bytes s.pcmd s.cfg.pcmdLen)) ∧
      (¬ s.commandServed → t.pendingCmd = s.pendingCmd ∧ t.trace = s.trace ∧ t.dc = s.dc ∧ t.bi = s.bi ∧ t.rxq = s.rxq) ∧
      t = { s with
        stepCode := t.stepCode, copyPending := t.copyPending, contrastPending := t.contrastPending
        pendingCmd := t.pendingCmd, sf0 := t.sf0, sf1 := t.sf1, sf2 := t.sf2, wcon := t.wcon, trace := t.trace
        wi := t.wi, mask := t.mask, v1 := t.v1, v2 := t.v2, bi := t.bi, dc := t.dc, rxq := t.rxq, races := t.races }

/-- R112: WAIT.UNTIL(DL); then FN + 1 and S1, or after subframe 2 FN = 0 and CHECK. That FN and STEP are one action is
the model's choice (log 9). When the deadline has passed is R99's comparison, the spec's own choice (D14); what a failed
poll leaves in `engWork` is the model's (log 20). -/
def Obligations.PostFrameWait : Prop :=
  ∀ s : State, s.engWork = [] → 2 ≤ s.budget →
    (deadlinePassed s.cfg s.tick s.dl = true →
      exec (.s10 0) s = .next { s with fn := 1#2, stepCode := 1#4 } ∧
      exec (.s10 1) s = .next { s with fn := 2#2, stepCode := 1#4 } ∧
      exec (.s10 2) s = .next { s with fn := 0#2, stepCode := 11#4 }) ∧
    (deadlinePassed s.cfg s.tick s.dl = false → ∀ k,
      exec (.s10 k) s = .next { s with engWork := [.await s.dl, .nextSubframe k] })

/-- R102: THREAD_STATE read Running gives FN = 0 and S1, any other legal value EXIT. The read orders the HOST's earlier
accesses (`races`); nothing else changes. That record of the HOST's writes is the model's (log 8), and so is
that the read, FN and STEP are one action (log 9). -/
def Obligations.RunFlagCheck : Prop :=
  ∀ s : State, s.engWork = [] → 1 ≤ s.budget →
    (s.threadState = 2#32 →
      exec .engCheck s = .next { s with fn := 0#2, stepCode := 1#4, races := acquireRaces .threadState s.races }) ∧
    (s.threadState ≠ 2#32 → s.threadState.toNat ≤ 3 →
      exec .engCheck s = .next { s with stepCode := 13#4, races := acquireRaces .threadState s.races })

/-- R101 (the pass before the announcement is the spec's own choice, D17), in Starting: FN 0, one pass, Running
announced, CHECK; no request flag is cleared. The planes are those the ENGINE sees, in the model's reading of U2 (log
8); the announcement and STEP <- CHECK are one action in the model (log 9). -/
def Obligations.EngineStart : Prop :=
  ∀ s : State, s.engWork = [] → s.threadState = 1#32 → s.memoryOk → s.cfg.planeBytes % 4 = 0 →
    passBudget s.cfg ≤ s.budget →
    ∃ t, exec .engStart s = .next t ∧ t.threadState = 2#32 ∧ t.fn = 0#2 ∧ t.stepCode = 11#4 ∧
      consistentWith t (s.seen .a) (s.seen .b) s.invert ∧
      t = { s with
        threadState := t.threadState, fn := t.fn, stepCode := t.stepCode, sf0 := t.sf0, sf1 := t.sf1, sf2 := t.sf2
        wi := t.wi, mask := t.mask, v1 := t.v1, v2 := t.v2, races := t.races }

/-- R113, R100: ENG.EXIT in Stopping writes Stopped and goes to IDLE, leaving the request flags and all else; ENG.IDLE
does nothing, and an idle engine's turn changes nothing. That the announcement and STEP <- IDLE are one action is the
model's choice (log 9), and so is the record `races` (log 8). -/
def Obligations.EngineExitIdle : Prop :=
  ∀ s : State, s.engWork = [] →
    (1 ≤ s.budget → s.threadState = 3#32 →
      exec .engExit s = .next { s with
        threadState := 0#32, stepCode := 0#4, races := writeRaces .engine .threadState s.races }) ∧
    exec .engIdle s = .next s ∧
    (paramsOk s.cfg = true → s.threadState.toNat ≤ 3 → s.nextTurn.agent = .engine → s.fn = 0#2 → s.stepCode = 0#4 →
      step s = .next s.inTurn)

/-! ### Subframe generator -/

/-- R85: SFG.WORD. The plane words are those the ENGINE sees (U2); with no write of the HOST missed (`age` 0) they are
the planes' own. An index past the planes, which R85 never forms, touches an offset that does not exist (R41): that the
operation then stops with the fault outsideRegion is DEDUCED (log 16). How the ENGINE sees them is log 8; that SFG.WORD
is executed on its own (log 15), and then leaves WI and MASK alone (log 26), is the model's choice. -/
def Obligations.WordTransform : Prop :=
  ∀ (wi : Nat) (mask : Word) (s : State), s.engWork = [] → s.memoryOk → 3 ≤ s.budget →
    (wi < s.cfg.planeWords →
      ∃ t, exec (.sfgWord wi mask) s = .next t ∧
        t.v1 = Memory.readWord (s.planeView .a) (4 * wi) ^^^ mask ∧ t.v2 = Memory.readWord (s.planeView .b) (4 * wi) ∧
        Memory.readWord t.sf0 (4 * wi) = t.v1 ||| t.v2 ∧ Memory.readWord t.sf1 (4 * wi) = t.v1 ∧
        Memory.readWord t.sf2 (4 * wi) = t.v1 &&& (t.v1 ^^^ t.v2) ∧
        (∀ k i, (i < 4 * wi ∨ 4 * wi + 4 ≤ i) → t.byteAt (.sf k) i = s.byteAt (.sf k) i) ∧
        t = { s with v1 := t.v1, v2 := t.v2, sf0 := t.sf0, sf1 := t.sf1, sf2 := t.sf2 }) ∧
    (s.cfg.planeBytes < 4 * wi + 4 → exec (.sfgWord wi mask) s = .fault (.outsideRegion .planeA (4 * wi))) ∧
    (s.age = 0 → s.planeView .a = s.planeA ∧ s.planeView .b = s.planeB)

/-- R88, R86, R23: one pass, with INVERT sampled once (D18), makes every byte of the three buffers the transform of the
planes as the ENGINE sees them, and leaves all but the buffers and its temporaries. How it sees them (U2) is log 8, and
that the pass is executed on its own is log 15, both the model's choice. -/
def Obligations.PassTransform : Prop :=
  ∀ s : State, s.engWork = [] → s.memoryOk → s.cfg.planeBytes % 4 = 0 → passBudget s.cfg ≤ s.budget →
    ∃ t, exec .sfgPass s = .next t ∧ consistentWith t (s.seen .a) (s.seen .b) s.invert ∧
      t = { s with
        sf0 := t.sf0, sf1 := t.sf1, sf2 := t.sf2, wi := t.wi, mask := t.mask, v1 := t.v1, v2 := t.v2
        races := acquireRaces .invert s.races }

/-- R87: in which of the three subframes a pixel of each colour is lit, and in how many, without and with inversion: the
two tables of the rule, row by row, for buffers consistent with the planes (R86) and a pixel on the screen. The pixel's
place in the planes is R42's (the spec's own choice, D3). -/
def Obligations.PixelTable : Prop :=
  ∀ (s : State) (x y : Nat), consistentWith s s.planeA s.planeB s.invert → x < s.cfg.width → y < Config.height →
    (s.invert = 0#32 →
      (s.colour x y = 0 → s.shown x y = ([false, false, false], 0)) ∧
      (s.colour x y = 1 → s.shown x y = ([true, true, true], 3)) ∧
      (s.colour x y = 2 → s.shown x y = ([true, false, false], 1)) ∧
      (s.colour x y = 3 → s.shown x y = ([true, true, false], 2))) ∧
    (s.invert ≠ 0#32 →
      (s.colour x y = 0 → s.shown x y = ([true, true, true], 3)) ∧
      (s.colour x y = 1 → s.shown x y = ([false, false, false], 0)) ∧
      (s.colour x y = 2 → s.shown x y = ([true, true, false], 2)) ∧
      (s.colour x y = 3 → s.shown x y = ([true, false, false], 1)))

/-- R90: a second pass in a row leaves every byte of the subframe buffers as the first left it; and the pass is a
function of the planes (as the ENGINE sees them) and INVERT: two states that agree on these get the same buffers. How it
sees them (U2) is log 8, and that the pass is executed on its own is log 15, both the model's choice. -/
def Obligations.PassIdempotent : Prop :=
  ∀ s : State, s.engWork = [] → s.memoryOk → s.cfg.planeBytes % 4 = 0 → passBudget s.cfg ≤ s.budget →
    ∃ t, exec .sfgPass s = .next t ∧
      (∃ u, exec .sfgPass t = .next u ∧ ∀ k i, u.byteAt (.sf k) i = t.byteAt (.sf k) i) ∧
      (∀ s' t', s'.engWork = [] → s'.memoryOk → passBudget s.cfg ≤ s'.budget → s'.cfg = s.cfg → s'.invert = s.invert →
        s'.seen .a = s.seen .a → s'.seen .b = s.seen .b → exec .sfgPass s' = .next t' →
        ∀ k i, i < s.cfg.planeBytes → t'.byteAt (.sf k) i = t.byteAt (.sf k) i)

/-- R51, R54, R203 (the ordering is the spec's own choice, D7): after a read of a flag the HOST has released since its
last draw the ENGINE sees the plane itself; and without one, every byte it sees (of a memory in canonical form) is the
plane's or one that a draw replaced, never a third value. The record of the writes and which of them a read misses are
the model's choice (log 8). -/
def Obligations.PlaneReads : Prop :=
  ∀ (s : State) (p : Plane),
    (∀ f newer older, s.races = newer ++ .released f :: older → (∀ q off old, .drew q off old ∉ newer) →
      (s.acquire f).planeView p = s.region (planeRegion p)) ∧
    (Memory.wf (s.region (planeRegion p)) = true → ∀ i,
      Memory.read (s.planeView p) i = s.byteAt (planeRegion p) i ∨
      ∃ old, .drew p i old ∈ s.races ∧ Memory.read (s.planeView p) i = old)

/-! ### Channels -/

/-- R125, R126, R134, R135 (D19, D20): SHOW and SHOW_ASYNC. Running: COPY_PENDING is set, already set or not, and SHOW
waits for its clearing while SHOW_ASYNC returns. Stopped: PLANE_A goes out as it is; the value BI is left with is the
model's choice (log 26). So are the records `races` (log 8) and `result` (log 19). -/
def Obligations.ShowPaths : Prop :=
  ∀ s : State, s.hostWork = [] →
    (s.threadState = 2#32 → 2 ≤ s.budget →
      exec .showAsync s = .next { s with
        copyPending := 1#32, result := .done, races := .released .copyPending :: s.races } ∧
      exec .showSync s = .next { s with
        copyPending := 1#32, races := .released .copyPending :: s.races
        hostWork := [.spin .copyPending 0#32, .ret .done] }) ∧
    (s.threadState = 0#32 → s.busReady → s.groupBudget s.cfg.planeBytes ≤ s.budget →
      exec .showSync s = .next { s.sent true (Memory.bytes s.planeA s.cfg.planeBytes) with result := .done } ∧
      exec .showAsync s = .next { s.sent true (Memory.bytes s.planeA s.cfg.planeBytes) with result := .done })

/-- R127, R68, R134 (D15): SENDCMD of a command that fits. Running: PCMD holds the command and its padding, then
PENDING_CMD is set and the call waits. Stopped: exactly the n bytes go out, whatever n; the value BI is left with is the
model's choice (log 26). Begun while Running with PENDING_CMD set already, where the HOST may not write PCMD (R54,
R208), it is refused with ownership (U5, log 14). The records `races` (log 8) and `result` (log 19) are the model's. -/
def Obligations.SendCmdPaths : Prop :=
  ∀ (c : List Byte) (s : State), s.hostWork = [] →
    (s.threadState = 2#32 → c.length ≤ s.cfg.pcmdLen → s.pendingCmd = 0#32 → s.memoryOk → s.cfg.pcmdLen + 3 ≤ s.budget →
      ∃ t, exec (.sendCmd c) s = .next t ∧
        (∀ i, i < s.cfg.pcmdLen → t.byteAt .pcmd i = c.getD i s.cfg.cmdNop) ∧
        t = { s with
          pcmd := t.pcmd, pendingCmd := 1#32, races := .released .pendingCmd :: s.races
          hostWork := [.spin .pendingCmd 0#32, .ret .done] }) ∧
    (s.threadState = 0#32 → s.busReady → s.groupBudget c.length ≤ s.budget →
      exec (.sendCmd c) s = .next { s.sent false c with result := .done }) ∧
    (s.threadState = 2#32 → c.length ≤ s.cfg.pcmdLen → 1 ≤ s.cfg.pcmdLen → s.pendingCmd ≠ 0#32 → 1 ≤ s.budget →
      exec (.sendCmd c) s = .refused .ownership)

/-- R170, R171: the caller gets ContractViolation with n when n exceeds PCMD_LEN and THREAD_STATE reads Running, with
no other effect; and it gets an error in no other case. That the error is a value with n handed to the caller is the
spec's own choice (D27); that it stands in `result` and the machine goes on is the model's (log 19). -/
def Obligations.ContractViolation : Prop :=
  ∀ (c : List Byte) (s : State), s.hostWork = [] →
    (s.threadState = 2#32 → s.cfg.pcmdLen < c.length → 1 ≤ s.budget →
      exec (.sendCmd c) s = .next { s with result := .error .contractViolation c.length }) ∧
    (∀ t e n, s.result = .done → exec (.sendCmd c) s = .next t → t.result = .error e n →
      s.threadState = 2#32 ∧ s.cfg.pcmdLen < c.length ∧ e = .contractViolation ∧ n = c.length)

/-- R128, R161 (D18, D37): INVERT writes its flag and nothing else, in any mode; ISACTIVE returns whether THREAD_STATE
is Running. That both run in Starting and Stopping too, where U4 has a model refuse a host operation, is DEDUCED (log
12), and that INVERT does not look at a THREAD_STATE above 3 is too (log 11). The records `races` (log 8) and `result`
(log 19), which holds the answer, are the model's. -/
def Obligations.InvertIsActive : Prop :=
  ∀ (v : Bool) (s : State), s.hostWork = [] → 2 ≤ s.budget →
    exec (.invert v) s = .next { s with
      invert := if v then 1#32 else 0#32, result := .done, races := .released .invert :: s.races } ∧
    (s.threadState.toNat ≤ 3 →
      exec .isActive s = .next { s with result := .bool (decide (s.threadState = 2#32)) })

/-- R49: DRAW gives every byte the last value written to it, in any mode, and touches nothing but the planes. An offset
past a plane does not exist (R41); that DRAW stops there with the fault outsideRegion is DEDUCED (log 16), and so is
that it runs in Starting and Stopping, where U4 has a model refuse (log 12), and above 3 (log 11). That DRAW is a list
of byte writes (log 21) and the record `result` (log 19) are the model's choice. -/
def Obligations.DrawWrites : Prop :=
  ∀ (ws : List PlaneWrite) (s : State), s.hostWork = [] → s.memoryOk → ws.length + 1 ≤ s.budget →
    ((∀ w ∈ ws, w.off < s.cfg.planeBytes) →
      ∃ t, exec (.draw ws) s = .next t ∧
        (∀ i, t.byteAt .planeA i = (lastWrite .a i ws).getD (s.byteAt .planeA i)) ∧
        (∀ i, t.byteAt .planeB i = (lastWrite .b i ws).getD (s.byteAt .planeB i)) ∧
        t = { s with planeA := t.planeA, planeB := t.planeB, races := t.races, result := .done }) ∧
    ((∃ w ∈ ws, s.cfg.planeBytes ≤ w.off) → ∃ r off, exec (.draw ws) s = .fault (.outsideRegion r off))

/-- D31, R134, U4: a call begun while another is in progress is refused (log 13); one that begins by choosing a path is
refused in Starting and Stopping (which ones is DEDUCED, log 12); every one that reads THREAD_STATE faults where that is
no legal value (R13, U3; DEDUCED, log 11). -/
def Obligations.HostRefusals : Prop :=
  ∀ s : State,
    (s.hostWork ≠ [] → ∀ i, isHostCall i = true → exec i s = .refused .hostBusy) ∧
    (s.hostWork = [] → (s.threadState = 1#32 ∨ s.threadState = 3#32) →
      exec .enable s = .refused .transitionalState ∧ exec .showSync s = .refused .transitionalState ∧
      exec .showAsync s = .refused .transitionalState ∧
      (∀ c, exec (.sendCmd c) s = .refused .transitionalState) ∧
      (∀ v, exec (.brightness v) s = .refused .transitionalState)) ∧
    (s.hostWork = [] → 3 < s.threadState.toNat →
      exec .enable s = .fault (.illegalThreadState s.threadState) ∧
      exec .disable s = .fault (.illegalThreadState s.threadState) ∧
      exec .isActive s = .fault (.illegalThreadState s.threadState) ∧
      exec .showSync s = .fault (.illegalThreadState s.threadState) ∧
      exec .showAsync s = .fault (.illegalThreadState s.threadState) ∧
      (∀ c, exec (.sendCmd c) s = .fault (.illegalThreadState s.threadState)) ∧
      (∀ v, exec (.brightness v) s = .fault (.illegalThreadState s.threadState)))

/-- R131: SVC.PUBLISH is one pass and the clearing of COPY_PENDING, and nothing else. The planes are those the ENGINE
sees, in the model's reading of U2 (log 8). That it is executed on its own is the model's choice (log 15). -/
def Obligations.ServePublish : Prop :=
  ∀ s : State, s.engWork = [] → s.memoryOk → s.cfg.planeBytes % 4 = 0 → passBudget s.cfg ≤ s.budget →
    ∃ t, exec .svcPublish s = .next t ∧ t.copyPending = 0#32 ∧ consistentWith t (s.seen .a) (s.seen .b) s.invert ∧
      t = { s with
        copyPending := 0#32, sf0 := t.sf0, sf1 := t.sf1, sf2 := t.sf2, wi := t.wi, mask := t.mask, v1 := t.v1
        v2 := t.v2, races := t.races }

/-- R132, R133: SVC.CONTRAST copies PCON into WCON and clears its flag, with no bus traffic; SVC.COMMAND sends all
PCMD_LEN bytes of PCMD and clears its flag; the value BI is left with is the model's choice (log 26). So are their being
executed on their own (log 15) and the record `races` (log 8). -/
def Obligations.ServeContrastCommand : Prop :=
  ∀ s : State, s.engWork = [] →
    (4 ≤ s.budget →
      exec .svcContrast s = .next { s with
        wcon := s.pcon, contrastPending := 0#32, races := writeRaces .engine .contrastPending s.races }) ∧
    (s.busReady → s.groupBudget s.cfg.pcmdLen ≤ s.budget →
      exec .svcCommand s = .next { s.sent false (Memory.bytes s.pcmd s.cfg.pcmdLen) with
        pendingCmd := 0#32, races := writeRaces .engine .pendingCmd s.races })

/-! ### Blocking operations served (R137) -/

/-- R137 for SHOW, as a script of three turns with the ENGINE about to begin S9 of subframe 2: the HOST calls SHOW, the
ENGINE serves, the HOST returns, the receiver being empty to begin with. Then the buffers are the transform of the
planes as they stood, with no write of the HOST missed, whatever the ENGINE's reads could have missed before (R52). The
turns (log 4) and the call loaded into hostProg (log 5) are the model's choice. So are how the ENGINE's reads miss
writes (log 8) and the record `result` (log 19). -/
def Obligations.ShowReturns : Prop :=
  ∀ (s : State) (h e r : Turn) (rest : List Turn) (prog : List Instr),
    paramsOk s.cfg = true → s.memoryOk → s.threadState = 2#32 → s.fn = 2#2 → s.stepCode = 9#4 → s.rxq = [] →
    s.engWork = [] → s.hostWork = [] → s.hostProg = .showSync :: prog → s.inputs = h :: e :: r :: rest →
    servedTurns s.cfg h e r →
    ∃ t, core.run 3 s = .next t ∧ t.hostWork = [] ∧ t.result = .done ∧ t.copyPending = 0#32 ∧ t.stepCode = 10#4 ∧
      consistentWith t s.planeA s.planeB s.invert ∧ t.planeA = s.planeA ∧ t.planeB = s.planeB

/-- R137 for SENDCMD, in the same script of three turns, for a command that fits, with neither PENDING_CMD nor
CONTRAST_PENDING set before: when it returns on the active path all PCMD_LEN bytes, the command and its padding, have
left the bus. The turns (log 4) and the call in hostProg (log 5) are the model's choice. So is the record `result` (log
19). -/
def Obligations.SendCmdReturns : Prop :=
  ∀ (s : State) (c : List Byte) (h e r : Turn) (rest : List Turn) (prog : List Instr),
    paramsOk s.cfg = true → s.memoryOk → s.threadState = 2#32 → s.fn = 2#2 → s.stepCode = 9#4 → s.rxq = [] →
    s.engWork = [] → s.hostWork = [] → s.hostProg = .sendCmd c :: prog → s.inputs = h :: e :: r :: rest →
    servedTurns s.cfg h e r →
    c.length ≤ s.cfg.pcmdLen → s.pendingCmd = 0#32 → s.contrastPending = 0#32 →
    ∃ t, core.run 3 s = .next t ∧ t.hostWork = [] ∧ t.result = .done ∧ t.pendingCmd = 0#32 ∧
      t.trace = s.trace ++ traceOf false (c ++ List.replicate (s.cfg.pcmdLen - c.length) s.cfg.cmdNop)

/-- R137 for BRIGHTNESS, in the same script of three turns, with neither PENDING_CMD nor CONTRAST_PENDING set before:
when it returns on the active path WCON equals PCON, the derived bytes of the clamped input, and nothing has gone out on
the bus. The turns (log 4) and the call in hostProg (log 5) are the model's choice. So is the record `result` (log
19). -/
def Obligations.BrightnessReturns : Prop :=
  ∀ (s : State) (v : Int) (h e r : Turn) (rest : List Turn) (prog : List Instr),
    paramsOk s.cfg = true → s.memoryOk → s.threadState = 2#32 → s.fn = 2#2 → s.stepCode = 9#4 → s.rxq = [] →
    s.engWork = [] → s.hostWork = [] → s.hostProg = .brightness v :: prog → s.inputs = h :: e :: r :: rest →
    servedTurns s.cfg h e r → s.pendingCmd = 0#32 → s.contrastPending = 0#32 →
    ∃ t, core.run 3 s = .next t ∧ t.hostWork = [] ∧ t.result = .done ∧ t.contrastPending = 0#32 ∧
      t.bright = clampBrightness v ∧ t.pcon = deriveTriple (clampBrightness v) ∧ t.wcon = t.pcon ∧ t.trace = s.trace

/-! ### Brightness -/

/-- R145, R134 (D21, D22): both paths of BRIGHTNESS, for an integer of any sign and size; on the direct path the value
BI is left with is the model's choice (log 26). Begun with CONTRAST_PENDING set already, where the HOST may not write
PCON (R54, R208), it is refused with ownership (U5, log 14). The records `races` (log 8) and `result` (log 19) are the
model's. -/
def Obligations.BrightnessPaths : Prop :=
  ∀ (v : Int) (s : State), s.hostWork = [] →
    (s.threadState = 2#32 → s.contrastPending = 0#32 → 6 ≤ s.budget →
      exec (.brightness v) s = .next { s with
        bright := clampBrightness v, pcon := deriveTriple (clampBrightness v), contrastPending := 1#32
        races := .released .contrastPending :: s.races, hostWork := [.spin .contrastPending 0#32, .ret .done] }) ∧
    (s.threadState = 0#32 → s.contrastPending = 0#32 → s.busReady → s.groupBudget 2 + 8 ≤ s.budget →
      exec (.brightness v) s = .next { s.sent false
          [s.cfg.cmdSetContrast, monoContrastByte s.cfg (clampBrightness v)] with
        bright := clampBrightness v, pcon := deriveTriple (clampBrightness v)
        wcon := deriveTriple (clampBrightness v), result := .done }) ∧
    ((s.threadState = 2#32 ∨ s.threadState = 0#32) → s.contrastPending ≠ 0#32 → 2 ≤ s.budget →
      exec (.brightness v) s = .refused .ownership)

/-- R147, R148: isqrt is the exact floor square root of every natural number; the clamp maps every integer into 0 to
127 and leaves those in it alone. -/
def Obligations.SquareRootClamp : Prop :=
  (∀ n : Nat, isqrt n * isqrt n ≤ n ∧ n < (isqrt n + 1) * (isqrt n + 1)) ∧
  (∀ v : Int, clampBrightness v ≤ 127 ∧ (v < 0 → clampBrightness v = 0) ∧ (127 < v → clampBrightness v = 127) ∧
    (0 ≤ v → v ≤ 127 → (clampBrightness v : Int) = v))

/-- R146: the three bytes by the formula, which fit a byte (R149, derived by the spec); their order and growth (R150,
derived); the reference triples as R152 settles them against the document's own (conflict C1). -/
def Obligations.DerivedBytes : Prop :=
  (∀ b : Fin 128,
    (deriveTriple b).b0.toNat = isqrt (b.val * 2 ^ 17) * 30 / 4096 + 6 ∧
    (deriveTriple b).b1.toNat = isqrt (b.val * 2 ^ 17) * 72 / 4096 + 14 ∧
    (deriveTriple b).b2.toNat = min 255 (isqrt (b.val * 2 ^ 17) * 340 / 4096 + 20) ∧
    (deriveTriple b).b0 < (deriveTriple b).b1 ∧ (deriveTriple b).b1 < (deriveTriple b).b2) ∧
  (∀ b c : Fin 128, b ≤ c →
    (deriveTriple b).b0 ≤ (deriveTriple c).b0 ∧ (deriveTriple b).b1 ≤ (deriveTriple c).b1 ∧
    (deriveTriple b).b2 ≤ (deriveTriple c).b2) ∧
  deriveTriple 0 = ⟨6#8, 14#8, 20#8⟩ ∧ deriveTriple 28 = ⟨20#8, 47#8, 178#8⟩ ∧ deriveTriple 127 = ⟨35#8, 85#8, 255#8⟩

/-- R153, R172 (the form of the key is the spec's own choice, D33): the key's three lines give 0, 28 and 127, and
every other text, or none, gives 127. -/
def Obligations.ConfigurationKey : Prop :=
  keyBrightness none = 127 ∧
  ∀ line : List Char,
    (line = "brightness,0".toList → keyBrightness (some line) = 0) ∧
    (line = "brightness,1".toList → keyBrightness (some line) = 28) ∧
    (line ≠ "brightness,0".toList → line ≠ "brightness,1".toList → keyBrightness (some line) = 127)

/-! ### Lifecycle -/

/-- R155, R156: ENABLE is a no-op when Running; from Stopped it writes Starting, sends MODE_GRAY, launches the ENGINE at
ENG.START, which sees all the HOST did before (R52), and waits for Running. While Stopped the engine is idle (R36,
R113), as `State.phaseOk` in `State.safe` has it and SafeStateGoesOn keeps it; elsewhere MODE_GRAY would find the port
the ENGINE's (log 29). The value BI is left with is the model's choice (log 26). So are the records `races` (log 8) and
`result` (log 19). -/
def Obligations.EnablePaths : Prop :=
  ∀ s : State, s.hostWork = [] →
    (s.threadState = 2#32 → 1 ≤ s.budget → exec .enable s = .next { s with result := .done }) ∧
    (s.threadState = 0#32 → s.stepCode = 0#4 → s.busReady → s.groupBudget s.cfg.modeGray.length + 3 ≤ s.budget →
      exec .enable s = .next { s.sent false s.cfg.modeGray with
        threadState := 1#32, fn := 0#2, stepCode := 12#4, races := []
        hostWork := [.spin .threadState 2#32, .ret .done] })

/-- R158: DISABLE is a no-op when not Running; when Running it writes Stopping and waits; once Stopped is announced,
CONTRAST_PENDING being clear so that the HOST may write PCON (R54), it sends MODE_MONO, MONOFRAME and the direct
contrast command of BRIGHT and rewrites PCON and WCON (D20, D21, D38). That it is a no-op in Starting and Stopping,
where U4 has a model refuse, is DEDUCED (log 12); the value BI is left with is the model's choice (log 26). So are the
records `races` (log 8) and `result` (log 19). That it faults above 3, which the second clause leaves out, is DEDUCED
(log 11). -/
def Obligations.DisablePaths : Prop :=
  ∀ s : State,
    (s.hostWork = [] → 2 ≤ s.budget → s.threadState = 2#32 →
      exec .disable s = .next { s with
        threadState := 3#32, races := .released .threadState :: s.races, hostWork := disableTasks.drop 1 }) ∧
    (s.hostWork = [] → 1 ≤ s.budget → s.threadState ≠ 2#32 → s.threadState.toNat ≤ 3 →
      exec .disable s = .next { s with result := .done }) ∧
    (s.hostWork = disableTasks.drop 1 → s.threadState = 0#32 → s.contrastPending = 0#32 → s.busReady →
      s.groupBudget (s.cfg.modeMono.length + s.cfg.planeBytes + 2) + 24 ≤ s.budget →
      go .host s.budget s = .next { s with
        dc := false, bi := 1, rxq := [], pcon := deriveTriple s.bright, wcon := deriveTriple s.bright
        result := .done, hostWork := []
        trace := s.trace ++ traceOf false s.cfg.modeMono ++ traceOf true (Memory.bytes s.planeA s.cfg.planeBytes) ++
          traceOf false [s.cfg.cmdSetContrast, monoContrastByte s.cfg s.bright] })

/-- R154, R155, R158, R114, as a script of seven turns (`enableDisableTurns`) in which every poll succeeds, from an idle
engine, an empty receiver, CONTRAST_PENDING clear and PCON and WCON the derived bytes of BRIGHT: ENABLE followed at once
by DISABLE returns the engine to Stopped, restores the brightness exactly, and puts on the trace MODE_GRAY, no outer
cycle, MODE_MONO, the frame of PLANE_A and the contrast command. The turns (log 4) and the calls in hostProg (log 5) are
the model's choice. -/
def Obligations.EnableThenDisable : Prop :=
  ∀ (s : State) (n : Nat) (rest : List Turn) (prog : List Instr),
    paramsOk s.cfg = true → s.threadState = 0#32 → s.fn = 0#2 → s.stepCode = 0#4 → s.engWork = [] → s.hostWork = [] →
    s.rxq = [] → s.contrastPending = 0#32 → s.pcon = deriveTriple s.bright → s.wcon = deriveTriple s.bright →
    s.hostProg = .enable :: .disable :: prog → s.inputs = enableDisableTurns n ++ rest →
    passBudget s.cfg + 3 * (s.cfg.modeGray.length + s.cfg.modeMono.length + s.cfg.planeBytes) + 40 ≤ n →
    ∃ t, core.run 7 s = .next t ∧ t.threadState = 0#32 ∧ t.fn = 0#2 ∧ t.stepCode = 0#4 ∧ t.engWork = [] ∧
      t.hostWork = [] ∧ t.hostProg = prog ∧ t.bright = s.bright ∧ t.pcon = s.pcon ∧ t.wcon = s.wcon ∧
      t.copyPending = s.copyPending ∧ t.pendingCmd = s.pendingCmd ∧
      t.trace = s.trace ++ traceOf false s.cfg.modeGray ++ traceOf false s.cfg.modeMono ++
        traceOf true (Memory.bytes s.planeA s.cfg.planeBytes) ++
        traceOf false [s.cfg.cmdSetContrast, monoContrastByte s.cfg s.bright]

/-! ### Bus groups -/

/-- R64 to R68: the ENGINE's groups, each complete and nothing but the bus changed. That a group is executed on its own
is the model's choice (log 15), and so is the value BI is left with (log 26). -/
def Obligations.EngineGroups : Prop :=
  ∀ s : State, s.engWork = [] → s.busReady →
    (s.groupBudget 4 ≤ s.budget →
      exec .park s = .next (s.sent false [s.cfg.cmdSetMux, s.cfg.muxPark, s.cfg.cmdSetOffset, s.cfg.parkOffset]) ∧
      exec .restore s = .next (s.sent false [s.cfg.cmdSetMux, s.cfg.muxRun, s.cfg.cmdSetOffset, s.cfg.restoreOffset])) ∧
    (s.groupBudget s.cfg.planeBytes ≤ s.budget → ∀ k,
      exec (.frame k) s = .next (s.sent true ((List.range s.cfg.planeBytes).map (s.byteAt (.sf k))))) ∧
    (s.groupBudget 2 ≤ s.budget → ∀ k,
      exec (.contrast k) s = .next (s.sent false [s.cfg.cmdSetContrast, tripleGet s.wcon k])) ∧
    (s.groupBudget s.cfg.pcmdLen ≤ s.budget →
      exec .inject s = .next (s.sent false ((List.range s.cfg.pcmdLen).map (s.byteAt .pcmd))))

/-- R69, R70 (D20, D21, D35): the HOST's groups while it owns the bus port; R180, R208: refused while the ENGINE does
(the refusal's form is log 14). R163: the ENGINE owns the port in Running and Stopping, and in Starting from the launch
on, when the engine is idle no more (log 29). That a group is executed on its own is the model's choice (log 15), and so
is the value BI is left with (log 26). -/
def Obligations.HostGroups : Prop :=
  ∀ (c : List Byte) (s : State), s.hostWork = [] →
    (¬ (s.threadState = 2#32 ∨ s.threadState = 3#32 ∨ (s.threadState = 1#32 ∧ s.stepCode ≠ 0#4)) → s.busReady →
      (s.groupBudget s.cfg.planeBytes ≤ s.budget →
        exec .monoFrame s = .next (s.sent true ((List.range s.cfg.planeBytes).map (s.byteAt .planeA)))) ∧
      (s.groupBudget c.length ≤ s.budget → exec (.directCmd c) s = .next (s.sent false c)) ∧
      (s.groupBudget 2 ≤ s.budget →
        exec .monoContrast s = .next (s.sent false [s.cfg.cmdSetContrast, monoContrastByte s.cfg s.bright])) ∧
      (s.groupBudget s.cfg.modeGray.length ≤ s.budget → exec .modeGray s = .next (s.sent false s.cfg.modeGray)) ∧
      (s.groupBudget s.cfg.modeMono.length ≤ s.budget → exec .modeMono s = .next (s.sent false s.cfg.modeMono)) ∧
      (s.groupBudget s.cfg.init.length ≤ s.budget → exec .init s = .next (s.sent false s.cfg.init))) ∧
    ((s.threadState = 2#32 ∨ s.threadState = 3#32 ∨ (s.threadState = 1#32 ∧ s.stepCode ≠ 0#4)) →
      exec .monoFrame s = .refused .ownership ∧ exec (.directCmd c) s = .refused .ownership ∧
      exec .monoContrast s = .refused .ownership ∧ exec .modeGray s = .refused .ownership ∧
      exec .modeMono s = .refused .ownership ∧ exec .init s = .refused .ownership)

/-! ### Reset and start-up -/

/-- R36, R195 (the values are the spec's own choice, D25): the state after reset, for every parameter set, in the rows
that give a value; the rows that give none are in log 1 and nothing here rests on them. Two clauses are the model's and
no row of R36: the bus trace is empty (log 1, DEDUCED), and State.reset has the default parameters (log 2, PRESUMED). -/
def Obligations.ResetValues : Prop :=
  ∀ p : Config.Params,
    (State.resetWith p).threadState = 0#32 ∧ (State.resetWith p).copyPending = 0#32 ∧
    (State.resetWith p).pendingCmd = 0#32 ∧ (State.resetWith p).contrastPending = 0#32 ∧
    (State.resetWith p).invert = 0#32 ∧ (State.resetWith p).bright = keyBrightness p.configKey ∧
    (State.resetWith p).pcon = deriveTriple (keyBrightness p.configKey) ∧
    (State.resetWith p).wcon = deriveTriple (keyBrightness p.configKey) ∧
    (State.resetWith p).fn = 0#2 ∧ (State.resetWith p).stepCode = posCode .idle ∧
    (State.resetWith p).trace = [] ∧ (p.configKey = none → (State.resetWith p).wcon = ⟨35#8, 85#8, 255#8⟩) ∧
    State.reset = State.resetWith Config.Params.default

/-- R196 to R198 (the order is the spec's own, D25): the HOST's start-up from reset, one call a turn, leaves INIT,
MODE_MONO and the direct contrast command (D21) on the trace and BRIGHT, PCON and WCON at the values R36 gives them.
The trace is exact because the model has it empty at reset (log 1, DEDUCED). That the three are calls of the HOST loaded
into hostProg (log 5), INIT and MODE_MONO among them (log 15), and the turns they take (log 4), are the model's choice. -/
def Obligations.StartUp : Prop :=
  ∀ (p : Config.Params) (n : Nat) (prog : List Instr) (rest : List Turn),
    paramsOk p = true → 3 * (p.init.length + p.modeMono.length) + 40 ≤ n →
    ∃ t, core.run 3 { State.resetWith p with
        hostProg := startupProgram p ++ prog
        inputs := List.replicate 3 { engineTurn n 0 with agent := .host } ++ rest } = .next t ∧
      t.trace = traceOf false p.init ++ traceOf false p.modeMono ++
        traceOf false [p.cmdSetContrast, monoContrastByte p (keyBrightness p.configKey)] ∧
      t.hostProg = prog ∧ t.hostWork = [] ∧ t.bright = (State.resetWith p).bright ∧
      t.pcon = (State.resetWith p).pcon ∧ t.wcon = (State.resetWith p).wcon ∧ t.threadState = 0#32

/-! ### Invariants and whole-machine rules -/

/-- R41, R89: from every state, reachable or not, a step keeps every region in canonical form and inside its size, and
SF2 within SF1 within SF0, bit for bit. R85 lists three stores a word and R89 speaks of the words computed: that the
buffers nest between the turns of a pass as well is the model's choice, the three stores being one action (log 28). -/
def Obligations.StepKeepsMemory : Prop :=
  ∀ s t : State, s.memoryOk → s.nested → step s = .next t → t.memoryOk ∧ t.nested

/-- R38, R160 to R163, R180: from every safe state a step answers a next state, and that state is safe: with ordinary
calls the block neither faults nor refuses, whatever the interleaving, the transmitter, the TIMER and the budgets. That
no step falls between the writes of THREAD_STATE and STEP in ENG.START and ENG.EXIT (R101, R113), so that Running finds
the ENGINE in its loop and Stopped finds it idle, is the model's choice (log 9, for FN and STEP in ENG.CHECK and S10
too). So are the turns (log 4), the calls in hostProg (log 5) and that a failed poll ends the turn (log 20); who owns the
port in Starting is log 29. -/
def Obligations.SafeStateGoesOn : Prop :=
  ∀ s : State, paramsOk s.cfg = true → s.safe → ∃ t, step s = .next t ∧ t.safe

/-- R36, U11: the invariants hold right after reset with any contents in the rows R36 leaves unspecified (those of `u`),
whatever ordinary calls and whatever turns are to come. At State.reset itself SF0 to SF2 nest as well, but only because
log 1 (DESIGN CHOICE, unsafe) sets them to 0. That State.reset has the default parameters is log 2 (PRESUMED), the empty
trace that `framesWhole` starts from log 1 (DEDUCED), the calls and turns to come log 4 and log 5 (DESIGN CHOICE). -/
def Obligations.ResetSafe : Prop :=
  (∀ (p : Config.Params) (u : State) (prog : List Instr) (turns : List Turn),
    prog.all (ordinaryCall p) = true → u.cfg = p → u.memoryOk → u.tick < 2 ^ p.tickBits → u.dl < 2 ^ p.tickBits →
    ({ State.resetFrom p u with hostProg := prog, inputs := turns } : State).memoryOk ∧
    ({ State.resetFrom p u with hostProg := prog, inputs := turns } : State).safe ∧
    ({ State.resetFrom p u with hostProg := prog, inputs := turns } : State).framesWhole) ∧
  (State.reset.memoryOk ∧ State.reset.nested ∧ State.reset.safe ∧ State.reset.framesWhole)

/-- R160: in every state a step leaves THREAD_STATE alone or takes it along one edge of the cycle, by the agent the rule
names for that edge, and the bus port is then owned as its table says; after the write of Starting the HOST owns it
until the launch, which the same turn may reach. That a step is a turn, which may do both, is the model's choice (log
4); who owns the port in Starting is R163 and log 29. -/
def Obligations.ThreadStateCycle : Prop :=
  ∀ s t : State, step s = .next t →
    t.threadState = s.threadState ∨
    (s.threadState = 0#32 ∧ t.threadState = 1#32 ∧ s.nextTurn.agent = .host ∧
      (t.stepCode = posCode .idle → t.busOwner = .host)) ∨
    (s.threadState = 1#32 ∧ t.threadState = 2#32 ∧ s.nextTurn.agent = .engine ∧ t.busOwner = .engine) ∨
    (s.threadState = 2#32 ∧ t.threadState = 3#32 ∧ s.nextTurn.agent = .host ∧ t.busOwner = .engine) ∨
    (s.threadState = 3#32 ∧ t.threadState = 0#32 ∧ s.nextTurn.agent = .engine ∧ t.busOwner = .host)

/-- R38 (c), (d), (e), R57, R92: from every safe state, a request flag is cleared only by the ENGINE at (FN, STEP) = (2,
S9); the subframe buffers change only there and at ENG.START; WCON changes only there, or by the HOST while the engine
is not Running. That a turn performs actions of one operation only, the one SEQ encodes as it begins, is the model's
choice (log 4); a HOST that writes WCON while Running is refused (log 14). -/
def Obligations.BoundaryOnly : Prop :=
  ∀ s t : State, s.safe → step s = .next t →
    (∀ f, (f = .copyPending ∨ f = .pendingCmd ∨ f = .contrastPending) → s.flag f ≠ 0#32 → t.flag f = 0#32 →
      s.nextTurn.agent = .engine ∧ s.fn = 2#2 ∧ s.stepCode = posCode .s9) ∧
    ((t.sf0 ≠ s.sf0 ∨ t.sf1 ≠ s.sf1 ∨ t.sf2 ≠ s.sf2) →
      s.nextTurn.agent = .engine ∧ ((s.fn = 2#2 ∧ s.stepCode = posCode .s9) ∨ s.stepCode = posCode .start)) ∧
    (t.wcon ≠ s.wcon →
      (s.nextTurn.agent = .engine ∧ s.fn = 2#2 ∧ s.stepCode = posCode .s9) ∨
      (s.nextTurn.agent = .host ∧ s.threadState ≠ 2#32))

/-- R38 (f), R56, R163: the trace only ever grows at its end, and what a step from a safe state adds is written by the
owner of the bus port. A step is a turn of one agent (log 4); a HOST that breaks this is refused (log 14); who owns the
port in Starting is log 29. -/
def Obligations.SingleBusWriter : Prop :=
  ∀ s t : State, step s = .next t →
    ∃ added, t.trace = s.trace ++ added ∧ (s.safe → added ≠ [] → s.nextTurn.agent = s.busOwner)

/-- R10, R35, R50, R120: what each agent writes. No step changes a parameter. From a safe state: the ENGINE writes no
plane, PCMD, PCON, BRIGHT or INVERT, only clears request flags, writes THREAD_STATE only Running and Stopped, and the
bus (DC, BI, the trace) only while it owns the port. The HOST writes no subframe buffer and no register of the ENGINE
but by launching it, only sets request flags, writes THREAD_STATE only Starting and Stopping, PCMD and PCON only while
their flag is clear, WCON only while THREAD_STATE is Stopped, and the bus, with BI (R30) for its own groups, only while
it owns the port. A step is a turn (log 4), a parameter is in the field `cfg` (log 10), a HOST that breaks its rights is
refused (log 14), and who owns the port in Starting is log 29. -/
def Obligations.AgentRights : Prop :=
  ∀ s t : State, step s = .next t →
    t.cfg = s.cfg ∧
    (s.safe → s.nextTurn.agent = .engine →
      t.planeA = s.planeA ∧ t.planeB = s.planeB ∧ t.pcmd = s.pcmd ∧ t.pcon = s.pcon ∧ t.bright = s.bright ∧
      t.invert = s.invert ∧ t.hostWork = s.hostWork ∧ t.hostProg = s.hostProg ∧ t.result = s.result ∧
      (t.copyPending = s.copyPending ∨ t.copyPending = 0#32) ∧ (t.pendingCmd = s.pendingCmd ∨ t.pendingCmd = 0#32) ∧
      (t.contrastPending = s.contrastPending ∨ t.contrastPending = 0#32) ∧
      (t.threadState = s.threadState ∨ t.threadState = 2#32 ∨ t.threadState = 0#32) ∧
      (s.busOwner = .host → t.dc = s.dc ∧ t.bi = s.bi ∧ t.trace = s.trace)) ∧
    (s.safe → s.nextTurn.agent = .host →
      t.sf0 = s.sf0 ∧ t.sf1 = s.sf1 ∧ t.sf2 = s.sf2 ∧ t.dl = s.dl ∧ t.wi = s.wi ∧ t.mask = s.mask ∧ t.v1 = s.v1 ∧
      t.v2 = s.v2 ∧ t.engWork = s.engWork ∧
      ((t.fn = s.fn ∧ t.stepCode = s.stepCode) ∨
        (s.stepCode = posCode .idle ∧ t.fn = 0#2 ∧ t.stepCode = posCode .start)) ∧
      (t.copyPending = s.copyPending ∨ t.copyPending = 1#32) ∧ (t.pendingCmd = s.pendingCmd ∨ t.pendingCmd = 1#32) ∧
      (t.contrastPending = s.contrastPending ∨ t.contrastPending = 1#32) ∧
      (t.threadState = s.threadState ∨ t.threadState = 1#32 ∨ t.threadState = 3#32) ∧
      (s.pendingCmd ≠ 0#32 → t.pcmd = s.pcmd) ∧ (s.contrastPending ≠ 0#32 → t.pcon = s.pcon) ∧
      (s.threadState ≠ 0#32 → t.wcon = s.wcon) ∧
      (s.busOwner = .engine → t.dc = s.dc ∧ t.bi = s.bi ∧ t.trace = s.trace))

/-- R98: no rule uses a received value. Two states that differ only in the values of the bytes received step to
states that differ in nothing else, and stop alike. -/
def Obligations.ReceivedBytesUnused : Prop :=
  ∀ s u : State, sameButReceived s u → outcomesButReceived (step s) (step u)

/-- R78, R114, R201, as a script of 31 turns (`cycleTurns`): an outer cycle of the running engine from ENG.CHECK puts on
the trace three iterations of PARK, FRAME, CONTRAST, RESTORE, CONTRAST with the subframe buffers and the contrast table
as they stood at its start (with nothing left in the receiver), then PCMD if the command channel is served, and comes
back to ENG.CHECK. The inputs let every poll succeed, the TIMER reach each deadline, and the HOST take no turn; how an
outer cycle is cut into turns is the model's choice (log 4). So is a TICK that stands still within a turn (log 25). -/
def Obligations.OuterCycleTrace : Prop :=
  ∀ (s : State) (n : Nat) (rest : List Turn),
    paramsOk s.cfg = true → s.threadState = 2#32 → s.fn = 0#2 → s.stepCode = posCode .check →
    s.engWork = [] → s.rxq = [] → s.inputs = cycleTurns s.cfg n ++ rest →
    passBudget s.cfg + 3 * (s.cfg.planeBytes + s.cfg.pcmdLen) + 40 ≤ n →
    ∃ t, core.run 31 s = .next t ∧ t.fn = 0#2 ∧ t.stepCode = posCode .check ∧ t.engWork = [] ∧ t.inputs = rest ∧
      (s.commandServed → t.trace = s.trace ++ outerCycle s ++ traceOf false (Memory.bytes s.pcmd s.cfg.pcmdLen)) ∧
      (¬ s.commandServed → t.trace = s.trace ++ outerCycle s)

/-- R206: every data-mode group is a whole frame. From every safe state a step keeps the data bytes sent, together with
those of the group in progress, a multiple of PLANE_BYTES; so between operations the GDRAM write position is at the
start of its window, under the launch premise of R196. That premise stands outside the model (log 17). That the bytes of
a group are taken when it begins is the model's choice (log 28). -/
def Obligations.WholeFrames : Prop :=
  (∀ s t : State, s.safe → s.framesWhole → step s = .next t → t.framesWhole) ∧
  (∀ s : State, s.framesWhole → s.hostWork = [] → s.engWork = [] → gdramPosition s.cfg s.trace = 0)
end

