-- ==== Sys2Proof/Laws/Memory.lean ====
section
/-! SUPPORT. The laws of memory: read after write, and that every operation keeps the canonical form. -/

namespace Sys2Proof.Machine

@[simp] theorem Memory.read_nil (a : Nat) : Memory.read [] a = Memory.unlisted := rfl

/-- An offset below every listed one is unlisted. -/
theorem Memory.read_of_wfFrom_lt {lo a : Nat} {m : Memory} (h : Memory.wfFrom lo m = true) (ha : a < lo) :
    Memory.read m a = Memory.unlisted := by
  induction m generalizing lo with
  | nil => rfl
  | cons c m ih =>
    obtain ⟨b, v⟩ := c
    simp only [Memory.wfFrom, Bool.and_eq_true, decide_eq_true_eq] at h
    have hne : a ≠ b := by omega
    simp only [Memory.read, hne, if_false]
    exact ih h.2 (by omega)

theorem Memory.wfFrom_mono {lo lo' : Nat} {m : Memory} (h : Memory.wfFrom lo m = true) (hl : lo' ≤ lo) :
    Memory.wfFrom lo' m = true := by
  cases m with
  | nil => rfl
  | cons c m =>
    obtain ⟨b, v⟩ := c
    simp only [Memory.wfFrom, Bool.and_eq_true, decide_eq_true_eq] at h ⊢
    exact ⟨⟨by omega, h.1.2⟩, h.2⟩

/-- The read after a write, at every offset. -/
theorem Memory.read_write_from {lo : Nat} {m : Memory} (h : Memory.wfFrom lo m = true) (a b : Nat) (v : Byte) :
    Memory.read (Memory.write m a v) b = if b = a then v else Memory.read m b := by
  induction m generalizing lo with
  | nil =>
    by_cases hv : v = Memory.unlisted <;> by_cases hb : b = a <;> simp [Memory.write, Memory.read, hv, hb]
  | cons c m ih =>
    obtain ⟨k, w⟩ := c
    have hw := h
    simp only [Memory.wfFrom, Bool.and_eq_true, decide_eq_true_eq] at h
    have hbelow : ∀ x, x ≤ k → x ≠ k → Memory.read ((k, w) :: m) x = Memory.unlisted := by
      intro x hx hxk
      simp only [Memory.read, hxk, if_false]
      exact Memory.read_of_wfFrom_lt h.2 (by omega)
    by_cases hlt : a < k
    · by_cases hv : v = Memory.unlisted
      · simp only [Memory.write, hlt, if_true, hv]
        split
        · next hb => rw [hb]; exact hbelow a (by omega) (by omega)
        · rfl
      · simp only [Memory.write, hlt, if_true, hv, if_false, Memory.read]
    · by_cases heq : a = k
      · subst heq
        by_cases hv : v = Memory.unlisted
        · simp only [Memory.write, hlt, if_false, if_true, hv, Memory.read]
          split
          · next hb => rw [hb]; exact Memory.read_of_wfFrom_lt h.2 (by omega)
          · rfl
        · simp only [Memory.write, hlt, if_false, if_true, hv, Memory.read]
          split <;> rfl
      · simp only [Memory.write, hlt, heq, if_false, Memory.read]
        by_cases hbk : b = k
        · have : b ≠ a := by omega
          simp [hbk, show k ≠ a by omega]
        · simp only [hbk, if_false]
          exact ih h.2

theorem Memory.read_write {m : Memory} (h : Memory.wf m = true) (a b : Nat) (v : Byte) :
    Memory.read (Memory.write m a v) b = if b = a then v else Memory.read m b :=
  Memory.read_write_from h a b v

theorem Memory.wfFrom_write {lo : Nat} {m : Memory} (h : Memory.wfFrom lo m = true) {a : Nat} (ha : lo ≤ a) (v : Byte) :
    Memory.wfFrom lo (Memory.write m a v) = true := by
  induction m generalizing lo with
  | nil =>
    by_cases hv : v = Memory.unlisted <;> simp [Memory.write, Memory.wfFrom, hv, ha]
  | cons c m ih =>
    obtain ⟨k, w⟩ := c
    have hw := h
    simp only [Memory.wfFrom, Bool.and_eq_true, decide_eq_true_eq] at h
    by_cases hlt : a < k
    · by_cases hv : v = Memory.unlisted
      · simpa only [Memory.write, hlt, if_true, hv] using hw
      · have h1 : Memory.wfFrom (a + 1) ((k, w) :: m) = true := by
          simp only [Memory.wfFrom, Bool.and_eq_true, decide_eq_true_eq]
          exact ⟨⟨by omega, h.1.2⟩, h.2⟩
        simp only [Memory.write, hlt, if_true, hv, if_false]
        rw [Memory.wfFrom]
        simp [ha, hv, h1]
    · by_cases heq : a = k
      · subst heq
        by_cases hv : v = Memory.unlisted
        · simp only [Memory.write, hlt, if_false, if_true, hv]
          exact Memory.wfFrom_mono h.2 (by omega)
        · simp only [Memory.write, hlt, if_false, if_true, hv]
          rw [Memory.wfFrom]
          simp [ha, hv, h.2]
      · simp only [Memory.write, hlt, heq, if_false]
        rw [Memory.wfFrom]
        simp only [Bool.and_eq_true, decide_eq_true_eq]
        exact ⟨h.1, ih h.2 (by omega)⟩

/-- A write keeps the canonical form. -/
theorem Memory.wf_write {m : Memory} (h : Memory.wf m = true) (a : Nat) (v : Byte) :
    Memory.wf (Memory.write m a v) = true :=
  Memory.wfFrom_write h (Nat.zero_le a) v

theorem Memory.wf_writeWord {m : Memory} (h : Memory.wf m = true) (a : Nat) (w : Word) :
    Memory.wf (Memory.writeWord m a w) = true :=
  Memory.wf_write (Memory.wf_write (Memory.wf_write (Memory.wf_write h _ _) _ _) _ _) _ _

/-- A write inside a region leaves every listed offset inside it. -/
theorem Memory.below_write {n : Nat} {m : Memory} (h : Memory.below n m = true) {a : Nat} (ha : a < n) (v : Byte) :
    Memory.below n (Memory.write m a v) = true := by
  induction m with
  | nil => by_cases hv : v = Memory.unlisted <;> simp [Memory.write, Memory.below, hv, ha]
  | cons c m ih =>
    obtain ⟨k, w⟩ := c
    simp only [Memory.below, List.all_cons, Bool.and_eq_true, decide_eq_true_eq] at h ih ⊢
    simp only [Memory.write]
    split_ifs <;> simp_all <;> first | exact h.2 | exact ih

theorem Memory.below_writeWord {n : Nat} {m : Memory} (h : Memory.below n m = true) {a : Nat} (ha : a + 4 ≤ n)
    (w : Word) : Memory.below n (Memory.writeWord m a w) = true :=
  Memory.below_write (Memory.below_write (Memory.below_write (Memory.below_write h (by omega) _) (by omega) _)
    (by omega) _) (by omega) _

/-- What every offset reads as after a word is written. -/
theorem Memory.read_writeWord {m : Memory} (h : Memory.wf m = true) (a b : Nat) (w : Word) :
    Memory.read (Memory.writeWord m a w) b =
      if b = a + 3 then wordByte w 3 else if b = a + 2 then wordByte w 2
      else if b = a + 1 then wordByte w 1 else if b = a then wordByte w 0 else Memory.read m b := by
  have h0 := Memory.wf_write h a (wordByte w 0)
  have h1 := Memory.wf_write h0 (a + 1) (wordByte w 1)
  have h2 := Memory.wf_write h1 (a + 2) (wordByte w 2)
  simp only [Memory.writeWord, Memory.read_write h2, Memory.read_write h1, Memory.read_write h0, Memory.read_write h]

/-- R44: byte k of a word read from memory is the byte at offset k. -/
theorem Memory.wordByte_readWord (m : Memory) (a k : Nat) (hk : k < 4) :
    wordByte (Memory.readWord m a) k = Memory.read m (a + k) := by
  have hlt := fun x => (Memory.read m x).isLt
  interval_cases k <;>
    (apply BitVec.eq_of_getLsbD_eq
     intro i hi
     simp only [wordByte, Memory.readWord, BitVec.getLsbD_extractLsb', BitVec.getLsbD_append]
     simp [hi]
     try (split_ifs <;> first
       | rfl
       | omega
       | (rw [← BitVec.getLsbD_eq_getElem]; congr 1; omega)))

@[simp] theorem Memory.length_bytes (m : Memory) (n : Nat) : (Memory.bytes m n).length = n := by
  simp [Memory.bytes]

theorem Memory.getElem_bytes (m : Memory) (n i : Nat) (h : i < n) :
    (Memory.bytes m n)[i]? = some (Memory.read m i) := by
  simp [Memory.bytes, h]

end Sys2Proof.Machine
end

