-- ==== Sys2Proof/Laws/State.lean ====
section
/-! SUPPORT. One lemma for each field and each named update of State: what the update does to that field. -/

namespace Sys2Proof.Machine

/-! ### setWork -/

@[simp] theorem State.setWork_cfg (s : State) (a : Agent) (ts : List Task) : (s.setWork a ts).cfg = s.cfg := by cases a <;> rfl
@[simp] theorem State.setWork_threadState (s : State) (a : Agent) (ts : List Task) : (s.setWork a ts).threadState = s.threadState := by cases a <;> rfl
@[simp] theorem State.setWork_copyPending (s : State) (a : Agent) (ts : List Task) : (s.setWork a ts).copyPending = s.copyPending := by cases a <;> rfl
@[simp] theorem State.setWork_pendingCmd (s : State) (a : Agent) (ts : List Task) : (s.setWork a ts).pendingCmd = s.pendingCmd := by cases a <;> rfl
@[simp] theorem State.setWork_contrastPending (s : State) (a : Agent) (ts : List Task) : (s.setWork a ts).contrastPending = s.contrastPending := by cases a <;> rfl
@[simp] theorem State.setWork_invert (s : State) (a : Agent) (ts : List Task) : (s.setWork a ts).invert = s.invert := by cases a <;> rfl
@[simp] theorem State.setWork_planeA (s : State) (a : Agent) (ts : List Task) : (s.setWork a ts).planeA = s.planeA := by cases a <;> rfl
@[simp] theorem State.setWork_planeB (s : State) (a : Agent) (ts : List Task) : (s.setWork a ts).planeB = s.planeB := by cases a <;> rfl
@[simp] theorem State.setWork_pcmd (s : State) (a : Agent) (ts : List Task) : (s.setWork a ts).pcmd = s.pcmd := by cases a <;> rfl
@[simp] theorem State.setWork_pcon (s : State) (a : Agent) (ts : List Task) : (s.setWork a ts).pcon = s.pcon := by cases a <;> rfl
@[simp] theorem State.setWork_wcon (s : State) (a : Agent) (ts : List Task) : (s.setWork a ts).wcon = s.wcon := by cases a <;> rfl
@[simp] theorem State.setWork_bright (s : State) (a : Agent) (ts : List Task) : (s.setWork a ts).bright = s.bright := by cases a <;> rfl
@[simp] theorem State.setWork_sf0 (s : State) (a : Agent) (ts : List Task) : (s.setWork a ts).sf0 = s.sf0 := by cases a <;> rfl
@[simp] theorem State.setWork_sf1 (s : State) (a : Agent) (ts : List Task) : (s.setWork a ts).sf1 = s.sf1 := by cases a <;> rfl
@[simp] theorem State.setWork_sf2 (s : State) (a : Agent) (ts : List Task) : (s.setWork a ts).sf2 = s.sf2 := by cases a <;> rfl
@[simp] theorem State.setWork_fn (s : State) (a : Agent) (ts : List Task) : (s.setWork a ts).fn = s.fn := by cases a <;> rfl
@[simp] theorem State.setWork_stepCode (s : State) (a : Agent) (ts : List Task) : (s.setWork a ts).stepCode = s.stepCode := by cases a <;> rfl
@[simp] theorem State.setWork_dl (s : State) (a : Agent) (ts : List Task) : (s.setWork a ts).dl = s.dl := by cases a <;> rfl
@[simp] theorem State.setWork_wi (s : State) (a : Agent) (ts : List Task) : (s.setWork a ts).wi = s.wi := by cases a <;> rfl
@[simp] theorem State.setWork_mask (s : State) (a : Agent) (ts : List Task) : (s.setWork a ts).mask = s.mask := by cases a <;> rfl
@[simp] theorem State.setWork_v1 (s : State) (a : Agent) (ts : List Task) : (s.setWork a ts).v1 = s.v1 := by cases a <;> rfl
@[simp] theorem State.setWork_v2 (s : State) (a : Agent) (ts : List Task) : (s.setWork a ts).v2 = s.v2 := by cases a <;> rfl
@[simp] theorem State.setWork_bi (s : State) (a : Agent) (ts : List Task) : (s.setWork a ts).bi = s.bi := by cases a <;> rfl
@[simp] theorem State.setWork_dc (s : State) (a : Agent) (ts : List Task) : (s.setWork a ts).dc = s.dc := by cases a <;> rfl
@[simp] theorem State.setWork_trace (s : State) (a : Agent) (ts : List Task) : (s.setWork a ts).trace = s.trace := by cases a <;> rfl
@[simp] theorem State.setWork_tnf (s : State) (a : Agent) (ts : List Task) : (s.setWork a ts).tnf = s.tnf := by cases a <;> rfl
@[simp] theorem State.setWork_bsy (s : State) (a : Agent) (ts : List Task) : (s.setWork a ts).bsy = s.bsy := by cases a <;> rfl
@[simp] theorem State.setWork_rxq (s : State) (a : Agent) (ts : List Task) : (s.setWork a ts).rxq = s.rxq := by cases a <;> rfl
@[simp] theorem State.setWork_tick (s : State) (a : Agent) (ts : List Task) : (s.setWork a ts).tick = s.tick := by cases a <;> rfl
@[simp] theorem State.setWork_hostProg (s : State) (a : Agent) (ts : List Task) : (s.setWork a ts).hostProg = s.hostProg := by cases a <;> rfl
@[simp] theorem State.setWork_result (s : State) (a : Agent) (ts : List Task) : (s.setWork a ts).result = s.result := by cases a <;> rfl
@[simp] theorem State.setWork_races (s : State) (a : Agent) (ts : List Task) : (s.setWork a ts).races = s.races := by cases a <;> rfl
@[simp] theorem State.setWork_inputs (s : State) (a : Agent) (ts : List Task) : (s.setWork a ts).inputs = s.inputs := by cases a <;> rfl
@[simp] theorem State.setWork_turnNo (s : State) (a : Agent) (ts : List Task) : (s.setWork a ts).turnNo = s.turnNo := by cases a <;> rfl
@[simp] theorem State.setWork_budget (s : State) (a : Agent) (ts : List Task) : (s.setWork a ts).budget = s.budget := by cases a <;> rfl
@[simp] theorem State.setWork_age (s : State) (a : Agent) (ts : List Task) : (s.setWork a ts).age = s.age := by cases a <;> rfl

@[simp] theorem State.work_setWork (s : State) (a : Agent) (ts : List Task) : (s.setWork a ts).work a = ts := by
  cases a <;> rfl
@[simp] theorem State.setWork_setWork (s : State) (a : Agent) (ts us : List Task) :
    (s.setWork a ts).setWork a us = s.setWork a us := by cases a <;> rfl
@[simp] theorem State.setWork_work (s : State) (a : Agent) : s.setWork a (s.work a) = s := by cases a <;> rfl
@[simp] theorem State.work_host (s : State) : s.work .host = s.hostWork := rfl
@[simp] theorem State.work_engine (s : State) : s.work .engine = s.engWork := rfl
theorem State.setWork_host (s : State) (ts : List Task) : s.setWork .host ts = { s with hostWork := ts } := rfl
theorem State.setWork_engine (s : State) (ts : List Task) : s.setWork .engine ts = { s with engWork := ts } := rfl
@[simp] theorem State.push_nil (s : State) (a : Agent) : s.push a [] = s := by cases a <;> rfl
theorem State.push_eq (s : State) (a : Agent) (ts : List Task) : s.push a ts = s.setWork a (ts ++ s.work a) := rfl
@[simp] theorem State.work_push (s : State) (a : Agent) (ts : List Task) : (s.push a ts).work a = ts ++ s.work a := by
  cases a <;> rfl
@[simp] theorem State.mayDriveBus_owner (s : State) : s.mayDriveBus s.busOwner = true := by
  unfold State.mayDriveBus
  split
  · rfl
  · next h => simp [h]
@[simp] theorem State.mayDriveBus_engine (s : State) : s.mayDriveBus .engine = true := rfl

/-! ### push -/

@[simp] theorem State.push_cfg (s : State) (a : Agent) (ts : List Task) : (s.push a ts).cfg = s.cfg := by cases a <;> rfl
@[simp] theorem State.push_threadState (s : State) (a : Agent) (ts : List Task) : (s.push a ts).threadState = s.threadState := by cases a <;> rfl
@[simp] theorem State.push_copyPending (s : State) (a : Agent) (ts : List Task) : (s.push a ts).copyPending = s.copyPending := by cases a <;> rfl
@[simp] theorem State.push_pendingCmd (s : State) (a : Agent) (ts : List Task) : (s.push a ts).pendingCmd = s.pendingCmd := by cases a <;> rfl
@[simp] theorem State.push_contrastPending (s : State) (a : Agent) (ts : List Task) : (s.push a ts).contrastPending = s.contrastPending := by cases a <;> rfl
@[simp] theorem State.push_invert (s : State) (a : Agent) (ts : List Task) : (s.push a ts).invert = s.invert := by cases a <;> rfl
@[simp] theorem State.push_planeA (s : State) (a : Agent) (ts : List Task) : (s.push a ts).planeA = s.planeA := by cases a <;> rfl
@[simp] theorem State.push_planeB (s : State) (a : Agent) (ts : List Task) : (s.push a ts).planeB = s.planeB := by cases a <;> rfl
@[simp] theorem State.push_pcmd (s : State) (a : Agent) (ts : List Task) : (s.push a ts).pcmd = s.pcmd := by cases a <;> rfl
@[simp] theorem State.push_pcon (s : State) (a : Agent) (ts : List Task) : (s.push a ts).pcon = s.pcon := by cases a <;> rfl
@[simp] theorem State.push_wcon (s : State) (a : Agent) (ts : List Task) : (s.push a ts).wcon = s.wcon := by cases a <;> rfl
@[simp] theorem State.push_bright (s : State) (a : Agent) (ts : List Task) : (s.push a ts).bright = s.bright := by cases a <;> rfl
@[simp] theorem State.push_sf0 (s : State) (a : Agent) (ts : List Task) : (s.push a ts).sf0 = s.sf0 := by cases a <;> rfl
@[simp] theorem State.push_sf1 (s : State) (a : Agent) (ts : List Task) : (s.push a ts).sf1 = s.sf1 := by cases a <;> rfl
@[simp] theorem State.push_sf2 (s : State) (a : Agent) (ts : List Task) : (s.push a ts).sf2 = s.sf2 := by cases a <;> rfl
@[simp] theorem State.push_fn (s : State) (a : Agent) (ts : List Task) : (s.push a ts).fn = s.fn := by cases a <;> rfl
@[simp] theorem State.push_stepCode (s : State) (a : Agent) (ts : List Task) : (s.push a ts).stepCode = s.stepCode := by cases a <;> rfl
@[simp] theorem State.push_dl (s : State) (a : Agent) (ts : List Task) : (s.push a ts).dl = s.dl := by cases a <;> rfl
@[simp] theorem State.push_wi (s : State) (a : Agent) (ts : List Task) : (s.push a ts).wi = s.wi := by cases a <;> rfl
@[simp] theorem State.push_mask (s : State) (a : Agent) (ts : List Task) : (s.push a ts).mask = s.mask := by cases a <;> rfl
@[simp] theorem State.push_v1 (s : State) (a : Agent) (ts : List Task) : (s.push a ts).v1 = s.v1 := by cases a <;> rfl
@[simp] theorem State.push_v2 (s : State) (a : Agent) (ts : List Task) : (s.push a ts).v2 = s.v2 := by cases a <;> rfl
@[simp] theorem State.push_bi (s : State) (a : Agent) (ts : List Task) : (s.push a ts).bi = s.bi := by cases a <;> rfl
@[simp] theorem State.push_dc (s : State) (a : Agent) (ts : List Task) : (s.push a ts).dc = s.dc := by cases a <;> rfl
@[simp] theorem State.push_trace (s : State) (a : Agent) (ts : List Task) : (s.push a ts).trace = s.trace := by cases a <;> rfl
@[simp] theorem State.push_tnf (s : State) (a : Agent) (ts : List Task) : (s.push a ts).tnf = s.tnf := by cases a <;> rfl
@[simp] theorem State.push_bsy (s : State) (a : Agent) (ts : List Task) : (s.push a ts).bsy = s.bsy := by cases a <;> rfl
@[simp] theorem State.push_rxq (s : State) (a : Agent) (ts : List Task) : (s.push a ts).rxq = s.rxq := by cases a <;> rfl
@[simp] theorem State.push_tick (s : State) (a : Agent) (ts : List Task) : (s.push a ts).tick = s.tick := by cases a <;> rfl
@[simp] theorem State.push_hostProg (s : State) (a : Agent) (ts : List Task) : (s.push a ts).hostProg = s.hostProg := by cases a <;> rfl
@[simp] theorem State.push_result (s : State) (a : Agent) (ts : List Task) : (s.push a ts).result = s.result := by cases a <;> rfl
@[simp] theorem State.push_races (s : State) (a : Agent) (ts : List Task) : (s.push a ts).races = s.races := by cases a <;> rfl
@[simp] theorem State.push_inputs (s : State) (a : Agent) (ts : List Task) : (s.push a ts).inputs = s.inputs := by cases a <;> rfl
@[simp] theorem State.push_turnNo (s : State) (a : Agent) (ts : List Task) : (s.push a ts).turnNo = s.turnNo := by cases a <;> rfl
@[simp] theorem State.push_budget (s : State) (a : Agent) (ts : List Task) : (s.push a ts).budget = s.budget := by cases a <;> rfl
@[simp] theorem State.push_age (s : State) (a : Agent) (ts : List Task) : (s.push a ts).age = s.age := by cases a <;> rfl

/-! ### setFlag -/

@[simp] theorem State.setFlag_cfg (s : State) (f : Flag) (v : Word) : (s.setFlag f v).cfg = s.cfg := by cases f <;> rfl
@[simp] theorem State.setFlag_planeA (s : State) (f : Flag) (v : Word) : (s.setFlag f v).planeA = s.planeA := by cases f <;> rfl
@[simp] theorem State.setFlag_planeB (s : State) (f : Flag) (v : Word) : (s.setFlag f v).planeB = s.planeB := by cases f <;> rfl
@[simp] theorem State.setFlag_pcmd (s : State) (f : Flag) (v : Word) : (s.setFlag f v).pcmd = s.pcmd := by cases f <;> rfl
@[simp] theorem State.setFlag_pcon (s : State) (f : Flag) (v : Word) : (s.setFlag f v).pcon = s.pcon := by cases f <;> rfl
@[simp] theorem State.setFlag_wcon (s : State) (f : Flag) (v : Word) : (s.setFlag f v).wcon = s.wcon := by cases f <;> rfl
@[simp] theorem State.setFlag_bright (s : State) (f : Flag) (v : Word) : (s.setFlag f v).bright = s.bright := by cases f <;> rfl
@[simp] theorem State.setFlag_sf0 (s : State) (f : Flag) (v : Word) : (s.setFlag f v).sf0 = s.sf0 := by cases f <;> rfl
@[simp] theorem State.setFlag_sf1 (s : State) (f : Flag) (v : Word) : (s.setFlag f v).sf1 = s.sf1 := by cases f <;> rfl
@[simp] theorem State.setFlag_sf2 (s : State) (f : Flag) (v : Word) : (s.setFlag f v).sf2 = s.sf2 := by cases f <;> rfl
@[simp] theorem State.setFlag_fn (s : State) (f : Flag) (v : Word) : (s.setFlag f v).fn = s.fn := by cases f <;> rfl
@[simp] theorem State.setFlag_stepCode (s : State) (f : Flag) (v : Word) : (s.setFlag f v).stepCode = s.stepCode := by cases f <;> rfl
@[simp] theorem State.setFlag_dl (s : State) (f : Flag) (v : Word) : (s.setFlag f v).dl = s.dl := by cases f <;> rfl
@[simp] theorem State.setFlag_wi (s : State) (f : Flag) (v : Word) : (s.setFlag f v).wi = s.wi := by cases f <;> rfl
@[simp] theorem State.setFlag_mask (s : State) (f : Flag) (v : Word) : (s.setFlag f v).mask = s.mask := by cases f <;> rfl
@[simp] theorem State.setFlag_v1 (s : State) (f : Flag) (v : Word) : (s.setFlag f v).v1 = s.v1 := by cases f <;> rfl
@[simp] theorem State.setFlag_v2 (s : State) (f : Flag) (v : Word) : (s.setFlag f v).v2 = s.v2 := by cases f <;> rfl
@[simp] theorem State.setFlag_bi (s : State) (f : Flag) (v : Word) : (s.setFlag f v).bi = s.bi := by cases f <;> rfl
@[simp] theorem State.setFlag_dc (s : State) (f : Flag) (v : Word) : (s.setFlag f v).dc = s.dc := by cases f <;> rfl
@[simp] theorem State.setFlag_trace (s : State) (f : Flag) (v : Word) : (s.setFlag f v).trace = s.trace := by cases f <;> rfl
@[simp] theorem State.setFlag_tnf (s : State) (f : Flag) (v : Word) : (s.setFlag f v).tnf = s.tnf := by cases f <;> rfl
@[simp] theorem State.setFlag_bsy (s : State) (f : Flag) (v : Word) : (s.setFlag f v).bsy = s.bsy := by cases f <;> rfl
@[simp] theorem State.setFlag_rxq (s : State) (f : Flag) (v : Word) : (s.setFlag f v).rxq = s.rxq := by cases f <;> rfl
@[simp] theorem State.setFlag_tick (s : State) (f : Flag) (v : Word) : (s.setFlag f v).tick = s.tick := by cases f <;> rfl
@[simp] theorem State.setFlag_engWork (s : State) (f : Flag) (v : Word) : (s.setFlag f v).engWork = s.engWork := by cases f <;> rfl
@[simp] theorem State.setFlag_hostWork (s : State) (f : Flag) (v : Word) : (s.setFlag f v).hostWork = s.hostWork := by cases f <;> rfl
@[simp] theorem State.setFlag_hostProg (s : State) (f : Flag) (v : Word) : (s.setFlag f v).hostProg = s.hostProg := by cases f <;> rfl
@[simp] theorem State.setFlag_result (s : State) (f : Flag) (v : Word) : (s.setFlag f v).result = s.result := by cases f <;> rfl
@[simp] theorem State.setFlag_races (s : State) (f : Flag) (v : Word) : (s.setFlag f v).races = s.races := by cases f <;> rfl
@[simp] theorem State.setFlag_inputs (s : State) (f : Flag) (v : Word) : (s.setFlag f v).inputs = s.inputs := by cases f <;> rfl
@[simp] theorem State.setFlag_turnNo (s : State) (f : Flag) (v : Word) : (s.setFlag f v).turnNo = s.turnNo := by cases f <;> rfl
@[simp] theorem State.setFlag_budget (s : State) (f : Flag) (v : Word) : (s.setFlag f v).budget = s.budget := by cases f <;> rfl
@[simp] theorem State.setFlag_age (s : State) (f : Flag) (v : Word) : (s.setFlag f v).age = s.age := by cases f <;> rfl

@[simp] theorem State.flag_setFlag (s : State) (f : Flag) (v : Word) : (s.setFlag f v).flag f = v := by cases f <;> rfl
theorem State.flag_setFlag_ne (s : State) {f g : Flag} (v : Word) (h : g ≠ f) : (s.setFlag f v).flag g = s.flag g := by
  cases f <;> cases g <;> simp_all [State.setFlag, State.flag]

/-! ### writeFlag -/

@[simp] theorem State.writeFlag_cfg (s : State) (a : Agent) (f : Flag) (v : Word) : (s.writeFlag a f v).cfg = s.cfg := by cases f <;> rfl
@[simp] theorem State.writeFlag_planeA (s : State) (a : Agent) (f : Flag) (v : Word) : (s.writeFlag a f v).planeA = s.planeA := by cases f <;> rfl
@[simp] theorem State.writeFlag_planeB (s : State) (a : Agent) (f : Flag) (v : Word) : (s.writeFlag a f v).planeB = s.planeB := by cases f <;> rfl
@[simp] theorem State.writeFlag_pcmd (s : State) (a : Agent) (f : Flag) (v : Word) : (s.writeFlag a f v).pcmd = s.pcmd := by cases f <;> rfl
@[simp] theorem State.writeFlag_pcon (s : State) (a : Agent) (f : Flag) (v : Word) : (s.writeFlag a f v).pcon = s.pcon := by cases f <;> rfl
@[simp] theorem State.writeFlag_wcon (s : State) (a : Agent) (f : Flag) (v : Word) : (s.writeFlag a f v).wcon = s.wcon := by cases f <;> rfl
@[simp] theorem State.writeFlag_bright (s : State) (a : Agent) (f : Flag) (v : Word) : (s.writeFlag a f v).bright = s.bright := by cases f <;> rfl
@[simp] theorem State.writeFlag_sf0 (s : State) (a : Agent) (f : Flag) (v : Word) : (s.writeFlag a f v).sf0 = s.sf0 := by cases f <;> rfl
@[simp] theorem State.writeFlag_sf1 (s : State) (a : Agent) (f : Flag) (v : Word) : (s.writeFlag a f v).sf1 = s.sf1 := by cases f <;> rfl
@[simp] theorem State.writeFlag_sf2 (s : State) (a : Agent) (f : Flag) (v : Word) : (s.writeFlag a f v).sf2 = s.sf2 := by cases f <;> rfl
@[simp] theorem State.writeFlag_fn (s : State) (a : Agent) (f : Flag) (v : Word) : (s.writeFlag a f v).fn = s.fn := by cases f <;> rfl
@[simp] theorem State.writeFlag_stepCode (s : State) (a : Agent) (f : Flag) (v : Word) : (s.writeFlag a f v).stepCode = s.stepCode := by cases f <;> rfl
@[simp] theorem State.writeFlag_dl (s : State) (a : Agent) (f : Flag) (v : Word) : (s.writeFlag a f v).dl = s.dl := by cases f <;> rfl
@[simp] theorem State.writeFlag_wi (s : State) (a : Agent) (f : Flag) (v : Word) : (s.writeFlag a f v).wi = s.wi := by cases f <;> rfl
@[simp] theorem State.writeFlag_mask (s : State) (a : Agent) (f : Flag) (v : Word) : (s.writeFlag a f v).mask = s.mask := by cases f <;> rfl
@[simp] theorem State.writeFlag_v1 (s : State) (a : Agent) (f : Flag) (v : Word) : (s.writeFlag a f v).v1 = s.v1 := by cases f <;> rfl
@[simp] theorem State.writeFlag_v2 (s : State) (a : Agent) (f : Flag) (v : Word) : (s.writeFlag a f v).v2 = s.v2 := by cases f <;> rfl
@[simp] theorem State.writeFlag_bi (s : State) (a : Agent) (f : Flag) (v : Word) : (s.writeFlag a f v).bi = s.bi := by cases f <;> rfl
@[simp] theorem State.writeFlag_dc (s : State) (a : Agent) (f : Flag) (v : Word) : (s.writeFlag a f v).dc = s.dc := by cases f <;> rfl
@[simp] theorem State.writeFlag_trace (s : State) (a : Agent) (f : Flag) (v : Word) : (s.writeFlag a f v).trace = s.trace := by cases f <;> rfl
@[simp] theorem State.writeFlag_tnf (s : State) (a : Agent) (f : Flag) (v : Word) : (s.writeFlag a f v).tnf = s.tnf := by cases f <;> rfl
@[simp] theorem State.writeFlag_bsy (s : State) (a : Agent) (f : Flag) (v : Word) : (s.writeFlag a f v).bsy = s.bsy := by cases f <;> rfl
@[simp] theorem State.writeFlag_rxq (s : State) (a : Agent) (f : Flag) (v : Word) : (s.writeFlag a f v).rxq = s.rxq := by cases f <;> rfl
@[simp] theorem State.writeFlag_tick (s : State) (a : Agent) (f : Flag) (v : Word) : (s.writeFlag a f v).tick = s.tick := by cases f <;> rfl
@[simp] theorem State.writeFlag_engWork (s : State) (a : Agent) (f : Flag) (v : Word) : (s.writeFlag a f v).engWork = s.engWork := by cases f <;> rfl
@[simp] theorem State.writeFlag_hostWork (s : State) (a : Agent) (f : Flag) (v : Word) : (s.writeFlag a f v).hostWork = s.hostWork := by cases f <;> rfl
@[simp] theorem State.writeFlag_hostProg (s : State) (a : Agent) (f : Flag) (v : Word) : (s.writeFlag a f v).hostProg = s.hostProg := by cases f <;> rfl
@[simp] theorem State.writeFlag_result (s : State) (a : Agent) (f : Flag) (v : Word) : (s.writeFlag a f v).result = s.result := by cases f <;> rfl
@[simp] theorem State.writeFlag_inputs (s : State) (a : Agent) (f : Flag) (v : Word) : (s.writeFlag a f v).inputs = s.inputs := by cases f <;> rfl
@[simp] theorem State.writeFlag_turnNo (s : State) (a : Agent) (f : Flag) (v : Word) : (s.writeFlag a f v).turnNo = s.turnNo := by cases f <;> rfl
@[simp] theorem State.writeFlag_budget (s : State) (a : Agent) (f : Flag) (v : Word) : (s.writeFlag a f v).budget = s.budget := by cases f <;> rfl
@[simp] theorem State.writeFlag_age (s : State) (a : Agent) (f : Flag) (v : Word) : (s.writeFlag a f v).age = s.age := by cases f <;> rfl

@[simp] theorem State.flag_writeFlag (s : State) (a : Agent) (f : Flag) (v : Word) : (s.writeFlag a f v).flag f = v := by
  cases f <;> rfl
theorem State.flag_writeFlag_ne (s : State) (a : Agent) {f g : Flag} (v : Word) (h : g ≠ f) :
    (s.writeFlag a f v).flag g = s.flag g := by
  cases f <;> cases g <;> simp_all [State.writeFlag, State.setFlag, State.flag]
@[simp] theorem State.writeFlag_races (s : State) (a : Agent) (f : Flag) (v : Word) :
    (s.writeFlag a f v).races = writeRaces a f s.races := rfl

/-! ### acquire -/

@[simp] theorem State.acquire_cfg (s : State) (f : Flag) : (s.acquire f).cfg = s.cfg := rfl
@[simp] theorem State.acquire_threadState (s : State) (f : Flag) : (s.acquire f).threadState = s.threadState := rfl
@[simp] theorem State.acquire_copyPending (s : State) (f : Flag) : (s.acquire f).copyPending = s.copyPending := rfl
@[simp] theorem State.acquire_pendingCmd (s : State) (f : Flag) : (s.acquire f).pendingCmd = s.pendingCmd := rfl
@[simp] theorem State.acquire_contrastPending (s : State) (f : Flag) : (s.acquire f).contrastPending = s.contrastPending := rfl
@[simp] theorem State.acquire_invert (s : State) (f : Flag) : (s.acquire f).invert = s.invert := rfl
@[simp] theorem State.acquire_planeA (s : State) (f : Flag) : (s.acquire f).planeA = s.planeA := rfl
@[simp] theorem State.acquire_planeB (s : State) (f : Flag) : (s.acquire f).planeB = s.planeB := rfl
@[simp] theorem State.acquire_pcmd (s : State) (f : Flag) : (s.acquire f).pcmd = s.pcmd := rfl
@[simp] theorem State.acquire_pcon (s : State) (f : Flag) : (s.acquire f).pcon = s.pcon := rfl
@[simp] theorem State.acquire_wcon (s : State) (f : Flag) : (s.acquire f).wcon = s.wcon := rfl
@[simp] theorem State.acquire_bright (s : State) (f : Flag) : (s.acquire f).bright = s.bright := rfl
@[simp] theorem State.acquire_sf0 (s : State) (f : Flag) : (s.acquire f).sf0 = s.sf0 := rfl
@[simp] theorem State.acquire_sf1 (s : State) (f : Flag) : (s.acquire f).sf1 = s.sf1 := rfl
@[simp] theorem State.acquire_sf2 (s : State) (f : Flag) : (s.acquire f).sf2 = s.sf2 := rfl
@[simp] theorem State.acquire_fn (s : State) (f : Flag) : (s.acquire f).fn = s.fn := rfl
@[simp] theorem State.acquire_stepCode (s : State) (f : Flag) : (s.acquire f).stepCode = s.stepCode := rfl
@[simp] theorem State.acquire_dl (s : State) (f : Flag) : (s.acquire f).dl = s.dl := rfl
@[simp] theorem State.acquire_wi (s : State) (f : Flag) : (s.acquire f).wi = s.wi := rfl
@[simp] theorem State.acquire_mask (s : State) (f : Flag) : (s.acquire f).mask = s.mask := rfl
@[simp] theorem State.acquire_v1 (s : State) (f : Flag) : (s.acquire f).v1 = s.v1 := rfl
@[simp] theorem State.acquire_v2 (s : State) (f : Flag) : (s.acquire f).v2 = s.v2 := rfl
@[simp] theorem State.acquire_bi (s : State) (f : Flag) : (s.acquire f).bi = s.bi := rfl
@[simp] theorem State.acquire_dc (s : State) (f : Flag) : (s.acquire f).dc = s.dc := rfl
@[simp] theorem State.acquire_trace (s : State) (f : Flag) : (s.acquire f).trace = s.trace := rfl
@[simp] theorem State.acquire_tnf (s : State) (f : Flag) : (s.acquire f).tnf = s.tnf := rfl
@[simp] theorem State.acquire_bsy (s : State) (f : Flag) : (s.acquire f).bsy = s.bsy := rfl
@[simp] theorem State.acquire_rxq (s : State) (f : Flag) : (s.acquire f).rxq = s.rxq := rfl
@[simp] theorem State.acquire_tick (s : State) (f : Flag) : (s.acquire f).tick = s.tick := rfl
@[simp] theorem State.acquire_engWork (s : State) (f : Flag) : (s.acquire f).engWork = s.engWork := rfl
@[simp] theorem State.acquire_hostWork (s : State) (f : Flag) : (s.acquire f).hostWork = s.hostWork := rfl
@[simp] theorem State.acquire_hostProg (s : State) (f : Flag) : (s.acquire f).hostProg = s.hostProg := rfl
@[simp] theorem State.acquire_result (s : State) (f : Flag) : (s.acquire f).result = s.result := rfl
@[simp] theorem State.acquire_inputs (s : State) (f : Flag) : (s.acquire f).inputs = s.inputs := rfl
@[simp] theorem State.acquire_turnNo (s : State) (f : Flag) : (s.acquire f).turnNo = s.turnNo := rfl
@[simp] theorem State.acquire_budget (s : State) (f : Flag) : (s.acquire f).budget = s.budget := rfl
@[simp] theorem State.acquire_age (s : State) (f : Flag) : (s.acquire f).age = s.age := rfl

/-! ### setRegion -/

@[simp] theorem State.setRegion_cfg (s : State) (r : Region) (m : Memory) : (s.setRegion r m).cfg = s.cfg := by unfold State.setRegion; split <;> rfl
@[simp] theorem State.setRegion_threadState (s : State) (r : Region) (m : Memory) : (s.setRegion r m).threadState = s.threadState := by unfold State.setRegion; split <;> rfl
@[simp] theorem State.setRegion_copyPending (s : State) (r : Region) (m : Memory) : (s.setRegion r m).copyPending = s.copyPending := by unfold State.setRegion; split <;> rfl
@[simp] theorem State.setRegion_pendingCmd (s : State) (r : Region) (m : Memory) : (s.setRegion r m).pendingCmd = s.pendingCmd := by unfold State.setRegion; split <;> rfl
@[simp] theorem State.setRegion_contrastPending (s : State) (r : Region) (m : Memory) : (s.setRegion r m).contrastPending = s.contrastPending := by unfold State.setRegion; split <;> rfl
@[simp] theorem State.setRegion_invert (s : State) (r : Region) (m : Memory) : (s.setRegion r m).invert = s.invert := by unfold State.setRegion; split <;> rfl
@[simp] theorem State.setRegion_pcon (s : State) (r : Region) (m : Memory) : (s.setRegion r m).pcon = s.pcon := by unfold State.setRegion; split <;> rfl
@[simp] theorem State.setRegion_wcon (s : State) (r : Region) (m : Memory) : (s.setRegion r m).wcon = s.wcon := by unfold State.setRegion; split <;> rfl
@[simp] theorem State.setRegion_bright (s : State) (r : Region) (m : Memory) : (s.setRegion r m).bright = s.bright := by unfold State.setRegion; split <;> rfl
@[simp] theorem State.setRegion_fn (s : State) (r : Region) (m : Memory) : (s.setRegion r m).fn = s.fn := by unfold State.setRegion; split <;> rfl
@[simp] theorem State.setRegion_stepCode (s : State) (r : Region) (m : Memory) : (s.setRegion r m).stepCode = s.stepCode := by unfold State.setRegion; split <;> rfl
@[simp] theorem State.setRegion_dl (s : State) (r : Region) (m : Memory) : (s.setRegion r m).dl = s.dl := by unfold State.setRegion; split <;> rfl
@[simp] theorem State.setRegion_wi (s : State) (r : Region) (m : Memory) : (s.setRegion r m).wi = s.wi := by unfold State.setRegion; split <;> rfl
@[simp] theorem State.setRegion_mask (s : State) (r : Region) (m : Memory) : (s.setRegion r m).mask = s.mask := by unfold State.setRegion; split <;> rfl
@[simp] theorem State.setRegion_v1 (s : State) (r : Region) (m : Memory) : (s.setRegion r m).v1 = s.v1 := by unfold State.setRegion; split <;> rfl
@[simp] theorem State.setRegion_v2 (s : State) (r : Region) (m : Memory) : (s.setRegion r m).v2 = s.v2 := by unfold State.setRegion; split <;> rfl
@[simp] theorem State.setRegion_bi (s : State) (r : Region) (m : Memory) : (s.setRegion r m).bi = s.bi := by unfold State.setRegion; split <;> rfl
@[simp] theorem State.setRegion_dc (s : State) (r : Region) (m : Memory) : (s.setRegion r m).dc = s.dc := by unfold State.setRegion; split <;> rfl
@[simp] theorem State.setRegion_trace (s : State) (r : Region) (m : Memory) : (s.setRegion r m).trace = s.trace := by unfold State.setRegion; split <;> rfl
@[simp] theorem State.setRegion_tnf (s : State) (r : Region) (m : Memory) : (s.setRegion r m).tnf = s.tnf := by unfold State.setRegion; split <;> rfl
@[simp] theorem State.setRegion_bsy (s : State) (r : Region) (m : Memory) : (s.setRegion r m).bsy = s.bsy := by unfold State.setRegion; split <;> rfl
@[simp] theorem State.setRegion_rxq (s : State) (r : Region) (m : Memory) : (s.setRegion r m).rxq = s.rxq := by unfold State.setRegion; split <;> rfl
@[simp] theorem State.setRegion_tick (s : State) (r : Region) (m : Memory) : (s.setRegion r m).tick = s.tick := by unfold State.setRegion; split <;> rfl
@[simp] theorem State.setRegion_engWork (s : State) (r : Region) (m : Memory) : (s.setRegion r m).engWork = s.engWork := by unfold State.setRegion; split <;> rfl
@[simp] theorem State.setRegion_hostWork (s : State) (r : Region) (m : Memory) : (s.setRegion r m).hostWork = s.hostWork := by unfold State.setRegion; split <;> rfl
@[simp] theorem State.setRegion_hostProg (s : State) (r : Region) (m : Memory) : (s.setRegion r m).hostProg = s.hostProg := by unfold State.setRegion; split <;> rfl
@[simp] theorem State.setRegion_result (s : State) (r : Region) (m : Memory) : (s.setRegion r m).result = s.result := by unfold State.setRegion; split <;> rfl
@[simp] theorem State.setRegion_races (s : State) (r : Region) (m : Memory) : (s.setRegion r m).races = s.races := by unfold State.setRegion; split <;> rfl
@[simp] theorem State.setRegion_inputs (s : State) (r : Region) (m : Memory) : (s.setRegion r m).inputs = s.inputs := by unfold State.setRegion; split <;> rfl
@[simp] theorem State.setRegion_turnNo (s : State) (r : Region) (m : Memory) : (s.setRegion r m).turnNo = s.turnNo := by unfold State.setRegion; split <;> rfl
@[simp] theorem State.setRegion_budget (s : State) (r : Region) (m : Memory) : (s.setRegion r m).budget = s.budget := by unfold State.setRegion; split <;> rfl
@[simp] theorem State.setRegion_age (s : State) (r : Region) (m : Memory) : (s.setRegion r m).age = s.age := by unfold State.setRegion; split <;> rfl

@[simp] theorem State.region_setRegion (s : State) (r : Region) (m : Memory) : (s.setRegion r m).region r = m := by
  rcases r with _ | _ | k | _ <;> try rfl
  fin_cases k <;> rfl
theorem State.region_setRegion_ne (s : State) {r q : Region} (m : Memory) (h : q ≠ r) :
    (s.setRegion r m).region q = s.region q := by
  rcases r with _ | _ | k | _ <;> rcases q with _ | _ | j | _ <;> first
    | exact absurd rfl h
    | rfl
    | (fin_cases k <;> rfl)
    | (fin_cases j <;> rfl)
    | (fin_cases k <;> fin_cases j <;> first | rfl | exact absurd rfl h)

/-! ### beginTurn -/

@[simp] theorem State.beginTurn_cfg (s : State) (t : Turn) : (s.beginTurn t).cfg = s.cfg := rfl
@[simp] theorem State.beginTurn_threadState (s : State) (t : Turn) : (s.beginTurn t).threadState = s.threadState := rfl
@[simp] theorem State.beginTurn_copyPending (s : State) (t : Turn) : (s.beginTurn t).copyPending = s.copyPending := rfl
@[simp] theorem State.beginTurn_pendingCmd (s : State) (t : Turn) : (s.beginTurn t).pendingCmd = s.pendingCmd := rfl
@[simp] theorem State.beginTurn_contrastPending (s : State) (t : Turn) : (s.beginTurn t).contrastPending = s.contrastPending := rfl
@[simp] theorem State.beginTurn_invert (s : State) (t : Turn) : (s.beginTurn t).invert = s.invert := rfl
@[simp] theorem State.beginTurn_planeA (s : State) (t : Turn) : (s.beginTurn t).planeA = s.planeA := rfl
@[simp] theorem State.beginTurn_planeB (s : State) (t : Turn) : (s.beginTurn t).planeB = s.planeB := rfl
@[simp] theorem State.beginTurn_pcmd (s : State) (t : Turn) : (s.beginTurn t).pcmd = s.pcmd := rfl
@[simp] theorem State.beginTurn_pcon (s : State) (t : Turn) : (s.beginTurn t).pcon = s.pcon := rfl
@[simp] theorem State.beginTurn_wcon (s : State) (t : Turn) : (s.beginTurn t).wcon = s.wcon := rfl
@[simp] theorem State.beginTurn_bright (s : State) (t : Turn) : (s.beginTurn t).bright = s.bright := rfl
@[simp] theorem State.beginTurn_sf0 (s : State) (t : Turn) : (s.beginTurn t).sf0 = s.sf0 := rfl
@[simp] theorem State.beginTurn_sf1 (s : State) (t : Turn) : (s.beginTurn t).sf1 = s.sf1 := rfl
@[simp] theorem State.beginTurn_sf2 (s : State) (t : Turn) : (s.beginTurn t).sf2 = s.sf2 := rfl
@[simp] theorem State.beginTurn_fn (s : State) (t : Turn) : (s.beginTurn t).fn = s.fn := rfl
@[simp] theorem State.beginTurn_stepCode (s : State) (t : Turn) : (s.beginTurn t).stepCode = s.stepCode := rfl
@[simp] theorem State.beginTurn_dl (s : State) (t : Turn) : (s.beginTurn t).dl = s.dl := rfl
@[simp] theorem State.beginTurn_wi (s : State) (t : Turn) : (s.beginTurn t).wi = s.wi := rfl
@[simp] theorem State.beginTurn_mask (s : State) (t : Turn) : (s.beginTurn t).mask = s.mask := rfl
@[simp] theorem State.beginTurn_v1 (s : State) (t : Turn) : (s.beginTurn t).v1 = s.v1 := rfl
@[simp] theorem State.beginTurn_v2 (s : State) (t : Turn) : (s.beginTurn t).v2 = s.v2 := rfl
@[simp] theorem State.beginTurn_bi (s : State) (t : Turn) : (s.beginTurn t).bi = s.bi := rfl
@[simp] theorem State.beginTurn_dc (s : State) (t : Turn) : (s.beginTurn t).dc = s.dc := rfl
@[simp] theorem State.beginTurn_trace (s : State) (t : Turn) : (s.beginTurn t).trace = s.trace := rfl
@[simp] theorem State.beginTurn_engWork (s : State) (t : Turn) : (s.beginTurn t).engWork = s.engWork := rfl
@[simp] theorem State.beginTurn_hostWork (s : State) (t : Turn) : (s.beginTurn t).hostWork = s.hostWork := rfl
@[simp] theorem State.beginTurn_hostProg (s : State) (t : Turn) : (s.beginTurn t).hostProg = s.hostProg := rfl
@[simp] theorem State.beginTurn_result (s : State) (t : Turn) : (s.beginTurn t).result = s.result := rfl
@[simp] theorem State.beginTurn_races (s : State) (t : Turn) : (s.beginTurn t).races = s.races := rfl
@[simp] theorem State.beginTurn_inputs (s : State) (t : Turn) : (s.beginTurn t).inputs = s.inputs := rfl
@[simp] theorem State.beginTurn_turnNo (s : State) (t : Turn) : (s.beginTurn t).turnNo = s.turnNo := rfl

end Sys2Proof.Machine
end

