-- ==== Sys2Proof/Laws/Run.lean ====
section
/-! SUPPORT. How an operation in progress runs: one lemma per outcome of an action, and what a whole loop or transfer
group comes to. Later proofs cite these and never unfold `go`. -/

namespace Sys2Proof.Machine

/-! ### One action -/

@[simp] theorem go_zero (a : Agent) (s : State) : go a 0 s = .next s := rfl

theorem go_rest {a : Agent} {s : State} (h : s.work a = []) (n : Nat) : go a n s = .next s := by
  cases n with
  | zero => rfl
  | succ n => simp [go, h]

theorem go_rest_engine {s : State} (n : Nat) (h : s.engWork = []) : go .engine n s = .next s := go_rest (a := .engine) h n
theorem go_rest_host {s : State} (n : Nat) (h : s.hostWork = []) : go .host n s = .next s := go_rest (a := .host) h n

@[simp] theorem go_setWork_nil (a : Agent) (s : State) (n : Nat) : go a n (s.setWork a []) = .next (s.setWork a []) :=
  go_rest (by simp) n

theorem go_cons (a : Agent) (n : Nat) (s : State) (t : Task) (ts : List Task) :
    go a (n + 1) (s.setWork a (t :: ts)) =
      match act a t (s.setWork a ts) with
      | .done s' => go a n s'
      | .wait => .next (s.setWork a (t :: ts))
      | .fault f => .fault f
      | .refuse r => .refused r := by
  simp only [go, State.work_setWork, State.setWork_setWork]
  all_goals
    generalize act a t (s.setWork a ts) = x
    cases x <;> rfl

theorem go_done {a : Agent} {s s' : State} {t : Task} {ts : List Task} (h : act a t (s.setWork a ts) = .done s')
    (n : Nat) : go a (n + 1) (s.setWork a (t :: ts)) = go a n s' := by
  rw [go_cons, h]

theorem go_wait {a : Agent} {s : State} {t : Task} {ts : List Task} (h : act a t (s.setWork a ts) = .wait) (n : Nat) :
    go a n (s.setWork a (t :: ts)) = .next (s.setWork a (t :: ts)) := by
  cases n with
  | zero => rfl
  | succ n => rw [go_cons, h]

theorem go_fault {a : Agent} {s : State} {t : Task} {ts : List Task} {f : Fault}
    (h : act a t (s.setWork a ts) = .fault f) (n : Nat) : go a (n + 1) (s.setWork a (t :: ts)) = .fault f := by
  rw [go_cons, h]

theorem go_refuse {a : Agent} {s : State} {t : Task} {ts : List Task} {r : Refusal}
    (h : act a t (s.setWork a ts) = .refuse r) (n : Nat) : go a (n + 1) (s.setWork a (t :: ts)) = .refused r := by
  rw [go_cons, h]

/-! ### Beginning an operation -/

theorem perform_eq (a : Agent) (ts : List Task) (s : State) : perform a ts s = go a s.budget (s.setWork a (ts ++ s.work a)) := by
  simp [perform, resume, State.push_eq]

theorem perform_rest {a : Agent} {s : State} (h : s.work a = []) (ts : List Task) :
    perform a ts s = go a s.budget (s.setWork a ts) := by
  rw [perform_eq, h, List.append_nil]

theorem performHost_next {s : State} (h : s.hostWork = []) (ts : List Task) :
    performHost (.next ts) s = go .host s.budget (s.setWork .host ts) := by
  simp only [performHost, h]
  exact perform_rest (a := .host) h ts

theorem performHost_busy {s : State} (h : s.hostWork ≠ []) (p : Program) : performHost p s = .refused .hostBusy := by
  unfold performHost
  split
  · rfl
  · next h' => exact absurd h' h

theorem choosePath_running {s : State} (h : s.threadState = running) (x y : List Task) : choosePath s x y = .next x := by
  simp [choosePath, h]

theorem choosePath_stopped {s : State} (h : s.threadState = stopped) (x y : List Task) : choosePath s x y = .next y := by
  simp [choosePath, h, stopped, running]

/-! ### What every action and every turn keeps -/

/-- A property that every action of an agent keeps holds after any number of them. -/
theorem go_keeps {P : State → Prop} {a : Agent}
    (hact : ∀ s s' t ts, s.work a = t :: ts → P s → act a t (s.setWork a ts) = .done s' → P s') :
    ∀ n s s', P s → go a n s = .next s' → P s' := by
  intro n
  induction n with
  | zero =>
    intro s s' hp h
    simp only [go, Host.Outcome.next.injEq] at h
    exact h ▸ hp
  | succ n ih =>
    intro s s' hp h
    rw [go] at h
    cases hw : s.work a with
    | nil =>
      simp only [hw, Host.Outcome.next.injEq] at h
      exact h ▸ hp
    | cons t ts =>
      simp only [hw] at h
      cases hx : act a t (s.setWork a ts) with
      | done u =>
        simp only [hx] at h
        exact ih u s' (hact s u t ts hw hp hx) h
      | wait =>
        simp only [hx, Host.Outcome.next.injEq] at h
        exact h ▸ hp
      | fault f => simp [hx] at h
      | refuse r => simp [hx] at h

/-! ### Transfer groups (R95, R96) -/

theorem mayDriveBus_congr {s u : State} (h : u.threadState = s.threadState) (h' : u.stepCode = s.stepCode) (a : Agent) :
    u.mayDriveBus a = s.mayDriveBus a := by
  cases a <;> simp [State.mayDriveBus, State.busOwner, h, h']

@[simp] theorem groupBytes_setWork (s : State) (a : Agent) (ts : List Task) (g : Group) :
    groupBytes (s.setWork a ts) g = groupBytes s g := by
  cases a <;> cases g <;> rfl

/-- The drain loop of R95 and R96 empties the receiver. -/
theorem go_drain {a : Agent} (q : List Byte) {s : State} (hq : s.rxq = q) (ts : List Task) (n : Nat) :
    go a (n + (q.length + 1)) (s.setWork a (.drain :: ts)) = go a n ({ s with rxq := [] }.setWork a ts) := by
  induction q generalizing s with
  | nil =>
    have h : act a .drain (s.setWork a ts) = .done (s.setWork a ts) := by simp [act, drainAct, hq]
    have hs : { s with rxq := [] } = s := by rw [← hq]
    rw [hs, show n + (([] : List Byte).length + 1) = n + 1 from rfl, go_done h]
  | cons b q ih =>
    have h : act a .drain (s.setWork a ts) = .done ({ s with rxq := q }.setWork a (.drain :: ts)) := by
      cases a <;> simp [act, drainAct, hq, State.push, State.setWork, State.work]
    rw [show n + ((b :: q).length + 1) = n + (q.length + 1) + 1 by simp; omega, go_done h,
      ih (s := { s with rxq := q }) rfl]

/-- The write of a byte, once TNF = 1. -/
theorem act_send {a : Agent} {s : State} (hm : s.mayDriveBus a = true) (ht : s.tnf = true) (b : Byte) (ts : List Task) :
    act a (.send b) (s.setWork a ts) = .done ({ s with trace := s.trace ++ [(s.dc, b)] }.setWork a ts) := by
  have : (s.setWork a ts).mayDriveBus a = true := by
    rw [mayDriveBus_congr (s := s) (by simp) (by simp)]; exact hm
  cases a <;> simp_all [act, sendAct, State.setWork]

/-- BUS.BYTE once TNF = 1 (R95). -/
theorem go_byte {a : Agent} {s : State} (hm : s.mayDriveBus a = true) (ht : s.tnf = true) (b : Byte) (ts : List Task)
    (n : Nat) :
    go a (n + (s.rxq.length + 2)) (s.setWork a (busByteTasks b ++ ts)) =
      go a n ({ s with trace := s.trace ++ [(s.dc, b)], rxq := [] }.setWork a ts) := by
  show go a (n + (s.rxq.length + 1) + 1) (s.setWork a (.send b :: .drain :: ts)) = _
  rw [go_done (act_send hm ht b _), go_drain s.rxq (s := { s with trace := s.trace ++ [(s.dc, b)] }) rfl]

/-- The loop of R96 from byte index k on, the receiver empty. -/
theorem go_bytes {a : Agent} {s : State} (hm : s.mayDriveBus a = true) (ht : s.tnf = true) (hr : s.rxq = [])
    (bs : List Byte) (k : Nat) (ts : List Task) (n : Nat) :
    go a (n + (3 * bs.length + 1)) (s.setWork a (.bytes k bs :: ts)) =
      go a n ({ s with
        bi := if bs = [] then s.bi else k + bs.length - 1
        trace := s.trace ++ traceOf s.dc bs
        rxq := [] }.setWork a ts) := by
  induction bs generalizing s k with
  | nil =>
    have h : act a (.bytes k []) (s.setWork a ts) = .done (s.setWork a ts) := rfl
    rw [show n + (3 * ([] : List Byte).length + 1) = n + 1 from rfl, go_done h]
    simp only [traceOf, List.map_nil, List.append_nil, if_true]
    rw [← hr]
  | cons b bs ih =>
    have h : act a (.bytes k (b :: bs)) (s.setWork a ts) =
        .done ({ s with bi := k }.setWork a (busByteTasks b ++ (Task.bytes (k + 1) bs :: ts))) := by
      cases a <;> simp [act, bytesAct, State.push, State.setWork, State.work]
    rw [show n + (3 * (b :: bs).length + 1) = (n + (3 * bs.length + 1) + (s.rxq.length + 2)) + 1 by simp [hr]; omega,
      go_done h, go_byte (s := { s with bi := k }) ((mayDriveBus_congr (s := s) rfl rfl a).trans hm) ht,
      ih (s := { s with bi := k, trace := s.trace ++ [(s.dc, b)], rxq := [] })
        ((mayDriveBus_congr (s := s) rfl rfl a).trans hm) ht rfl]
    congr 2
    cases bs with
    | nil => simp [traceOf]
    | cons c cs => simp [traceOf]; omega

/-- The same loop, whatever has been received: the first byte's drain empties the receiver. -/
theorem go_bytes_drained {a : Agent} {s : State} (hm : s.mayDriveBus a = true) (ht : s.tnf = true) (b : Byte)
    (bs : List Byte) (k : Nat) (ts : List Task) (n : Nat) :
    go a (n + (3 * (b :: bs).length + s.rxq.length + 1)) (s.setWork a (.bytes k (b :: bs) :: ts)) =
      go a n ({ s with
        bi := k + (b :: bs).length - 1
        trace := s.trace ++ traceOf s.dc (b :: bs)
        rxq := [] }.setWork a ts) := by
  have h : act a (.bytes k (b :: bs)) (s.setWork a ts) =
      .done ({ s with bi := k }.setWork a (busByteTasks b ++ (Task.bytes (k + 1) bs :: ts))) := by
    cases a <;> simp [act, bytesAct, State.push, State.setWork, State.work]
  rw [show n + (3 * (b :: bs).length + s.rxq.length + 1) =
      (n + (3 * bs.length + 1) + (s.rxq.length + 2)) + 1 by simp; omega, go_done h,
    go_byte (s := { s with bi := k }) ((mayDriveBus_congr (s := s) rfl rfl a).trans hm) ht,
    go_bytes (s := { s with bi := k, trace := s.trace ++ [(s.dc, b)], rxq := [] })
      ((mayDriveBus_congr (s := s) rfl rfl a).trans hm) ht rfl]
  congr 2
  cases bs with
  | nil => simp [traceOf]
  | cons c cs => simp [traceOf]; omega

/-- BUS.GROUP up to its wait for bus idle (R96). -/
theorem go_group_bytes {a : Agent} {s : State} (hm : s.mayDriveBus a = true) (ht : s.tnf = true) (dc : Bool)
    (bs : List Byte) (ts : List Task) (n : Nat) :
    go a (n + (3 * bs.length + (if bs = [] then 0 else s.rxq.length) + 2)) (s.setWork a (.drive dc :: .bytes 0 bs :: ts)) =
      go a n ({ s with
        dc := dc
        bi := lastIndex bs.length s.bi
        trace := s.trace ++ traceOf dc bs
        rxq := if bs = [] then s.rxq else [] }.setWork a ts) := by
  have h1 : act a (.drive dc) (s.setWork a (.bytes 0 bs :: ts)) = .done ({ s with dc := dc }.setWork a (.bytes 0 bs :: ts)) := by
    have : (s.setWork a (.bytes 0 bs :: ts)).mayDriveBus a = true := by
      rw [mayDriveBus_congr (s := s) (by simp) (by simp)]; exact hm
    cases a <;> simp_all [act, driveAct, State.setWork]
  cases bs with
  | nil =>
    have h2 : act a (.bytes 0 []) ({ s with dc := dc }.setWork a ts) = .done ({ s with dc := dc }.setWork a ts) := rfl
    show go a (n + 1 + 1) _ = _
    rw [go_done h1, go_done h2]
    simp [lastIndex, traceOf]
  | cons b bs =>
    rw [if_neg (by simp), show n + (3 * (b :: bs).length + s.rxq.length + 2) = n + (3 * (b :: bs).length + s.rxq.length + 1) + 1 by omega,
      go_done h1, go_bytes_drained (s := { s with dc := dc }) ((mayDriveBus_congr (s := s) rfl rfl a).trans hm) ht]
    congr 2
    simp [lastIndex]

/-- BUS.GROUP once the transmitter is ready (R96). -/
theorem go_group {a : Agent} {s : State} (hm : s.mayDriveBus a = true) (hb : s.busReady) (dc : Bool) (bs : List Byte)
    (ts : List Task) (n : Nat) :
    go a (n + (3 * bs.length + s.rxq.length + 4)) (s.setWork a (busGroupTasks dc bs ++ ts)) =
      go a n ((s.sent dc bs).setWork a ts) := by
  obtain ⟨ht, hi⟩ := hb
  have hs : ∀ x y q us, act a .idle ((({ s with dc := dc, bi := x, trace := y, rxq := q } : State)).setWork a us) =
      .done (({ s with dc := dc, bi := x, trace := y, rxq := q } : State).setWork a us) := by
    intro x y q us; simp [act, idleAct, hi]
  show go a (n + (3 * bs.length + s.rxq.length + 4)) (s.setWork a (.drive dc :: .bytes 0 bs :: .idle :: .drain :: ts)) = _
  by_cases hbs : bs = []
  · subst hbs
    have hg := go_group_bytes hm ht dc [] (.idle :: .drain :: ts) (n + (s.rxq.length + 1) + 1)
    simp only [if_true] at hg
    rw [show n + (3 * ([] : List Byte).length + s.rxq.length + 4) =
        n + (s.rxq.length + 1) + 1 + (3 * ([] : List Byte).length + 0 + 2) by simp; omega, hg, go_done (hs _ _ _ _),
      go_drain s.rxq (s := { s with dc := dc, bi := _, trace := _, rxq := s.rxq }) rfl]
    rfl
  · have hg := go_group_bytes hm ht dc bs (.idle :: .drain :: ts) (n + (([] : List Byte).length + 1) + 1)
    simp only [if_neg hbs] at hg
    rw [show n + (3 * bs.length + s.rxq.length + 4) =
        n + (([] : List Byte).length + 1) + 1 + (3 * bs.length + s.rxq.length + 2) by simp; omega, hg,
      go_done (hs _ _ _ _), go_drain [] (s := { s with dc := dc, bi := _, trace := _, rxq := [] }) rfl]
    rfl

/-- The group of an `emit` action, once the transmitter is ready. -/
theorem go_emit {a : Agent} {s : State} (hm : s.mayDriveBus a = true) (hb : s.busReady) (g : Group) (ts : List Task)
    (n : Nat) :
    go a (n + (3 * (groupBytes s g).length + s.rxq.length + 5)) (s.setWork a (.emit g :: ts)) =
      go a n ((s.sent (groupDc g) (groupBytes s g)).setWork a ts) := by
  have h : act a (.emit g) (s.setWork a ts) =
      .done (s.setWork a (busGroupTasks (groupDc g) (groupBytes s g) ++ ts)) := by
    simp [act, emitAct, State.push_eq]
  rw [show n + (3 * (groupBytes s g).length + s.rxq.length + 5) =
      (n + (3 * (groupBytes s g).length + s.rxq.length + 4)) + 1 by omega, go_done h, go_group hm hb]

/-- TNF = 0: the byte is not sent and the operation stays where it is (R95, U8). -/
theorem go_send_blocked {a : Agent} {s : State} (hm : s.mayDriveBus a = true) (ht : s.tnf = false) (b : Byte)
    (ts : List Task) (n : Nat) :
    go a n (s.setWork a (.send b :: ts)) = .next (s.setWork a (.send b :: ts)) := by
  apply go_wait
  have : (s.setWork a ts).mayDriveBus a = true := by rw [mayDriveBus_congr (s := s) (by simp) (by simp)]; exact hm
  simp [act, sendAct, this, ht]

end Sys2Proof.Machine
end

