-- ==== Sys2Proof/Laws/Step.lean ====
section
/-! SUPPORT. What a turn changes before its agent acts, which actions each operation begins with, and, once for all,
what a step that answers a next state can have done. -/

namespace Sys2Proof.Machine

/-! ### The turn's own changes -/

@[simp] theorem State.inTurn_cfg (s : State) : s.inTurn.cfg = s.cfg := by
  unfold State.inTurn State.takeTurn State.beginTurn; cases s.inputs <;> rfl
@[simp] theorem State.inTurn_threadState (s : State) : s.inTurn.threadState = s.threadState := by
  unfold State.inTurn State.takeTurn State.beginTurn; cases s.inputs <;> rfl
@[simp] theorem State.inTurn_copyPending (s : State) : s.inTurn.copyPending = s.copyPending := by
  unfold State.inTurn State.takeTurn State.beginTurn; cases s.inputs <;> rfl
@[simp] theorem State.inTurn_pendingCmd (s : State) : s.inTurn.pendingCmd = s.pendingCmd := by
  unfold State.inTurn State.takeTurn State.beginTurn; cases s.inputs <;> rfl
@[simp] theorem State.inTurn_contrastPending (s : State) : s.inTurn.contrastPending = s.contrastPending := by
  unfold State.inTurn State.takeTurn State.beginTurn; cases s.inputs <;> rfl
@[simp] theorem State.inTurn_invert (s : State) : s.inTurn.invert = s.invert := by
  unfold State.inTurn State.takeTurn State.beginTurn; cases s.inputs <;> rfl
@[simp] theorem State.inTurn_planeA (s : State) : s.inTurn.planeA = s.planeA := by
  unfold State.inTurn State.takeTurn State.beginTurn; cases s.inputs <;> rfl
@[simp] theorem State.inTurn_planeB (s : State) : s.inTurn.planeB = s.planeB := by
  unfold State.inTurn State.takeTurn State.beginTurn; cases s.inputs <;> rfl
@[simp] theorem State.inTurn_pcmd (s : State) : s.inTurn.pcmd = s.pcmd := by
  unfold State.inTurn State.takeTurn State.beginTurn; cases s.inputs <;> rfl
@[simp] theorem State.inTurn_pcon (s : State) : s.inTurn.pcon = s.pcon := by
  unfold State.inTurn State.takeTurn State.beginTurn; cases s.inputs <;> rfl
@[simp] theorem State.inTurn_wcon (s : State) : s.inTurn.wcon = s.wcon := by
  unfold State.inTurn State.takeTurn State.beginTurn; cases s.inputs <;> rfl
@[simp] theorem State.inTurn_bright (s : State) : s.inTurn.bright = s.bright := by
  unfold State.inTurn State.takeTurn State.beginTurn; cases s.inputs <;> rfl
@[simp] theorem State.inTurn_sf0 (s : State) : s.inTurn.sf0 = s.sf0 := by
  unfold State.inTurn State.takeTurn State.beginTurn; cases s.inputs <;> rfl
@[simp] theorem State.inTurn_sf1 (s : State) : s.inTurn.sf1 = s.sf1 := by
  unfold State.inTurn State.takeTurn State.beginTurn; cases s.inputs <;> rfl
@[simp] theorem State.inTurn_sf2 (s : State) : s.inTurn.sf2 = s.sf2 := by
  unfold State.inTurn State.takeTurn State.beginTurn; cases s.inputs <;> rfl
@[simp] theorem State.inTurn_fn (s : State) : s.inTurn.fn = s.fn := by
  unfold State.inTurn State.takeTurn State.beginTurn; cases s.inputs <;> rfl
@[simp] theorem State.inTurn_stepCode (s : State) : s.inTurn.stepCode = s.stepCode := by
  unfold State.inTurn State.takeTurn State.beginTurn; cases s.inputs <;> rfl
@[simp] theorem State.inTurn_dl (s : State) : s.inTurn.dl = s.dl := by
  unfold State.inTurn State.takeTurn State.beginTurn; cases s.inputs <;> rfl
@[simp] theorem State.inTurn_wi (s : State) : s.inTurn.wi = s.wi := by
  unfold State.inTurn State.takeTurn State.beginTurn; cases s.inputs <;> rfl
@[simp] theorem State.inTurn_mask (s : State) : s.inTurn.mask = s.mask := by
  unfold State.inTurn State.takeTurn State.beginTurn; cases s.inputs <;> rfl
@[simp] theorem State.inTurn_v1 (s : State) : s.inTurn.v1 = s.v1 := by
  unfold State.inTurn State.takeTurn State.beginTurn; cases s.inputs <;> rfl
@[simp] theorem State.inTurn_v2 (s : State) : s.inTurn.v2 = s.v2 := by
  unfold State.inTurn State.takeTurn State.beginTurn; cases s.inputs <;> rfl
@[simp] theorem State.inTurn_bi (s : State) : s.inTurn.bi = s.bi := by
  unfold State.inTurn State.takeTurn State.beginTurn; cases s.inputs <;> rfl
@[simp] theorem State.inTurn_dc (s : State) : s.inTurn.dc = s.dc := by
  unfold State.inTurn State.takeTurn State.beginTurn; cases s.inputs <;> rfl
@[simp] theorem State.inTurn_trace (s : State) : s.inTurn.trace = s.trace := by
  unfold State.inTurn State.takeTurn State.beginTurn; cases s.inputs <;> rfl
@[simp] theorem State.inTurn_engWork (s : State) : s.inTurn.engWork = s.engWork := by
  unfold State.inTurn State.takeTurn State.beginTurn; cases s.inputs <;> rfl
@[simp] theorem State.inTurn_hostWork (s : State) : s.inTurn.hostWork = s.hostWork := by
  unfold State.inTurn State.takeTurn State.beginTurn; cases s.inputs <;> rfl
@[simp] theorem State.inTurn_hostProg (s : State) : s.inTurn.hostProg = s.hostProg := by
  unfold State.inTurn State.takeTurn State.beginTurn; cases s.inputs <;> rfl
@[simp] theorem State.inTurn_result (s : State) : s.inTurn.result = s.result := by
  unfold State.inTurn State.takeTurn State.beginTurn; cases s.inputs <;> rfl
@[simp] theorem State.inTurn_races (s : State) : s.inTurn.races = s.races := by
  unfold State.inTurn State.takeTurn State.beginTurn; cases s.inputs <;> rfl
@[simp] theorem State.inTurn_budget (s : State) : s.inTurn.budget = s.nextTurn.budget := rfl
@[simp] theorem State.inTurn_age (s : State) : s.inTurn.age = s.nextTurn.age := rfl
@[simp] theorem State.inTurn_tnf (s : State) : s.inTurn.tnf = s.nextTurn.tnf := rfl
@[simp] theorem State.inTurn_bsy (s : State) : s.inTurn.bsy = s.nextTurn.bsy := rfl
@[simp] theorem State.inTurn_tick (s : State) : s.inTurn.tick = tickAdd s.cfg s.tick s.nextTurn.ticks := by
  unfold State.inTurn State.takeTurn State.beginTurn; cases s.inputs <;> rfl
@[simp] theorem State.inTurn_rxq (s : State) : s.inTurn.rxq = s.rxq ++ s.nextTurn.rx := by
  unfold State.inTurn State.takeTurn State.beginTurn; cases s.inputs <;> rfl
@[simp] theorem State.inTurn_region (s : State) (r : Region) : s.inTurn.region r = s.region r := by
  unfold State.inTurn State.takeTurn State.beginTurn; cases s.inputs <;> cases r <;> rfl
@[simp] theorem State.inTurn_flag (s : State) (f : Flag) : s.inTurn.flag f = s.flag f := by
  cases f <;> simp [State.flag]
@[simp] theorem State.inTurn_seqByte (s : State) : s.inTurn.seqByte = s.seqByte := by
  simp [State.seqByte]

/-! ### The actions an operation begins with -/

/-- The actions of a position of the sequencer (R100 to R113). -/
def engineTasks (s : State) : Instr → List Task
  | .engStart => [.setFn 0, .pass, .announce running .check]
  | .engCheck => [.testRun]
  | .engExit => [.announce stopped .idle]
  | .s1 _ => [.setDeadline s.cfg.tPre, .goto .s2]
  | .s2 _ => [.emit .park, .goto .s3]
  | .s3 fn => [.emit (.frame fn), .goto .s4]
  | .s4 fn => [.emit (.contrast fn), .goto .s5]
  | .s5 _ => [.await s.dl, .goto .s6]
  | .s6 _ => [.setDeadline s.cfg.tPost, .goto .s7]
  | .s7 _ => [.emit .restore, .goto .s8]
  | .s8 fn => [.emit (.contrast fn), .goto .s9]
  | .s9 fn => if fn = 2 then serviceTasks s.cfg.policy ++ [Task.goto .s10] else [.goto .s10]
  | .s10 fn => [.await s.dl, .nextSubframe fn]
  | _ => []

/-- The actions of a call of the HOST, or why there are none (R61, R196). -/
def hostTasks (s : State) : Instr → Program
  | .enable => choosePath s [.ret .done] enableTasks
  | .disable =>
    if s.threadState = running then .next disableTasks
    else if legalThreadState s.threadState then .next [.ret .done]
    else .fault (.illegalThreadState s.threadState)
  | .isActive =>
    if legalThreadState s.threadState then .next [.ret (.bool (s.threadState == running))]
    else .fault (.illegalThreadState s.threadState)
  | .showSync =>
    choosePath s [.flagWrite .copyPending 1#32, .spin .copyPending 0#32, .ret .done] [.emit .monoFrame, .ret .done]
  | .showAsync => choosePath s [.flagWrite .copyPending 1#32, .ret .done] [.emit .monoFrame, .ret .done]
  | .sendCmd c => choosePath s (sendActiveTasks s.cfg c) [.emit (.directCmd c), .ret .done]
  | .brightness v =>
    choosePath s
      ([Task.setBright (clampBrightness v)] ++ deriveTasks ++
        [Task.flagWrite .contrastPending 1#32, .spin .contrastPending 0#32, .ret .done])
      ([Task.setBright (clampBrightness v)] ++ deriveTasks ++ directContrastTasks ++ [Task.ret .done])
  | .invert v => .next [.flagWrite .invert (if v then 1#32 else 0#32), .ret .done]
  | .draw ws => .next (ws.map Task.drawByte ++ [Task.ret .done])
  | .init => hostGroup .init s
  | .modeMono => hostGroup .modeMono s
  | _ => .next []

theorem exec_hostCall {i : Instr} (h : isHostCall i = true) (s : State) : exec i s = performHost (hostTasks s i) s := by
  cases i <;> first | rfl | cases h

theorem decodeSeq_exec {fn st : Nat} {i : Instr} (h : decodeSeq fn st = .ok i) (u : State) :
    exec i u = perform .engine (engineTasks u i) u := by
  unfold decodeSeq withFnZero withSubframe at h
  split at h <;> (try split at h) <;> cases h <;> try rfl
  next k hk =>
    have e : ∀ fn : Fin 3, exec (.s9 fn) u = perform .engine (engineTasks u (.s9 fn)) u := by
      intro fn
      match fn with
      | 0 => rfl
      | 1 => rfl
      | 2 => rfl
    exact e _

/-- SEQ as a number below 64 (R62). -/
theorem seqByte_toNat (s : State) : s.seqByte.toNat = 16 * s.fn.toNat + s.stepCode.toNat := by
  have h1 := s.fn.isLt
  have h2 := s.stepCode.isLt
  simp only [State.seqByte, BitVec.toNat_ofNat]
  omega

theorem decode_seqByte (s : State) :
    decode [s.seqByte] =
      match decodeSeq s.fn.toNat s.stepCode.toNat with
      | .ok i => .ok (i, [])
      | .error e => .error e := by
  have h1 := s.fn.isLt
  have h2 := s.stepCode.isLt
  have hlt : s.seqByte.toNat < 64 := by rw [seqByte_toNat]; omega
  have hf : seqFn s.seqByte.toNat = s.fn.toNat := by rw [seqByte_toNat, seqFn]; omega
  have hs : seqStep s.seqByte.toNat = s.stepCode.toNat := by rw [seqByte_toNat, seqStep]; omega
  simp only [decode, hlt, if_true, hf, hs]
  all_goals cases decodeSeq s.fn.toNat s.stepCode.toNat <;> rfl

/-! ### Inversion -/

/-- What an agent works on in its turn: the operation in progress, or the one the sequencer's position begins. -/
def engineTurnWork (s : State) (w : List Task) : Prop :=
  (s.engWork ≠ [] ∧ w = s.engWork) ∨
    (s.engWork = [] ∧ ∃ i, decodeSeq s.fn.toNat s.stepCode.toNat = .ok i ∧ w = engineTasks s.inTurn i)

/-- The same for the HOST: the operation in progress, the next call's, or none. -/
def hostTurnWork (s : State) (prog : List Instr) (w : List Task) : Prop :=
  (s.hostWork ≠ [] ∧ prog = s.hostProg ∧ w = s.hostWork) ∨
    (s.hostWork = [] ∧ s.hostProg = [] ∧ prog = [] ∧ w = []) ∨
    (s.hostWork = [] ∧ ∃ i, s.hostProg = i :: prog ∧ isHostCall i = true ∧ hostTasks s.inTurn i = .next w)

/-- The state in which the HOST goes on with the work w, the calls prog to come. -/
def State.hostTurn (s : State) (prog : List Instr) (w : List Task) : State :=
  { s.inTurn with hostProg := prog, hostWork := w }

theorem State.hostTurn_same (s : State) : s.hostTurn s.hostProg s.hostWork = s.inTurn := by
  unfold State.hostTurn State.inTurn State.takeTurn State.beginTurn
  cases s.inputs <;> rfl

theorem step_engine_run {s : State} {w : List Task} (hp : paramsOk s.cfg = true) (ha : s.nextTurn.agent = .engine)
    (hl : legalThreadState s.threadState = true) (hw : engineTurnWork s w) :
    step s = go .engine s.nextTurn.budget (s.inTurn.setWork .engine w) := by
  have hs : s.inTurn.setWork .engine s.engWork = s.inTurn := by
    have := State.setWork_work s.inTurn .engine
    rwa [State.work_engine, State.inTurn_engWork] at this
  unfold step fetch
  simp only [hp, if_true, ha, fetchEngine, State.inTurn_threadState, hl, State.inTurn_engWork, State.inTurn_seqByte]
  rcases hw with ⟨h, rfl⟩ | ⟨h, i, hd, rfl⟩
  · cases hc : s.engWork with
    | nil => exact absurd hc h
    | cons t ts => rw [← hc, hs]; simp only [hc]; rfl
  · rw [h]
    simp only [decode_seqByte, hd]
    rw [decodeSeq_exec hd, perform_rest (a := .engine) (by simp [h])]
    rfl

theorem step_host_run {s : State} {prog : List Instr} {w : List Task} (hp : paramsOk s.cfg = true)
    (ha : s.nextTurn.agent = .host) (hw : hostTurnWork s prog w) :
    step s = go .host s.nextTurn.budget (s.hostTurn prog w) := by
  unfold step fetch
  simp only [hp, if_true, ha, fetchHost, State.inTurn_hostWork, State.inTurn_hostProg]
  rcases hw with ⟨h, rfl, rfl⟩ | ⟨h, h', rfl, rfl⟩ | ⟨h, i, hpr, hc, ht⟩
  · cases hc : s.hostWork with
    | nil => exact absurd hc h
    | cons t ts => rw [← hc, State.hostTurn_same]; simp only [hc]; rfl
  · have hs := State.hostTurn_same s
    rw [h, h'] at hs
    simp only [h, h', hs]
    rw [go_rest_host _ (by simp [h])]
  · simp only [h, hpr, hc, if_true]
    have e : ∀ u : State, (∃ w, u = s.hostTurn prog w) → exec i u = performHost (hostTasks s.inTurn i) u := by
      rintro u ⟨w, rfl⟩
      rw [exec_hostCall hc]
      rfl
    refine (e (s.hostTurn prog []) ⟨[], rfl⟩).trans ?_
    rw [ht, performHost_next rfl]
    rfl

/-- What a step that answers a next state has done. -/
theorem step_cases {s t : State} (h : step s = .next t) :
    paramsOk s.cfg = true ∧
      ((s.nextTurn.agent = .engine ∧ legalThreadState s.threadState = true ∧ ∃ w, engineTurnWork s w ∧
        go .engine s.nextTurn.budget (s.inTurn.setWork .engine w) = .next t) ∨
      (s.nextTurn.agent = .host ∧ ∃ prog w, hostTurnWork s prog w ∧
        go .host s.nextTurn.budget (s.hostTurn prog w) = .next t)) := by
  have hp : paramsOk s.cfg = true := by
    by_contra hp
    simp [step, fetch, hp] at h
  refine ⟨hp, ?_⟩
  cases ha : s.nextTurn.agent with
  | engine =>
    left
    have hl : legalThreadState s.threadState = true := by
      by_contra hl
      simp [step, fetch, hp, ha, fetchEngine, hl] at h
    refine ⟨rfl, hl, ?_⟩
    by_cases hw : s.engWork = []
    · cases hd : decodeSeq s.fn.toNat s.stepCode.toNat with
      | ok i =>
        have hw' : engineTurnWork s (engineTasks s.inTurn i) := .inr ⟨hw, i, hd, rfl⟩
        exact ⟨_, hw', (step_engine_run hp ha hl hw').symm.trans h⟩
      | error e => simp [step, fetch, hp, ha, fetchEngine, hl, hw, decode_seqByte, hd] at h
    · have hw' : engineTurnWork s s.engWork := .inl ⟨hw, rfl⟩
      exact ⟨_, hw', (step_engine_run hp ha hl hw').symm.trans h⟩
  | host =>
    right
    refine ⟨rfl, ?_⟩
    by_cases hw : s.hostWork = []
    · cases hpr : s.hostProg with
      | nil =>
        have hw' : hostTurnWork s [] [] := .inr (.inl ⟨hw, hpr, rfl, rfl⟩)
        exact ⟨_, _, hw', (step_host_run hp ha hw').symm.trans h⟩
      | cons i prog =>
        have hc : isHostCall i = true := by
          by_contra hc
          simp [step, fetch, hp, ha, fetchHost, hw, hpr, hc] at h
        have e : step s = performHost (hostTasks s.inTurn i) (s.hostTurn prog s.inTurn.hostWork) := by
          have e1 : step s = exec i (s.hostTurn prog s.inTurn.hostWork) := by
            simp [step, fetch, hp, ha, fetchHost, hw, hpr, hc, State.hostTurn]
          rw [e1, exec_hostCall hc]
          rfl
        cases ht : hostTasks s.inTurn i with
        | next w =>
          have hw' : hostTurnWork s prog w := .inr (.inr ⟨hw, i, hpr, hc, ht⟩)
          exact ⟨_, _, hw', (step_host_run hp ha hw').symm.trans h⟩
        | fault f => simp [e, performHost, State.hostTurn, hw, ht] at h
        | refused r => simp [e, performHost, State.hostTurn, hw, ht] at h
    · have hw' : hostTurnWork s s.hostProg s.hostWork := .inl ⟨hw, rfl, rfl⟩
      exact ⟨_, _, hw', (step_host_run hp ha hw').symm.trans h⟩

end Sys2Proof.Machine
end

