-- ==== Sys2Proof/Laws/Actions.lean ====
section
/-! SUPPORT. What one atomic action can do, in every state, reachable or not: the parameters stay, the trace grows at
its end, THREAD_STATE moves along the cycle, memory keeps its canonical form and the subframe buffers stay nested. -/

namespace Sys2Proof.Machine

/-- An action changes no parameter (R35). -/
theorem act_cfg {a : Agent} {t : Task} {s s' : State} (h : act a t s = .done s') : s'.cfg = s.cfg := by
  cases t with
  | flagWrite f v => cases f <;> simp only [act, flagWriteAct] at h <;> (try split at h) <;> cases h <;> simp
  | _ =>
    simp only [act, emitAct, driveAct, bytesAct, sendAct, drainAct, idleAct, awaitAct, setDeadlineAct, setFnAct, gotoAct,
      announceAct, testRunAct, nextSubframeAct, spinAct, passAct, wordsAct, loadV1Act, loadV2Act, storeSfAct,
      pollPublishAct, pollContrastAct, pollCommandAct, pollContrastElseCommandAct, adoptAct, deriveAct, setBrightAct,
      fillPcmdAct, launchAct, drawByteAct, retAct] at h
    repeat' split at h
    all_goals cases h
    all_goals simp

/-- An action appends to the trace only as the bus port's owner, and changes it in no other way (R56). -/
theorem act_trace {a : Agent} {t : Task} {s s' : State} (h : act a t s = .done s') :
    s'.trace = s.trace ∨ (s.mayDriveBus a = true ∧ ∃ e, s'.trace = s.trace ++ [e]) := by
  cases t with
  | flagWrite f v => cases f <;> simp only [act, flagWriteAct] at h <;> (try split at h) <;> cases h <;> simp
  | send b =>
    simp only [act, sendAct] at h
    split at h
    · next hm => split at h <;> cases h; exact .inr ⟨hm, _, rfl⟩
    · cases h
  | _ =>
    simp only [act, emitAct, driveAct, bytesAct, drainAct, idleAct, awaitAct, setDeadlineAct, setFnAct, gotoAct,
      announceAct, testRunAct, nextSubframeAct, spinAct, passAct, wordsAct, loadV1Act, loadV2Act, storeSfAct,
      pollPublishAct, pollContrastAct, pollCommandAct, pollContrastElseCommandAct, adoptAct, deriveAct, setBrightAct,
      fillPcmdAct, launchAct, drawByteAct, retAct] at h
    repeat' split at h
    all_goals cases h
    all_goals simp

/-- An action leaves THREAD_STATE alone or takes it along an edge of its agent (R160). -/
theorem act_threadState {a : Agent} {t : Task} {s s' : State} (h : act a t s = .done s') :
    s'.threadState = s.threadState ∨ legalEdge a s.threadState s'.threadState = true := by
  cases t with
  | flagWrite f v =>
    cases f with
    | threadState =>
      simp only [act, flagWriteAct] at h
      split at h
      · next hl => cases h; exact .inr hl
      · cases h
    | _ => cases h; exact .inl rfl
  | announce v p =>
    simp only [act, announceAct] at h
    split at h
    · next hl => cases h; exact .inr hl
    · cases h
  | _ =>
    simp only [act, emitAct, driveAct, bytesAct, sendAct, drainAct, idleAct, awaitAct, setDeadlineAct, setFnAct, gotoAct,
      testRunAct, nextSubframeAct, spinAct, passAct, wordsAct, loadV1Act, loadV2Act, storeSfAct,
      pollPublishAct, pollContrastAct, pollCommandAct, pollContrastElseCommandAct, adoptAct, deriveAct, setBrightAct,
      fillPcmdAct, launchAct, drawByteAct, retAct] at h
    repeat' split at h
    all_goals cases h
    all_goals simp

/-! ### Memory -/

/-- What an action does to the regions: nothing, one byte of a plane or of PCMD, or one word of each subframe
buffer, always inside the region. -/
theorem act_regions {a : Agent} {t : Task} {s s' : State} (h : act a t s = .done s') :
    (∀ r, s'.region r = s.region r) ∨
    (∃ r off v, off < regionSize s.cfg r ∧ (∀ k, r ≠ .sf k) ∧ s'.region r = Memory.write (s.region r) off v ∧
      ∀ q, q ≠ r → s'.region q = s.region q) ∨
    (∃ wi, 4 * wi + 4 ≤ s.cfg.planeBytes ∧
      s'.region (.sf 0) = Memory.writeWord s.sf0 (4 * wi) (sfWord0 s.v1 s.v2) ∧
      s'.region (.sf 1) = Memory.writeWord s.sf1 (4 * wi) (sfWord1 s.v1 s.v2) ∧
      s'.region (.sf 2) = Memory.writeWord s.sf2 (4 * wi) (sfWord2 s.v1 s.v2) ∧
      ∀ q, (∀ k, q ≠ .sf k) → s'.region q = s.region q) := by
  cases t with
  | flagWrite f v =>
    left
    intro r
    cases f <;> simp only [act, flagWriteAct] at h <;> (try split at h) <;> cases h <;> cases r <;> rfl
  | storeSf wi =>
    right; right
    simp only [act, storeSfAct] at h
    split at h
    · next hin =>
      cases h
      refine ⟨wi, of_decide_eq_true hin, rfl, rfl, rfl, ?_⟩
      intro q hq
      cases q with
      | sf k => exact absurd rfl (hq k)
      | _ => rfl
    · cases h
  | drawByte w =>
    right; left
    simp only [act, drawByteAct] at h
    split at h
    · next hin =>
      cases h
      refine ⟨planeRegion w.plane, w.off, w.val, ?_, ?_, ?_, ?_⟩
      · simp only [inRegion, decide_eq_true_eq] at hin; omega
      · intro k; cases w.plane <;> simp [planeRegion]
      · cases w.plane <;> rfl
      · intro q hq
        cases hp : w.plane <;> rw [hp] at hq <;> cases q <;> first
          | rfl
          | exact absurd rfl hq
          | (next k => match k with | 0 => rfl | 1 => rfl | 2 => rfl)
    · cases h
  | fillPcmd k bs =>
    cases bs with
    | nil => cases h; exact .inl (fun _ => rfl)
    | cons b rest =>
      simp only [act, fillPcmdAct] at h
      split at h
      · split at h
        · next hin =>
          cases h
          right; left
          refine ⟨.pcmd, k, b, ?_, ?_, ?_, ?_⟩
          · simp only [inRegion, decide_eq_true_eq] at hin; omega
          · intro k; simp
          · cases a <;> rfl
          · intro q hq
            cases a <;> cases q <;> first
              | rfl
              | exact absurd rfl hq
              | (next k => match k with | 0 => rfl | 1 => rfl | 2 => rfl)
        · cases h
      · cases h
  | _ =>
    left
    intro r
    simp only [act, emitAct, driveAct, bytesAct, sendAct, drainAct, idleAct, awaitAct, setDeadlineAct, setFnAct, gotoAct,
      announceAct, testRunAct, nextSubframeAct, spinAct, passAct, wordsAct, loadV1Act, loadV2Act,
      pollPublishAct, pollContrastAct, pollCommandAct, pollContrastElseCommandAct, adoptAct, deriveAct, setBrightAct,
      launchAct, retAct] at h
    repeat' split at h
    all_goals cases h
    all_goals cases a
    all_goals cases r <;> rfl

/-- Canonical form and bounds are kept by every action, in every state. -/
theorem act_memoryOk {a : Agent} {t : Task} {s s' : State} (hm : s.memoryOk) (h : act a t s = .done s') : s'.memoryOk := by
  have hc := act_cfg h
  intro r
  rw [hc]
  rcases act_regions h with h | ⟨q, off, v, hlt, -, hq, hne⟩ | ⟨wi, hin, h0, h1, h2, hne⟩
  · rw [h r]; exact hm r
  · by_cases hr : r = q
    · subst hr
      rw [hq]
      exact ⟨Memory.wf_write (hm r).1 _ _, Memory.below_write (hm r).2 hlt _⟩
    · rw [hne r hr]; exact hm r
  · have key : ∀ (k : Fin 3) (m : Memory) (w : Word), m = s.region (.sf k) →
        Memory.wf (Memory.writeWord m (4 * wi) w) = true ∧
          Memory.below (regionSize s.cfg (.sf k)) (Memory.writeWord m (4 * wi) w) = true := by
      rintro k m w rfl
      exact ⟨Memory.wf_writeWord (hm _).1 _ _, Memory.below_writeWord (hm _).2 hin _⟩
    cases r with
    | sf k =>
      match k with
      | 0 => rw [h0]; exact key 0 _ _ rfl
      | 1 => rw [h1]; exact key 1 _ _ rfl
      | 2 => rw [h2]; exact key 2 _ _ rfl
    | _ => rw [hne _ (by simp)]; exact hm _

/-- Memory right after reset lists nothing, so it is in canonical form. -/
theorem resetWith_memoryOk (p : Config.Params) : (State.resetWith p).memoryOk := by
  intro r
  have : (State.resetWith p).region r = [] := by
    cases r with
    | sf k => match k with | 0 => rfl | 1 => rfl | 2 => rfl
    | _ => rfl
  rw [this]
  exact ⟨rfl, rfl⟩

/-- The three results of R85, byte by byte, are nested. -/
theorem sfWord_nested (v1 v2 : Word) (k : Nat) :
    wordByte (sfWord2 v1 v2) k &&& ~~~ wordByte (sfWord1 v1 v2) k = 0#8 ∧
      wordByte (sfWord1 v1 v2) k &&& ~~~ wordByte (sfWord0 v1 v2) k = 0#8 := by
  constructor <;>
    (apply BitVec.eq_of_getLsbD_eq
     intro i hi
     simp [wordByte, sfWord0, sfWord1, sfWord2, hi]
     cases BitVec.getLsbD v1 (8 * k + i) <;> cases BitVec.getLsbD v2 (8 * k + i) <;> simp)

/-- R89: nesting is kept by every action, in every state whose memory is in canonical form. -/
theorem act_nested {a : Agent} {t : Task} {s s' : State} (hm : s.memoryOk) (hn : s.nested) (h : act a t s = .done s') :
    s'.nested := by
  intro i
  simp only [State.byteAt]
  rcases act_regions h with h | ⟨q, off, v, -, hq, -, hne⟩ | ⟨wi, -, h0, h1, h2, -⟩
  · simp only [h]; exact hn i
  · simp only [hne _ (hq _).symm]; exact hn i
  · have w0 := (hm (.sf 0)).1
    have w1 := (hm (.sf 1)).1
    have w2 := (hm (.sf 2)).1
    have r0 := Memory.read_writeWord w0 (4 * wi) i (sfWord0 s.v1 s.v2)
    have r1 := Memory.read_writeWord w1 (4 * wi) i (sfWord1 s.v1 s.v2)
    have r2 := Memory.read_writeWord w2 (4 * wi) i (sfWord2 s.v1 s.v2)
    rw [h0, h1, h2]
    refine ⟨?_, ?_⟩
    · refine (congrArg₂ (fun x y => x &&& ~~~ y) r2 r1).trans ?_
      split_ifs <;> first | exact (sfWord_nested _ _ _).1 | exact (hn i).1
    · refine (congrArg₂ (fun x y => x &&& ~~~ y) r1 r0).trans ?_
      split_ifs <;> first | exact (sfWord_nested _ _ _).2 | exact (hn i).2

/-! ### From actions to steps -/

/-- What every action, every change of work and every turn's own changes keep, a step keeps. -/
theorem step_keeps {P : State → Prop} (hw : ∀ s a w, P s → P (s.setWork a w)) (ht : ∀ s, P s → P s.inTurn)
    (hh : ∀ s p w, P s → P (s.hostTurn p w)) (ha : ∀ s s' a t, P s → act a t s = .done s' → P s') :
    ∀ s t, P s → step s = .next t → P t := by
  intro s t hp h
  have key : ∀ u u' t ts a, State.work u a = t :: ts → P u → act a t (u.setWork a ts) = .done u' → P u' :=
    fun u u' t ts a _ hu hd => ha _ _ _ _ (hw _ _ _ hu) hd
  obtain ⟨-, ⟨-, -, w, -, hg⟩ | ⟨-, pr, w, -, hg⟩⟩ := step_cases h
  · exact go_keeps (fun u u' t ts => key u u' t ts .engine) _ _ _ (hw _ _ _ (ht _ hp)) hg
  · exact go_keeps (fun u u' t ts => key u u' t ts .host) _ _ _ (hh _ _ _ hp) hg

theorem region_setWork (s : State) (a : Agent) (ts : List Task) (r : Region) : (s.setWork a ts).region r = s.region r := by
  cases a <;> cases r <;> rfl

theorem region_hostTurn (s : State) (p : List Instr) (ts : List Task) (r : Region) :
    (s.hostTurn p ts).region r = s.region r := by
  have := State.inTurn_region s r
  rw [← this]
  cases r <;> rfl

end Sys2Proof.Machine
end

