-- ==== Sys2Proof/Laws/Brightness.lean ====
section
/-! SUPPORT. The square root of R147, bit by bit, and the tables. -/

namespace Sys2Proof.Machine

/-- What the search for the root keeps: the root lies in [r, r + 2^k). -/
theorem isqrtBits_spec (k n r : Nat) (h1 : r * r ≤ n) (h2 : n < (r + 2 ^ k) * (r + 2 ^ k)) :
    isqrtBits k n r * isqrtBits k n r ≤ n ∧ n < (isqrtBits k n r + 1) * (isqrtBits k n r + 1) := by
  induction k generalizing r with
  | zero => simpa [isqrtBits] using ⟨h1, h2⟩
  | succ k ih =>
    simp only [isqrtBits]
    split
    · next h => exact ih _ h (by rw [Nat.pow_succ] at h2; convert h2 using 2 <;> ring)
    · next h => exact ih _ h1 (by omega)

theorem tripleGet_tripleSet (t : Triple) (k j : Fin 3) (v : Byte) :
    tripleGet (tripleSet t k v) j = if j = k then v else tripleGet t j := by
  fin_cases k <;> fin_cases j <;> rfl

/-- Setting every entry to those of another table gives that table. -/
theorem tripleSet_all (t u : Triple) :
    tripleSet (tripleSet (tripleSet t 0 (tripleGet u 0)) 1 (tripleGet u 1)) 2 (tripleGet u 2) = u := rfl

end Sys2Proof.Machine
end

