-- ==== Sys2Proof/Laws/Codec.lean ====
section
/-! SUPPORT. What reading a field does to a field that was written, and what a field that was read had been written
as. -/

namespace Sys2Proof

theorem leBytes_length (k n : Nat) : (leBytes k n).length = k := by
  induction k generalizing n with
  | zero => rfl
  | succ k ih => simp [leBytes, ih]

theorem fromLE_leBytes (k n : Nat) (h : n < 256 ^ k) : fromLE (leBytes k n) = n := by
  induction k generalizing n with
  | zero => simp at h; simp [leBytes, fromLE, h]
  | succ k ih =>
    have : n / 256 < 256 ^ k := by rw [Nat.pow_succ] at h; omega
    simp only [leBytes, fromLE, ih _ this, BitVec.toNat_ofNat]
    omega

theorem leBytes_fromLE (bs : List Byte) : leBytes bs.length (fromLE bs) = bs := by
  induction bs with
  | nil => rfl
  | cons b bs ih =>
    have hb := b.isLt
    simp only [List.length_cons, leBytes, fromLE]
    have h1 : (b.toNat + 256 * fromLE bs) / 256 = fromLE bs := by omega
    have h2 : BitVec.ofNat 8 (b.toNat + 256 * fromLE bs) = b := by
      apply BitVec.eq_of_toNat_eq; simp; omega
    rw [h1, h2, ih]

theorem fromLE_lt (bs : List Byte) : fromLE bs < 256 ^ bs.length := by
  induction bs with
  | nil => simp [fromLE]
  | cons b bs ih =>
    have hb := b.isLt
    simp only [fromLE, List.length_cons, Nat.pow_succ]; omega

theorem takeBytes_append (xs rest : List Byte) : takeBytes xs.length (xs ++ rest) = .ok (xs, rest) := by
  induction xs with
  | nil => cases rest <;> rfl
  | cons x xs ih => simp [takeBytes, ih, parsedMap, parsedThen]

theorem takeBytes_ok {n : Nat} {bs xs rest : List Byte} (h : takeBytes n bs = .ok (xs,
    rest)) : bs = xs ++ rest ∧ xs.length = n := by
  induction n generalizing bs xs with
  | zero => cases bs <;> cases h <;> simp
  | succ n ih =>
    cases bs with
    | nil => cases h
    | cons b bs =>
      simp only [takeBytes, parsedMap, parsedThen] at h
      split at h
      · next a r hr => cases h; obtain ⟨h1, h2⟩ := ih hr; simp [h1, h2]
      · cases h

theorem takeNat_leBytes {k n : Nat} (h : n < 256 ^ k)
    (rest : List Byte) : takeNat k (leBytes k n ++ rest) = .ok (n, rest) := by
  have := takeBytes_append (leBytes k n) rest
  rw [leBytes_length] at this
  simp [takeNat, parsedMap, parsedThen, this, fromLE_leBytes k n h]

theorem takeNat_ok {k n : Nat} {bs rest : List Byte} (h : takeNat k bs = .ok (n,
    rest)) : bs = leBytes k n ++ rest ∧ n < 256 ^ k := by
  simp only [takeNat, parsedMap, parsedThen] at h
  split at h
  · next a r hr =>
    cases h
    obtain ⟨rfl, rfl⟩ := takeBytes_ok hr
    exact ⟨by rw [leBytes_fromLE], fromLE_lt a⟩
  · cases h

theorem takeString_stringBytes {c : List Byte} (h : c.length < 2 ^ 32)
    (rest : List Byte) : takeString (stringBytes c ++ rest) = .ok (c, rest) := by
  simp only [takeString, stringBytes, List.append_assoc, parsedThen]
  rw [takeNat_leBytes (by omega)]
  exact takeBytes_append c rest

theorem takeString_ok {bs c rest : List Byte} (h : takeString bs = .ok (c, rest)) : bs = stringBytes c ++ rest := by
  simp only [takeString, parsedThen] at h
  split at h
  · next n r hr =>
    obtain ⟨h1, -⟩ := takeNat_ok hr
    obtain ⟨h2, h3⟩ := takeBytes_ok h
    simp [stringBytes, h1, h2, h3]
  · cases h

theorem takeWrite_writeBytes {w : PlaneWrite} (h : w.off < 2 ^ 32)
    (rest : List Byte) : takeWrite (writeBytes w ++ rest) = .ok (w, rest) := by
  obtain ⟨p, off, v⟩ := w
  have := takeNat_leBytes (k := 4) (n := off) (by simpa using h) (v :: rest)
  cases p <;> simp [takeWrite, writeBytes, takeField, parsedThen, takeByte, planeOf, planeByte, this]

theorem parsedThen_ok {α β : Type} {r : Parsed α} {f : α → List Byte → Parsed β} {b : β} {rest : List Byte}
    (h : parsedThen r f = .ok (b, rest)) : ∃ a r1, r = .ok (a, r1) ∧ f a r1 = .ok (b, rest) := by
  unfold parsedThen at h
  split at h
  · exact ⟨_, _, rfl, h⟩
  · cases h

theorem parsedMap_ok {α β : Type} {r : Parsed α} {f : α → β} {b : β} {rest : List Byte}
    (h : parsedMap f r = .ok (b, rest)) : ∃ a, r = .ok (a, rest) ∧ f a = b := by
  obtain ⟨a, r1, h1, h2⟩ := parsedThen_ok h
  cases h2
  exact ⟨a, h1, rfl⟩

theorem takeByte_ok {bs rest : List Byte} {b : Byte} (h : takeByte bs = .ok (b, rest)) : bs = b :: rest := by
  cases bs <;> cases h; rfl

theorem takeField_ok {α : Type} {f : Byte → Except DecodeError α} {bs rest : List Byte} {a : α}
    (h : takeField f bs = .ok (a, rest)) :
    ∃ b, bs = b :: rest ∧ f b = .ok a := by
  obtain ⟨b, r1, h1, h2⟩ := parsedThen_ok h
  split at h2 <;> cases h2
  exact ⟨b, takeByte_ok h1, by assumption⟩

theorem boolOf_ok {b : Byte} {v : Bool} (h : boolOf b = .ok v) : b = boolByte v := by
  unfold boolOf at h; repeat' split at h
  all_goals cases h
  all_goals assumption

theorem planeOf_ok {b : Byte} {v : Plane} (h : planeOf b = .ok v) : b = planeByte v := by
  unfold planeOf at h; repeat' split at h
  all_goals cases h
  all_goals assumption

theorem subframeOf_ok {b : Byte} {v : Fin 3} (h : subframeOf b = .ok v) : b = BitVec.ofNat 8 v.val := by
  unfold subframeOf at h; split at h <;> cases h
  simp

theorem takeWrite_ok {bs rest : List Byte} {w : PlaneWrite} (h : takeWrite bs = .ok (w,
    rest)) : bs = writeBytes w ++ rest := by
  obtain ⟨p, r1, h1, h⟩ := parsedThen_ok h
  obtain ⟨off, r2, h2, h⟩ := parsedThen_ok h
  obtain ⟨v, r3, h3, h⟩ := parsedThen_ok h
  cases h
  obtain ⟨b, rfl, hb⟩ := takeField_ok h1
  obtain ⟨rfl, -⟩ := takeNat_ok h2
  rw [takeByte_ok h3, planeOf_ok hb]
  simp [writeBytes]

theorem takeWrites_all {ws : List PlaneWrite} (h : ∀ w ∈ ws, w.off < 2 ^ 32)
    (rest : List Byte) : takeWrites ws.length (ws.flatMap writeBytes ++ rest) = .ok (ws, rest) := by
  induction ws with
  | nil => rfl
  | cons w ws ih =>
    simp only [List.length_cons, takeWrites, List.flatMap_cons, List.append_assoc, parsedThen,
        takeWrite_writeBytes (h w (by simp))]
    rw [ih (fun w hw => h w (by simp [hw]))]; rfl

theorem takeWrites_ok {n : Nat} {bs rest : List Byte} {ws : List PlaneWrite} (h : takeWrites n bs = .ok (ws,
    rest)) : bs = ws.flatMap writeBytes ++ rest ∧ ws.length = n := by
  induction n generalizing bs ws with
  | zero => cases h; simp
  | succ n ih =>
    obtain ⟨w, r, hw, h⟩ := parsedThen_ok h
    obtain ⟨ws', hws, rfl⟩ := parsedMap_ok h
    obtain ⟨h1, h2⟩ := ih hws
    simp [takeWrite_ok hw, h1, h2]

theorem seq_roundtrip (fn : Fin 3) (step : Nat) (h : step < 16) (rest : List Byte) :
    decode (BitVec.ofNat 8 (seqCode fn step) :: rest) =
      match decodeSeq fn.val step with
      | .ok i => .ok (i, rest)
      | .error e => .error e := by
  have hf := fn.isLt
  have h1 : (BitVec.ofNat 8 (seqCode fn step)).toNat = 16 * fn.val + step := by simp [seqCode]; omega
  simp only [decode, h1, seqFn, seqStep]
  rw [if_pos (by omega), show (16 * fn.val + step) / 16 = fn.val by omega,
      show (16 * fn.val + step) % 16 = step by omega]
  all_goals cases decodeSeq fn.val step <;> rfl

theorem seq_ok {b : Byte} {i : Instr} (h : decodeSeq (seqFn b.toNat)
    (seqStep b.toNat) = .ok i) : encode i = [b] := by
  revert i; revert b
  have key : ∀ n : Fin 256, ∀ i, decodeSeq (seqFn n.val) (seqStep n.val) = .ok i →
      encode i = [BitVec.ofNat 8 n.val] := by
    intro n i h
    have h16 : n.val = 16 * seqFn n.val + seqStep n.val := by unfold seqFn seqStep; omega
    have hs : seqStep n.val < 16 := by unfold seqStep; omega
    generalize seqFn n.val = f at *
    generalize seqStep n.val = g at *
    rw [h16]
    unfold decodeSeq withSubframe withFnZero at h
    split at h <;> (try split at h) <;> cases h <;> (subst_vars; rfl)
  intro b i h
  simpa using key ⟨b.toNat, b.isLt⟩ i h

end Sys2Proof
end

