-- ==== Sys2Proof/Laws/EngineSide.lean ====
section
/-! SUPPORT. The ENGINE in a safe state: what each of its actions can do, that none of them faults or refuses, and that
the state stays safe. -/

set_option linter.unusedSimpArgs false
set_option linter.unusedTactic false
set_option linter.unreachableTactic false

namespace Sys2Proof.Machine

/-- What an action of the ENGINE that is not the last of its operation leaves alone. -/
structure EngineBody (s s' : State) (ts : List Task) : Prop where
  cfg : s'.cfg = s.cfg
  threadState : s'.threadState = s.threadState
  fn : s'.fn = s.fn
  stepCode : s'.stepCode = s.stepCode
  hostWork : s'.hostWork = s.hostWork
  hostProg : s'.hostProg = s.hostProg
  result : s'.result = s.result
  planeA : s'.planeA = s.planeA
  planeB : s'.planeB = s.planeB
  pcmd : s'.pcmd = s.pcmd
  pcon : s'.pcon = s.pcon
  bright : s'.bright = s.bright
  invert : s'.invert = s.invert
  tick : s'.tick = s.tick
  dl : s'.dl = s.dl ∨ s'.dl < 2 ^ s.cfg.tickBits
  copyPending : s'.copyPending = s.copyPending ∨ (s'.copyPending = 0#32 ∧ atBoundary s.fn s.stepCode = true)
  pendingCmd : s'.pendingCmd = s.pendingCmd ∨ (s'.pendingCmd = 0#32 ∧ atBoundary s.fn s.stepCode = true)
  contrastPending : s'.contrastPending = s.contrastPending ∨ (s'.contrastPending = 0#32 ∧
      atBoundary s.fn s.stepCode = true)
  wcon : s'.wcon = s.wcon ∨ atBoundary s.fn s.stepCode = true
  sf : (s'.sf0 = s.sf0 ∧ s'.sf1 = s.sf1 ∧ s'.sf2 = s.sf2) ∨ passPlace s.fn s.stepCode = true
  work : ∃ xs, s'.engWork = xs ++ ts ∧ xs.all (bodyTask s.fn s.stepCode) = true ∧ xs.all (taskInRange s.cfg) = true

theorem busPlace_of_boundary {fn st} (h : atBoundary fn st = true) : busPlace fn st = true := by simp [busPlace, h]
theorem passPlace_of_boundary {fn st}
    (h : atBoundary fn st = true) : passPlace fn st = true := by simp [passPlace, h]

/-- A body action of the ENGINE waits or is done, and leaves what `EngineBody` says. -/
theorem act_engine_body {s : State} {t : Task} {ts : List Task} (hb : bodyTask s.fn s.stepCode t = true)
    (hr : taskInRange s.cfg t = true)
    (h0 : s.stepCode = posCode .start → s.fn = 0#2) :
    act .engine t (s.setWork .engine ts) = .wait ∨ ∃ s', act .engine t (s.setWork .engine ts) = .done s' ∧
        EngineBody s s' ts := by
  cases t with
  | emit g =>
    refine .inr ⟨_, rfl, ?_⟩
    have hp : busPlace s.fn s.stepCode = true := by
      cases g <;> simp [bodyTask, isBusTask, isPassTask, isServiceTask] at hb <;> simp [busPlace, hb]
      rcases hb with ⟨h | h, -⟩ <;> simp [h]
    constructor <;> simp [State.push, State.setWork, State.work, busGroupTasks, bodyTask, isBusTask, hp,
        taskInRange]
    exact ⟨[_, _, _, _], rfl, by simp [bodyTask, isBusTask, hp], by simp [taskInRange]⟩
  | drive dc =>
    have hp : busPlace s.fn s.stepCode = true := by simpa [bodyTask, isBusTask, isPassTask, isServiceTask] using hb
    refine .inr ⟨_, rfl, ?_⟩
    constructor <;> simp [State.push, State.setWork, State.work]
  | bytes k bs =>
    have hp : busPlace s.fn s.stepCode = true := by simpa [bodyTask, isBusTask, isPassTask, isServiceTask] using hb
    cases bs with
    | nil =>
      refine .inr ⟨_, rfl, ?_⟩
      constructor <;> simp [State.push, State.setWork, State.work]
    | cons b bs =>
      refine .inr ⟨_, rfl, ?_⟩
      constructor <;> simp [State.push, State.setWork, State.work, busByteTasks]
      exact ⟨[_, _, _], rfl, by simp [bodyTask, isBusTask, hp], by simp [taskInRange]⟩
  | send b =>
    cases h : s.tnf with
    | false => left; simp [act, sendAct, h]
    | true =>
      refine .inr ⟨_, by simp [act, sendAct, h]; rfl, ?_⟩
      constructor <;> simp [State.push, State.setWork, State.work]
  | drain =>
    have hp : busPlace s.fn s.stepCode = true := by simpa [bodyTask, isBusTask, isPassTask, isServiceTask] using hb
    cases h : s.rxq with
    | nil =>
      refine .inr ⟨_, by simp [act, drainAct, h]; rfl, ?_⟩
      constructor <;> simp [State.push, State.setWork, State.work]
    | cons b q =>
      refine .inr ⟨_, by simp [act, drainAct, h]; rfl, ?_⟩
      constructor <;> simp [State.push, State.setWork, State.work]
      exact ⟨[_], rfl, by simp [bodyTask, isBusTask, hp], by simp [taskInRange]⟩
  | idle =>
    cases h : s.bsy with
    | true => left; simp [act, idleAct, h]
    | false =>
      refine .inr ⟨_, by simp [act, idleAct, h]; rfl, ?_⟩
      constructor <;> simp [State.push, State.setWork, State.work]
  | await d =>
    cases h : deadlinePassed s.cfg s.tick d with
    | false => left; simp [act, awaitAct, h]
    | true =>
      refine .inr ⟨_, by simp [act, awaitAct, h]; rfl, ?_⟩
      constructor <;> simp [State.push, State.setWork, State.work]
  | setDeadline n =>
    refine .inr ⟨_, rfl, ?_⟩
    constructor <;> simp [State.push, State.setWork, State.work]
    · right; exact Nat.mod_lt _ (by positivity)
  | setFn k =>
    simp [bodyTask, isBusTask, isPassTask, isServiceTask] at hb
    have h0' := h0 hb.1
    obtain ⟨-, rfl⟩ := hb
    refine .inr ⟨_, rfl, ?_⟩
    constructor <;> simp [State.push, State.setWork, State.work, h0', fnBits]
  | pass =>
    have hp : passPlace s.fn s.stepCode = true := by simpa [bodyTask, isBusTask, isPassTask, isServiceTask] using hb
    refine .inr ⟨_, rfl, ?_⟩
    constructor <;> simp [State.push, State.setWork, State.work, hp]
    exact ⟨[_], rfl, by simp [bodyTask, isPassTask, hp], by simp [taskInRange]⟩
  | words k =>
    have hp : passPlace s.fn s.stepCode = true := by simpa [bodyTask, isBusTask, isPassTask, isServiceTask] using hb
    by_cases h : k < s.cfg.planeWords
    · refine .inr ⟨_, by simp [act, wordsAct, h]; rfl, ?_⟩
      constructor <;> simp [State.push, State.setWork, State.work, hp, sfgWordTasks]
      exact ⟨[_, _, _, _], rfl, by simp [bodyTask, isPassTask, hp], by simp [taskInRange, h]⟩
    · refine .inr ⟨_, by simp [act, wordsAct, h]; rfl, ?_⟩
      constructor <;> simp [State.push, State.setWork, State.work, hp]
  | loadV1 wi mask =>
    have hp : passPlace s.fn s.stepCode = true := by simpa [bodyTask, isBusTask, isPassTask, isServiceTask] using hb
    have hi : 4 * wi + 4 ≤ s.cfg.planeBytes := by
      have : s.cfg.planeWords = s.cfg.planeBytes / 4 := rfl
      simp [taskInRange] at hr; omega
    refine .inr ⟨_, by simp [act, loadV1Act, inRegion, regionSize, hi]; rfl, ?_⟩
    constructor <;> simp [State.push, State.setWork, State.work, hp]
  | loadV2 wi =>
    have hp : passPlace s.fn s.stepCode = true := by simpa [bodyTask, isBusTask, isPassTask, isServiceTask] using hb
    have hi : 4 * wi + 4 ≤ s.cfg.planeBytes := by
      have : s.cfg.planeWords = s.cfg.planeBytes / 4 := rfl
      simp [taskInRange] at hr; omega
    refine .inr ⟨_, by simp [act, loadV2Act, inRegion, regionSize, hi]; rfl, ?_⟩
    constructor <;> simp [State.push, State.setWork, State.work, hp]
  | storeSf wi =>
    have hp : passPlace s.fn s.stepCode = true := by simpa [bodyTask, isBusTask, isPassTask, isServiceTask] using hb
    have hi : 4 * wi + 4 ≤ s.cfg.planeBytes := by
      have : s.cfg.planeWords = s.cfg.planeBytes / 4 := rfl
      simp [taskInRange] at hr; omega
    refine .inr ⟨_, by simp [act, storeSfAct, inRegion, regionSize, hi]; rfl, ?_⟩
    constructor <;> simp [State.push, State.setWork, State.work, hp]
  | pollPublish =>
    have hp : atBoundary s.fn s.stepCode = true := by simpa [bodyTask, isBusTask, isPassTask,
        isServiceTask] using hb
    by_cases h : s.copyPending = 0#32
    · refine .inr ⟨_, by simp [act, pollPublishAct, h]; rfl, ?_⟩
      constructor <;> simp [State.push, State.setWork, State.work, hp]
    · refine .inr ⟨_, by simp [act, pollPublishAct, h]; rfl, ?_⟩
      constructor <;> simp [State.push, State.setWork, State.work, hp, svcPublishTasks]
      exact ⟨[_, _], rfl, by simp [bodyTask, isPassTask, isServiceTask, hp, passPlace_of_boundary hp],
          by simp [taskInRange]⟩
  | pollContrast =>
    have hp : atBoundary s.fn s.stepCode = true := by simpa [bodyTask, isBusTask, isPassTask,
        isServiceTask] using hb
    by_cases h : s.contrastPending = 0#32
    · refine .inr ⟨_, by simp [act, pollContrastAct, h]; rfl, ?_⟩
      constructor <;> simp [State.push, State.setWork, State.work, hp]
    · refine .inr ⟨_, by simp [act, pollContrastAct, h]; rfl, ?_⟩
      constructor <;> simp [State.push, State.setWork, State.work, hp, svcContrastTasks]
      exact ⟨[_, _, _, _], rfl, by simp [bodyTask, isPassTask, isServiceTask, hp], by simp [taskInRange]⟩
  | pollCommand =>
    have hp : atBoundary s.fn s.stepCode = true := by simpa [bodyTask, isBusTask, isPassTask,
        isServiceTask] using hb
    by_cases h : s.pendingCmd = 0#32
    · refine .inr ⟨_, by simp [act, pollCommandAct, h]; rfl, ?_⟩
      constructor <;> simp [State.push, State.setWork, State.work, hp]
    · refine .inr ⟨_, by simp [act, pollCommandAct, h]; rfl, ?_⟩
      constructor <;> simp [State.push, State.setWork, State.work, hp, svcCommandTasks]
      exact ⟨[_, _], rfl, by simp [bodyTask, isPassTask, isServiceTask, hp], by simp [taskInRange]⟩
  | pollContrastElseCommand =>
    have hp : atBoundary s.fn s.stepCode = true := by simpa [bodyTask, isBusTask, isPassTask,
        isServiceTask] using hb
    by_cases h : s.contrastPending = 0#32
    · refine .inr ⟨_, by simp [act, pollContrastElseCommandAct, h]; rfl, ?_⟩
      constructor <;> simp [State.push, State.setWork, State.work, hp]
      exact ⟨[_], rfl, by simp [bodyTask, isPassTask, isServiceTask, hp], by simp [taskInRange]⟩
    · refine .inr ⟨_, by simp [act, pollContrastElseCommandAct, h]; rfl, ?_⟩
      constructor <;> simp [State.push, State.setWork, State.work, hp, svcContrastTasks]
      exact ⟨[_, _, _, _], rfl, by simp [bodyTask, isPassTask, isServiceTask, hp], by simp [taskInRange]⟩
  | adopt k =>
    have hp : atBoundary s.fn s.stepCode = true := by simpa [bodyTask, isBusTask, isPassTask,
        isServiceTask] using hb
    refine .inr ⟨_, by simp [act, adoptAct]; rfl, ?_⟩
    constructor <;> simp [State.push, State.setWork, State.work, hp]
  | flagWrite f v =>
    cases f <;> simp [bodyTask, isBusTask, isPassTask, isServiceTask] at hb
    all_goals
      obtain ⟨hv, hp⟩ := hb
      subst hv
      refine .inr ⟨_, rfl, ?_⟩
      constructor <;> simp [State.push, State.setWork, State.work, hp, State.writeFlag, State.setFlag]
  | goto _ | announce _ _ | testRun | nextSubframe _ | spin _ _ | derive _ | setBright _ | fillPcmd _ _ | launch | drawByte _ | ret _ =>
    simp [bodyTask, isBusTask, isPassTask, isServiceTask] at hb

theorem workFits_append {b l : Task → Bool} {xs ts : List Task} (hx : xs.all b = true)
    (ht : workFits b l ts = true) (hn : ts ≠ []) :
    workFits b l (xs ++ ts) = true := by
  induction xs with
  | nil => exact ht
  | cons x xs ih =>
    simp at hx
    have := ih (by simpa using hx.2)
    cases h : xs ++ ts with
    | nil => simp_all
    | cons y ys => simp [h, workFits, hx.1] at this ⊢; exact this

theorem workFits_cons {b l : Task → Bool} {t : Task} {ts : List Task} (h : workFits b l (t :: ts) = true) :
    (ts = [] ∧ l t = true) ∨ (ts ≠ [] ∧ b t = true ∧ workFits b l ts = true) := by
  cases ts with
  | nil => exact .inl ⟨rfl, h⟩
  | cons u us => simp [workFits] at h; exact .inr ⟨by simp, h.1, by simpa [workFits] using h.2⟩

/-- What one action of the ENGINE leaves alone in a safe state. -/
structure EngineKeeps (s s' : State) : Prop where
  cfg : s'.cfg = s.cfg
  hostWork : s'.hostWork = s.hostWork
  hostProg : s'.hostProg = s.hostProg
  result : s'.result = s.result
  planeA : s'.planeA = s.planeA
  planeB : s'.planeB = s.planeB
  pcmd : s'.pcmd = s.pcmd
  pcon : s'.pcon = s.pcon
  bright : s'.bright = s.bright
  invert : s'.invert = s.invert
  copyPending : s'.copyPending = s.copyPending ∨ (s'.copyPending = 0#32 ∧ atBoundary s.fn s.stepCode = true)
  pendingCmd : s'.pendingCmd = s.pendingCmd ∨ (s'.pendingCmd = 0#32 ∧ atBoundary s.fn s.stepCode = true)
  contrastPending : s'.contrastPending = s.contrastPending ∨ (s'.contrastPending = 0#32 ∧
      atBoundary s.fn s.stepCode = true)
  wcon : s'.wcon = s.wcon ∨ atBoundary s.fn s.stepCode = true
  sf : (s'.sf0 = s.sf0 ∧ s'.sf1 = s.sf1 ∧ s'.sf2 = s.sf2) ∨ passPlace s.fn s.stepCode = true
  pos : (s'.fn = s.fn ∧ s'.stepCode = s.stepCode) ∨ s'.engWork = []

theorem phaseOk_of_body {s s' : State} (hn : s.engWork ≠ []) (h1 : s'.threadState = s.threadState)
    (h2 : s'.fn = s.fn) (h3 : s'.stepCode = s.stepCode) (h4 : s'.hostWork = s.hostWork)
  (h : s.phaseOk = true) : s'.phaseOk = true := by
  have : s.engineIdle = false := by simp [State.engineIdle, hn]
  simp only [State.phaseOk, this, State.atStart, State.inLoop, State.atExit, h1,h2,h3,h4] at h ⊢
  repeat' split_ifs at h ⊢
  all_goals simp_all

theorem requestsOk_of_cleared {s s' : State} (h4 : s'.hostWork = s.hostWork)
    (h5 : s'.pendingCmd = s.pendingCmd ∨ s'.pendingCmd = 0#32) (h6 : s'.contrastPending = s.contrastPending ∨
    s'.contrastPending = 0#32)
  (h : s.requestsOk = true) : s'.requestsOk = true := by
  simp only [State.requestsOk, h4] at h ⊢
  rcases h5 with h5 | h5 <;> rcases h6 with h6 | h6 <;> simp_all

/-- `phaseOk` as the four cases of THREAD_STATE. -/
theorem phaseOk_iff (s : State) : s.phaseOk = true ↔
    (s.threadState = stopped ∧ s.engineIdle = true ∧ (s.hostWork = enableTasks ∨
        s.hostWork.all directTask = true)) ∨
    (s.threadState = starting ∧ ((s.engineIdle = true ∧ launching s.hostWork = true) ∨ (s.atStart = true ∧
        s.hostWork = enableWait))) ∨
    (s.threadState = running ∧ s.inLoop = true ∧ (s.hostWork = disableTasks ∨ activeWork s.hostWork = true)) ∨
    (s.threadState = stopping ∧ (s.inLoop = true ∨ s.atExit = true) ∧ s.hostWork = disableWait) := by
  unfold State.phaseOk
  split_ifs with h1 h2 h3 h4 <;> simp_all [stopped, starting, running, stopping, -List.all_eq_true]

/-- An action of the ENGINE in a safe state waits, or is done and leaves a safe state. -/
theorem act_engine_safe {s : State} {t : Task} {ts : List Task} (hs : s.safe) (hw : s.engWork = t :: ts) :
    act .engine t (s.setWork .engine ts) = .wait ∨ ∃ s', act .engine t (s.setWork .engine ts) = .done s' ∧
        s'.safe ∧ EngineKeeps s s' := by
  obtain ⟨⟨hf, hph, hrq⟩, hrg, hir⟩ := hs
  have hne : s.engWork ≠ [] := by simp [hw]
  have hst : s.stepCode = posCode .start → s.fn = 0#2 := by
    intro h
    simp [State.phaseOk, State.engineIdle, State.atStart, State.inLoop, State.atExit, h, posCode, hw] at hph
    exact hph.2.2.1
  simp only [State.inRange, hw, List.all_cons, Bool.and_eq_true] at hir
  obtain ⟨⟨⟨hrt, hrts⟩, hrh⟩, hrp⟩ := hir
  have hf' := hf
  rw [State.engineFits, hw] at hf
  rcases workFits_cons hf with ⟨rfl, hl⟩ | ⟨hts, hb, hwf⟩
  · have key : ∀ s' : State, s'.cfg = s.cfg → s'.hostWork = s.hostWork → s'.hostProg = s.hostProg →
        s'.engWork = [] → s'.phaseOk = true →
        (∀ f, f ≠ Flag.threadState → s'.flag f = s.flag f) → s'.tick = s.tick → s'.dl = s.dl →
            s'.bright = s.bright → s'.safe := by
      intro s' k1 k2 k3 k4 k5 k6 k7 k8 k9
      refine ⟨⟨by simp [State.engineFits, k4, workFits], k5,
          requestsOk_of_cleared k2 (.inl (k6 .pendingCmd (by simp))) (.inl (k6 .contrastPending (by simp))) hrq⟩,
          ?_, ?_⟩
      · obtain ⟨g1, g2, g3, g4⟩ := hrg
        refine ⟨by rw [k9]; exact g1, ?_, by rw [k7, k1]; exact g3, by rw [k8, k1]; exact g4⟩
        intro f hf; rw [k6 f hf]; exact g2 f hf
      · rw [State.inRange, k4, k1, k2, k3]; simp [-List.all_eq_true, *]
    cases t with
    | goto p =>
      refine .inr ⟨_, rfl, key _ (by simp) (by simp [State.setWork]) (by simp [State.setWork])
          (by simp [State.setWork]) ?_ (by intro f hf; cases f <;> first | exact absurd rfl hf | rfl) (by simp)
          (by simp) (by simp), ?_⟩
      · rw [phaseOk_iff] at hph ⊢
        cases p <;> simp [lastTask] at hl <;> simp [State.engineIdle, State.atStart, State.inLoop, State.atExit,
            hl, posCode, hw, State.setWork, -List.all_eq_true] at hph ⊢ <;> exact hph
      · constructor <;> simp [State.setWork]
    | nextSubframe k =>
      simp [lastTask] at hl
      obtain ⟨h1, h2⟩ := hl
      rw [phaseOk_iff] at hph
      match k with
      | 0 =>
        refine .inr ⟨_, rfl, key _ (by simp) (by simp [State.setWork]) (by simp [State.setWork])
            (by simp [State.setWork]) ?_ (by intro f hf; cases f <;> first | exact absurd rfl hf | rfl) (by simp)
            (by simp) (by simp), ?_⟩
        · rw [phaseOk_iff]
          simp [State.engineIdle, State.atStart, State.inLoop, State.atExit, h1, posCode, hw, State.setWork,
              -List.all_eq_true] at hph ⊢
          tauto
        · constructor <;> simp [State.setWork]
      | 1 =>
        refine .inr ⟨_, rfl, key _ (by simp) (by simp [State.setWork]) (by simp [State.setWork])
            (by simp [State.setWork]) ?_ (by intro f hf; cases f <;> first | exact absurd rfl hf | rfl) (by simp)
            (by simp) (by simp), ?_⟩
        · rw [phaseOk_iff]
          simp [State.engineIdle, State.atStart, State.inLoop, State.atExit, h1, posCode, hw, State.setWork,
              -List.all_eq_true] at hph ⊢
          tauto
        · constructor <;> simp [State.setWork]
      | 2 =>
        refine .inr ⟨_, rfl, key _ (by simp) (by simp [State.setWork]) (by simp [State.setWork])
            (by simp [State.setWork]) ?_ (by intro f hf; cases f <;> first | exact absurd rfl hf | rfl) (by simp)
            (by simp) (by simp), ?_⟩
        · rw [phaseOk_iff]
          simp [State.engineIdle, State.atStart, State.inLoop, State.atExit, h1, posCode, hw, State.setWork,
              -List.all_eq_true] at hph ⊢
          tauto
        · constructor <;> simp [State.setWork]
    | testRun =>
      simp [lastTask] at hl
      rw [phaseOk_iff] at hph
      simp [State.engineIdle, State.atStart, State.inLoop, State.atExit, hl, posCode, hw, -List.all_eq_true] at hph
      rcases hph with ⟨h1, h2, h3⟩ | ⟨h1, h2, h3⟩
      · refine .inr ⟨_, by simp [act, testRunAct, legalThreadState, running, h1]; rfl, key _ (by simp)
            (by simp [State.setWork]) (by simp [State.setWork])
            (by simp [State.setWork]) ?_ (by intro f hf; cases f <;> first | exact absurd rfl hf | rfl) (by simp)
            (by simp) (by simp), ?_⟩
        · rw [phaseOk_iff]
          simp [State.engineIdle, State.atStart, State.inLoop, State.atExit, h1, posCode, hw, State.setWork,
              -List.all_eq_true]
          tauto
        · constructor <;> simp [State.setWork]
      · refine .inr ⟨_, by simp [act, testRunAct, legalThreadState, running, stopping, h1]; rfl, key _ (by simp)
            (by simp [State.setWork]) (by simp [State.setWork])
            (by simp [State.setWork]) ?_ (by intro f hf; cases f <;> first | exact absurd rfl hf | rfl) (by simp)
            (by simp) (by simp), ?_⟩
        · rw [phaseOk_iff]
          simp [State.engineIdle, State.atStart, State.inLoop, State.atExit, h1, posCode, hw, State.setWork,
              -List.all_eq_true]
          tauto
        · constructor <;> simp [State.setWork]
    | announce v p =>
      rw [phaseOk_iff] at hph
      cases p <;> simp [lastTask] at hl
      · obtain ⟨h1, rfl⟩ := hl
        simp [State.engineIdle, State.atStart, State.inLoop, State.atExit, h1, posCode, hw,
            -List.all_eq_true] at hph
        obtain ⟨h2, h3, h4⟩ := hph
        refine .inr ⟨_, by simp [act, announceAct, legalEdge, h2]; rfl, key _ (by simp) (by simp [State.setWork])
            (by simp [State.setWork]) (by simp [State.setWork]) ?_ (by intro f hf; cases f <;>
            first | exact absurd rfl hf | rfl) (by simp) (by simp) (by simp), ?_⟩
        · rw [phaseOk_iff]
          simp [State.engineIdle, State.atStart, State.inLoop, State.atExit, h1, posCode, hw, h2, h3, h4,
              State.setWork, State.writeFlag, State.setFlag, -List.all_eq_true, stopped]
          decide
        · constructor <;> simp [State.setWork, State.writeFlag, State.setFlag]
      · obtain ⟨h1, rfl⟩ := hl
        simp [State.engineIdle, State.atStart, State.inLoop, State.atExit, h1, posCode, hw,
            -List.all_eq_true] at hph
        obtain ⟨h2, h3, h4⟩ := hph
        refine .inr ⟨_, by simp [act, announceAct, legalEdge, h2]; rfl, key _ (by simp) (by simp [State.setWork])
            (by simp [State.setWork]) (by simp [State.setWork]) ?_ (by intro f hf; cases f <;>
            first | exact absurd rfl hf | rfl) (by simp) (by simp) (by simp), ?_⟩
        · rw [phaseOk_iff]
          simp [State.engineIdle, State.atStart, State.inLoop, State.atExit, h1, posCode, hw, h2, h3, h4,
              State.setWork, State.writeFlag, State.setFlag, -List.all_eq_true]
          decide
        · constructor <;> simp [State.setWork, State.writeFlag, State.setFlag]
    | _ => simp [lastTask] at hl
  · rcases act_engine_body (ts := ts) hb hrt hst with h | ⟨s', h, e⟩
    · exact .inl h
    · refine .inr ⟨s', h, ?_, ?_⟩
      · obtain ⟨xs, hx, hxb, hxr⟩ := e.work
        refine ⟨⟨?_, phaseOk_of_body hne e.threadState e.fn e.stepCode e.hostWork hph,
            requestsOk_of_cleared e.hostWork (e.pendingCmd.imp_right And.left)
            (e.contrastPending.imp_right And.left) hrq⟩, ?_, ?_⟩
        · rw [State.engineFits, hx, e.fn, e.stepCode]; exact workFits_append hxb hwf hts
        · obtain ⟨g1, g2, g3, g4⟩ := hrg
          refine ⟨by rw [e.bright]; exact g1, ?_, by rw [e.tick, e.cfg]; exact g3,
              by rw [e.cfg]; rcases e.dl with h | h <;> [rw [h]; exact h]; exact g4⟩
          intro f hf
          have := g2 f hf
          cases f <;> simp only [State.flag] at this ⊢
          · exact absurd rfl hf
          · rcases e.copyPending with h | ⟨h, -⟩ <;> rw [h] <;> [exact this; exact .inl rfl]
          · rcases e.pendingCmd with h | ⟨h, -⟩ <;> rw [h] <;> [exact this; exact .inl rfl]
          · rcases e.contrastPending with h | ⟨h, -⟩ <;> rw [h] <;> [exact this; exact .inl rfl]
          · rw [e.invert]; exact this
        · rw [State.inRange, hx, e.cfg, e.hostWork, e.hostProg]
          simp [-List.all_eq_true, List.all_append, *]
      · exact ⟨e.cfg, e.hostWork, e.hostProg, e.result, e.planeA, e.planeB, e.pcmd, e.pcon, e.bright, e.invert,
            e.copyPending, e.pendingCmd, e.contrastPending, e.wcon, e.sf, .inl ⟨e.fn, e.stepCode⟩⟩

/-- What a turn brings keeps a safe state safe. -/
theorem safe_inTurn {s : State} (h : s.safe) : s.inTurn.safe := by
  obtain ⟨⟨h1, h2, h3⟩, ⟨g1, g2, g3, g4⟩, h5⟩ := h
  refine ⟨⟨?_, ?_, ?_⟩, ⟨?_, ?_, ?_, ?_⟩, ?_⟩
  · simpa [State.engineFits] using h1
  · simpa [State.phaseOk, State.engineIdle, State.atStart, State.inLoop, State.atExit, -List.all_eq_true] using h2
  · simpa [State.requestsOk] using h3
  · simpa using g1
  · intro f hf; have := g2 f hf; cases f <;> simpa [State.flag] using this
  · have : s.inTurn.tick = (s.tick + s.nextTurn.ticks) % 2 ^ s.cfg.tickBits := by
      unfold State.inTurn State.takeTurn State.beginTurn State.nextTurn; cases s.inputs <;> rfl
    rw [this, State.inTurn_cfg]
    exact Nat.mod_lt _ (by positivity)
  · simpa using g4
  · simpa [State.inRange, -List.all_eq_true] using h5

theorem legalThreadState_of_safe {s : State} (h : s.safe) : legalThreadState s.threadState = true := by
  have := (phaseOk_iff s).1 h.1.2.1
  rcases this with h | h | h | h <;> simp [h.1, legalThreadState, stopped, starting, running, stopping]

theorem safe_setEngineWork {s : State} {w : List Task} (h : s.safe) (hw : s.engWork = [])
    (hi : s.engineIdle = true → w = [])
    (hf : workFits (bodyTask s.fn s.stepCode) (lastTask s.fn s.stepCode) w = true)
        (hr : w.all (taskInRange s.cfg) = true) : (s.setWork .engine w).safe := by
  obtain ⟨⟨h1, h2, h3⟩, h4, h5⟩ := h
  refine ⟨⟨hf, ?_, h3⟩, h4, ?_⟩
  · by_cases hw0 : w = []
    · subst hw0
      rw [phaseOk_iff] at h2 ⊢
      rw [State.engineIdle, hw] at h2; exact h2
    · have : ¬ s.engineIdle = true := fun h => hw0 (hi h)
      rw [phaseOk_iff] at h2 ⊢
      rcases h2 with h2 | h2 | h2 | h2
      · exact absurd h2.2.1 this
      · exact .inr (.inl ⟨h2.1, .inr (h2.2.resolve_left (fun h => this h.1))⟩)
      · exact .inr (.inr (.inl h2))
      · exact .inr (.inr (.inr h2))
  · simp only [State.inRange, Bool.and_eq_true] at h5 ⊢
    exact ⟨⟨hr, h5.1.2⟩, h5.2⟩

/-- Every position of R62 decodes. -/
theorem decodeSeq_of_position {fn : BitVec 2} {st : BitVec 4} (h : (fn = 0#2 ∧ (st = 0#4 ∨ st = 11#4 ∨
    st = 12#4 ∨ st = 13#4)) ∨ (fn ≠ 3#2 ∧ 1 ≤ st.toNat ∧ st.toNat ≤ 10)) :
   ∃ i, decodeSeq fn.toNat st.toNat = .ok i := by
  have key : ∀ f : Fin 4, ∀ g : Fin 16, ((f.val = 0 ∧ (g.val = 0 ∨ g.val = 11 ∨ g.val = 12 ∨ g.val = 13)) ∨
      (f.val ≠ 3 ∧ 1 ≤ g.val ∧ g.val ≤ 10)) →
     (decodeSeq f.val g.val).isOk = true := by decide
  have := key ⟨fn.toNat, fn.isLt⟩ ⟨st.toNat, st.isLt⟩ (by
    simp [← BitVec.toNat_inj] at h
    simpa using h)
  simp only at this
  cases hd : decodeSeq fn.toNat st.toNat with
  | ok i => exact ⟨i, rfl⟩
  | error e => rw [hd] at this; cases this

theorem fnBits_mk {fn : BitVec 2} (h : fn.toNat < 3) : fnBits ⟨fn.toNat, h⟩ = fn := by
  simp [fnBits]

/-- The actions of the operation at a position belong to that position. -/
theorem engineTasks_fits {s : State} {fn : BitVec 2} {st : BitVec 4} {i : Instr}
    (h : decodeSeq fn.toNat st.toNat = .ok i) :
    workFits (bodyTask fn st) (lastTask fn st) (engineTasks s i) = true ∧
        (engineTasks s i).all (taskInRange s.cfg) = true := by
  have hc : ∀ st : BitVec 4, ∃ k : Fin 16, st = BitVec.ofNat 4 k.val := by decide
  obtain ⟨k, rfl⟩ := hc st
  have hc : ∀ k : Fin 16, k = 0 ∨ k = 1 ∨ k = 2 ∨ k = 3 ∨ k = 4 ∨ k = 5 ∨ k = 6 ∨ k = 7 ∨ k = 8 ∨ k = 9 ∨
      k = 10 ∨ k = 11 ∨ k = 12 ∨ k = 13 ∨ k = 14 ∨ k = 15 := by decide
  rcases hc k with rfl | rfl | rfl | rfl | rfl | rfl | rfl | rfl | rfl | rfl | rfl | rfl | rfl | rfl | rfl | rfl <;>
    simp [decodeSeq, withFnZero, withSubframe] at h <;> (try split at h) <;> cases h
  case inr.inr.inr.inr.inr.inr.inr.inr.inr.inl.isTrue hfn =>
    by_cases h2 : fn = 2#2
    · subst h2
      cases hp : s.cfg.policy <;> simp [engineTasks, hp, workFits, taskInRange, bodyTask, lastTask,
          isServiceTask, isPassTask, isBusTask, posCode, fnBits_mk, serviceTasks, atBoundary, passPlace, busPlace]
    · have : ¬ ((⟨fn.toNat, hfn⟩ : Fin 3) = 2) := by
        intro h; apply h2; apply BitVec.eq_of_toNat_eq; simpa [Fin.ext_iff] using h
      simp [engineTasks, this, workFits, taskInRange, lastTask, posCode]
  all_goals simp_all [engineTasks, workFits, taskInRange, bodyTask, lastTask, isServiceTask, isPassTask,
      isBusTask, posCode, fnBits_mk, serviceTasks, atBoundary, passPlace, busPlace]

/-- In a safe state the place of an ENGINE at rest decodes, and its operation can begin. -/
theorem begin_engine_safe {s : State} (h : s.safe) (hw : s.engWork = []) :
    ∃ i, decodeSeq s.fn.toNat s.stepCode.toNat = .ok i ∧ (s.setWork .engine (engineTasks s i)).safe := by
  have hd : ∃ i, decodeSeq s.fn.toNat s.stepCode.toNat = .ok i := by
    apply decodeSeq_of_position
    have := (phaseOk_iff s).1 h.1.2.1
    simp [State.engineIdle, State.atStart, State.inLoop, State.atExit, posCode] at this
    tauto
  obtain ⟨i, hi⟩ := hd
  refine ⟨i, hi, ?_⟩
  apply safe_setEngineWork h hw
  · intro hid
    simp [State.engineIdle, posCode] at hid
    simp [hid, decodeSeq, withFnZero] at hi
    subst hi; rfl
  · exact (engineTasks_fits hi).1
  · exact (engineTasks_fits hi).2

/-- What a turn of the ENGINE leaves alone in a safe state; the place is that at its beginning. -/
structure EngineRan (s s' : State) : Prop where
  cfg : s'.cfg = s.cfg
  hostWork : s'.hostWork = s.hostWork
  hostProg : s'.hostProg = s.hostProg
  result : s'.result = s.result
  planeA : s'.planeA = s.planeA
  planeB : s'.planeB = s.planeB
  pcmd : s'.pcmd = s.pcmd
  pcon : s'.pcon = s.pcon
  bright : s'.bright = s.bright
  invert : s'.invert = s.invert
  copyPending : s'.copyPending = s.copyPending ∨ (s'.copyPending = 0#32 ∧ atBoundary s.fn s.stepCode = true)
  pendingCmd : s'.pendingCmd = s.pendingCmd ∨ (s'.pendingCmd = 0#32 ∧ atBoundary s.fn s.stepCode = true)
  contrastPending : s'.contrastPending = s.contrastPending ∨ (s'.contrastPending = 0#32 ∧
      atBoundary s.fn s.stepCode = true)
  wcon : s'.wcon = s.wcon ∨ atBoundary s.fn s.stepCode = true
  sf : (s'.sf0 = s.sf0 ∧ s'.sf1 = s.sf1 ∧ s'.sf2 = s.sf2) ∨ passPlace s.fn s.stepCode = true

theorem EngineRan.refl (s : State) : EngineRan s s := by constructor <;> simp

/-- A turn of the ENGINE from a safe state ends in a safe state. -/
theorem go_engine_safe : ∀ (n : Nat) {s : State}, s.safe → ∃ t, go .engine n s = .next t ∧ t.safe ∧
    EngineRan s t := by
  intro n
  induction n with
  | zero => intro s hs; exact ⟨s, rfl, hs, EngineRan.refl s⟩
  | succ n ih =>
    intro s hs
    cases hw : s.engWork with
    | nil => exact ⟨s, go_rest_engine _ hw, hs, EngineRan.refl s⟩
    | cons t ts =>
      rcases act_engine_safe hs hw with h | ⟨s', h, hs', k⟩
      · exact ⟨s, by simp [go, State.work, hw, h], hs, EngineRan.refl s⟩
      · have hgo : go .engine (n + 1) s = go .engine n s' := by simp [go, State.work, hw, h]
        rcases k.pos with ⟨p1, p2⟩ | hemp
        · obtain ⟨u, hu, hsu, r⟩ := ih hs'
          refine ⟨u, hgo.trans hu, hsu, ?_⟩
          have c1 := r.copyPending; have c2 := r.pendingCmd; have c3 := r.contrastPending; have c4 := r.wcon; have c5 := r.sf
          rw [p1, p2] at c1 c2 c3 c4 c5
          constructor
          · rw [r.cfg, k.cfg]
          · rw [r.hostWork, k.hostWork]
          · rw [r.hostProg, k.hostProg]
          · rw [r.result, k.result]
          · rw [r.planeA, k.planeA]
          · rw [r.planeB, k.planeB]
          · rw [r.pcmd, k.pcmd]
          · rw [r.pcon, k.pcon]
          · rw [r.bright, k.bright]
          · rw [r.invert, k.invert]
          · rcases c1 with c1 | c1
            · rw [c1]; exact k.copyPending
            · exact .inr c1
          · rcases c2 with c1 | c1
            · rw [c1]; exact k.pendingCmd
            · exact .inr c1
          · rcases c3 with c1 | c1
            · rw [c1]; exact k.contrastPending
            · exact .inr c1
          · rcases c4 with c1 | c1
            · rw [c1]; exact k.wcon
            · exact .inr c1
          · rcases c5 with ⟨c1, c2, c3⟩ | c1
            · rw [c1, c2, c3]; exact k.sf
            · exact .inr c1
        · refine ⟨s', hgo.trans (go_rest_engine _ hemp), hs', ?_⟩
          exact ⟨k.cfg, k.hostWork, k.hostProg, k.result, k.planeA, k.planeB, k.pcmd, k.pcon, k.bright, k.invert,
              k.copyPending, k.pendingCmd, k.contrastPending, k.wcon, k.sf⟩

end Sys2Proof.Machine
end

