-- ==== Sys2Proof/Laws/HostSide.lean ====
section
/-! SUPPORT. The HOST in a safe state: what each of its actions can do, that none of them faults or refuses, that the
state stays safe, and that every ordinary call can begin. -/

set_option linter.unusedSimpArgs false
set_option linter.unusedTactic false
set_option linter.unreachableTactic false

namespace Sys2Proof.Machine

/-- What an action of the HOST leaves alone. -/
structure HostBase (s s' : State) : Prop where
  cfg : s'.cfg = s.cfg
  hostProg : s'.hostProg = s.hostProg
  sf0 : s'.sf0 = s.sf0
  sf1 : s'.sf1 = s.sf1
  sf2 : s'.sf2 = s.sf2
  dl : s'.dl = s.dl
  wi : s'.wi = s.wi
  mask : s'.mask = s.mask
  v1 : s'.v1 = s.v1
  v2 : s'.v2 = s.v2
  engWork : s'.engWork = s.engWork
  tick : s'.tick = s.tick
  bright : s'.bright = s.bright ∨ s'.bright ≤ Config.brightMax
  copyPending : s'.copyPending = s.copyPending ∨ s'.copyPending = 1#32
  invert : s'.invert = s.invert ∨ s'.invert = 0#32 ∨ s'.invert = 1#32

/-- What an action of the HOST leaves alone when it writes neither THREAD_STATE nor a request for a blocked caller. -/
structure HostStep (s s' : State) (ts : List Task) (body : Task → Bool) : Prop extends HostBase s s' where
  threadState : s'.threadState = s.threadState
  fn : s'.fn = s.fn
  stepCode : s'.stepCode = s.stepCode
  pendingCmd : s'.pendingCmd = s.pendingCmd
  contrastPending : s'.contrastPending = s.contrastPending
  wcon : s'.wcon = s.wcon ∨ s.threadState = stopped
  work : ∃ xs, s'.hostWork = xs ++ ts ∧ xs.all body = true ∧ xs.all (taskInRange s.cfg) = true

/-- A bus action of the HOST while it owns the port waits or is done. -/
theorem act_host_bus {s : State} {t : Task} {ts : List Task} (ho : s.busOwner = .host)
    (ht : (isBusTask t = true ∨ ∃ g, t = .emit g)) :
    act .host t (s.setWork .host ts) = .wait ∨ ∃ s', act .host t (s.setWork .host ts) = .done s' ∧
        HostStep s s' ts isBusTask := by
  have hm : ∀ w, (s.setWork .host w).mayDriveBus .host = true := by
    intro w; rw [mayDriveBus_congr (s := s) (by simp) (by simp)]; simp [State.mayDriveBus, ho]
  cases t with
  | emit g =>
    refine .inr ⟨_, rfl, ?_⟩
    constructor <;> simp [State.push, State.setWork, State.work, busGroupTasks, isBusTask, taskInRange]
    constructor <;> simp [State.push, State.setWork, State.work, busGroupTasks, isBusTask, taskInRange]
    exact ⟨[_, _, _, _], rfl, by simp [isBusTask], by simp [taskInRange]⟩
  | drive dc =>
    refine .inr ⟨_, by simp [act, driveAct, hm]; rfl, ?_⟩
    constructor <;> simp [State.push, State.setWork, State.work]
    constructor <;> simp [State.push, State.setWork, State.work]
  | bytes k bs =>
    cases bs with
    | nil =>
      refine .inr ⟨_, rfl, ?_⟩
      constructor <;> simp [State.push, State.setWork, State.work]
      constructor <;> simp [State.push, State.setWork, State.work]
    | cons b bs =>
      refine .inr ⟨_, rfl, ?_⟩
      constructor <;> simp [State.push, State.setWork, State.work, busByteTasks]
      constructor <;> simp [State.push, State.setWork, State.work, busByteTasks]
      exact ⟨[_, _, _], rfl, by simp [isBusTask], by simp [taskInRange]⟩
  | send b =>
    cases h : s.tnf with
    | false => left; simp [act, sendAct, h, hm]
    | true =>
      refine .inr ⟨_, by simp [act, sendAct, h, hm]; rfl, ?_⟩
      constructor <;> simp [State.push, State.setWork, State.work]
      constructor <;> simp [State.push, State.setWork, State.work]
  | drain =>
    cases h : s.rxq with
    | nil =>
      refine .inr ⟨_, by simp [act, drainAct, h]; rfl, ?_⟩
      constructor <;> simp [State.push, State.setWork, State.work]
      constructor <;> simp [State.push, State.setWork, State.work]
    | cons b q =>
      refine .inr ⟨_, by simp [act, drainAct, h]; rfl, ?_⟩
      constructor <;> simp [State.push, State.setWork, State.work]
      constructor <;> simp [State.push, State.setWork, State.work]
      exact ⟨[_], rfl, by simp [isBusTask], by simp [taskInRange]⟩
  | idle =>
    cases h : s.bsy with
    | true => left; simp [act, idleAct, h]
    | false =>
      refine .inr ⟨_, by simp [act, idleAct, h]; rfl, ?_⟩
      constructor <;> simp [State.push, State.setWork, State.work]
      constructor <;> simp [State.push, State.setWork, State.work]
  | _ => simp [isBusTask] at ht

/-- actions allowed in both paths -/
def plainTask : Task → Bool
  | .ret _ => true
  | .drawByte _ => true
  | .derive _ => true
  | .setBright b => decide (b ≤ Config.brightMax)
  | .fillPcmd _ _ => true
  | .flagWrite .copyPending v => v == 1#32
  | .flagWrite .invert v => v == 0#32 || v == 1#32
  | .spin _ _ => true
  | _ => false

def isFill : Task → Bool
  | .fillPcmd _ _ => true
  | _ => false

/-- An action of the HOST that needs no bus waits or is done. -/
theorem act_host_plain {s : State} {t : Task} {ts : List Task} (hl : legalThreadState s.threadState = true)
    (ht : plainTask t = true) (hr : taskInRange s.cfg t = true)
    (h1 : (∃ k, t = .derive k) → s.contrastPending = 0#32) (h2 : (∃ k b, t = .fillPcmd k b) → s.pendingCmd = 0#32) :
    act .host t (s.setWork .host ts) = .wait ∨ ∃ s', act .host t (s.setWork .host ts) = .done s' ∧
      HostStep s s' ts (fun u => isFill t && isFill u) ∧ (∀ f v, t = .spin f v → s.flag f = v) := by
  cases t with
  | ret r =>
    refine .inr ⟨_, rfl, ?_, by simp⟩
    constructor <;> simp [State.push, State.setWork, State.work]
    constructor <;> simp [State.push, State.setWork, State.work]
  | drawByte w =>
    have hi : w.off + 1 ≤ s.cfg.planeBytes := by simp [taskInRange] at hr; omega
    have : inRegion s.cfg (planeRegion w.plane) w.off 1 = true := by
      cases h : w.plane <;> simp [inRegion, planeRegion, regionSize, hi]
    refine .inr ⟨_, by simp [act, drawByteAct, this]; rfl, ?_, by simp⟩
    constructor <;> simp [State.push, State.setWork, State.work]
    · cases w.plane <;> constructor <;> simp [State.push, State.setWork, State.work, planeRegion, State.setRegion]
  | derive k =>
    refine .inr ⟨_, if_pos (show (s.setWork .host ts).contrastPending = 0#32 from h1 ⟨_, rfl⟩), ?_, by simp⟩
    constructor <;> simp [State.push, State.setWork, State.work]
    constructor <;> simp [State.push, State.setWork, State.work]
  | setBright b =>
    simp [plainTask] at ht
    refine .inr ⟨_, rfl, ?_, by simp⟩
    constructor <;> simp [State.push, State.setWork, State.work]
    constructor <;> simp [State.push, State.setWork, State.work, ht]
  | fillPcmd k bs =>
    have h2x := h2 ⟨_, _, rfl⟩
    cases bs with
    | nil =>
      refine .inr ⟨_, rfl, ?_, by simp⟩
      constructor <;> simp [State.push, State.setWork, State.work]
      constructor <;> simp [State.push, State.setWork, State.work]
    | cons b bs =>
      simp [taskInRange] at hr
      have hi : k + 1 ≤ s.cfg.pcmdLen := by omega
      refine .inr ⟨_,
          (if_pos (show (s.setWork .host ts).pendingCmd = 0#32 from h2x)).trans (if_pos (by simp [inRegion,
          regionSize, hi])), ?_, by simp⟩
      constructor <;> simp [State.push, State.setWork, State.work]
      · constructor <;> simp [State.push, State.setWork, State.work]
      · exact ⟨[_], rfl, by simp [isFill], by simp [taskInRange]; omega⟩
  | flagWrite f v =>
    cases f <;> simp [plainTask] at ht
    · subst ht
      refine .inr ⟨_, rfl, ?_, by simp⟩
      constructor <;> simp [State.push, State.setWork, State.work, State.writeFlag, State.setFlag]
      constructor <;> simp [State.push, State.setWork, State.work, State.writeFlag, State.setFlag]
    · refine .inr ⟨_, rfl, ?_, by simp⟩
      constructor <;> simp [State.push, State.setWork, State.work, State.writeFlag, State.setFlag]
      constructor <;> simp [State.push, State.setWork, State.work, State.writeFlag, State.setFlag]
      exact .inr ht
  | spin f v =>
    by_cases h : s.flag f = v
    · refine .inr ⟨s.setWork .host ts, ?_, ?_, ?_⟩
      · cases f <;> simp [State.flag] at h <;> simp [act, spinAct, State.flag, h, hl]
        rw [← h]; exact hl
      · constructor <;> simp [State.push, State.setWork, State.work]
        constructor <;> simp [State.push, State.setWork, State.work]
      · intro f' v' he; cases he; exact h
    · left
      cases f <;> simp [State.flag] at h <;> simp [act, spinAct, State.flag, h, hl]
  | _ => simp [plainTask] at ht

/-- What one action of the HOST leaves alone in a safe state. -/
structure HostKeeps (s s' : State) : Prop where
  cfg : s'.cfg = s.cfg
  hostProg : s'.hostProg = s.hostProg
  sf0 : s'.sf0 = s.sf0
  sf1 : s'.sf1 = s.sf1
  sf2 : s'.sf2 = s.sf2
  dl : s'.dl = s.dl
  wi : s'.wi = s.wi
  mask : s'.mask = s.mask
  v1 : s'.v1 = s.v1
  v2 : s'.v2 = s.v2
  engWork : s'.engWork = s.engWork
  copyPending : s'.copyPending = s.copyPending ∨ s'.copyPending = 1#32
  pendingCmd : s'.pendingCmd = s.pendingCmd ∨ s'.pendingCmd = 1#32
  contrastPending : s'.contrastPending = s.contrastPending ∨ s'.contrastPending = 1#32
  wcon : s'.wcon = s.wcon ∨ s.threadState = stopped
  pos : (s'.fn = s.fn ∧ s'.stepCode = s.stepCode) ∨ (s.stepCode = posCode .idle ∧ s'.fn = 0#2 ∧
      s'.stepCode = posCode .start)
  ts : s'.threadState = stopped → s.threadState = stopped

theorem safe_hostBase {s s' : State} (hs : s.safe) (b : HostBase s s') (hfn : s'.fn = s.fn ∧
    s'.stepCode = s.stepCode) (hp : s'.phaseOk = true) (hrq : s'.requestsOk = true)
   (h1 : s'.pendingCmd = s.pendingCmd ∨ s'.pendingCmd = 1#32) (h2 : s'.contrastPending = s.contrastPending ∨
       s'.contrastPending = 1#32)
   (hw : s'.hostWork.all (taskInRange s.cfg) = true) : s'.safe := by
  obtain ⟨⟨hf, hph, hrq'⟩, ⟨g1, g2, g3, g4⟩, hir⟩ := hs
  simp only [State.inRange, Bool.and_eq_true] at hir
  refine ⟨⟨?_, hp, hrq⟩, ⟨?_, ?_, ?_, ?_⟩, ?_⟩
  · rw [State.engineFits, hfn.1, hfn.2, b.engWork]; exact hf
  · rcases b.bright with h | h
    · rw [h]; exact g1
    · exact h
  · intro f hf
    have := g2 f hf
    cases f <;> simp only [State.flag] at this ⊢
    · exact absurd rfl hf
    · rcases b.copyPending with h | h <;> rw [h] <;> [exact this; exact .inr rfl]
    · rcases h1 with h | h <;> rw [h] <;> [exact this; exact .inr rfl]
    · rcases h2 with h | h <;> rw [h] <;> [exact this; exact .inr rfl]
    · rcases b.invert with h | h <;> [(rw [h]; exact this); exact h]
  · rw [b.tick, b.cfg]; exact g3
  · rw [b.dl, b.cfg]; exact g4
  · simp only [State.inRange, b.engWork, b.cfg, b.hostProg, Bool.and_eq_true]
    exact ⟨⟨hir.1.1, hw⟩, hir.2⟩

theorem enginePlace_congr {s s' : State} (e1 : s'.fn = s.fn) (e2 : s'.stepCode = s.stepCode)
    (e3 : s'.engWork = s.engWork) : s'.engineIdle = s.engineIdle ∧ s'.atStart = s.atStart ∧
    s'.inLoop = s.inLoop ∧ s'.atExit = s.atExit := by
  simp [State.engineIdle, State.atStart, State.inLoop, State.atExit, e1, e2, e3]

theorem hostWork_inRange {s : State} {t ts} (hs : s.safe)
    (hw : s.hostWork = t :: ts) : taskInRange s.cfg t = true ∧ ts.all (taskInRange s.cfg) = true := by
  have := hs.2.2
  simp only [State.inRange, hw, List.all_cons, Bool.and_eq_true] at this
  exact this.1.2

theorem safe_hostStep {s s' : State} {ts : List Task} (hs : s.safe) (hts : ts.all (taskInRange s.cfg) = true)
    {body : Task → Bool} (k : HostStep s s' ts body) (hp : s'.phaseOk = true)
     (hrq : s'.requestsOk = true) : s'.safe ∧ HostKeeps s s' := by
  obtain ⟨xs, hx, -, hxr⟩ := k.work
  refine ⟨safe_hostBase hs k.toHostBase ⟨k.fn, k.stepCode⟩ hp hrq (.inl k.pendingCmd)
      (.inl k.contrastPending) ?_, ?_⟩
  · rw [hx, List.all_append, hxr, hts]; rfl
  · exact ⟨k.cfg, k.hostProg, k.sf0, k.sf1, k.sf2, k.dl, k.wi, k.mask, k.v1, k.v2, k.engWork, k.copyPending,
        .inl k.pendingCmd, .inl k.contrastPending, k.wcon, .inl ⟨k.fn, k.stepCode⟩,
        fun h => by rw [← k.threadState]; exact h⟩

/-- The two writes of THREAD_STATE by the HOST, in a safe state. -/
theorem act_host_threadState {s : State} {v : Word} {ts : List Task} (hs : s.safe)
    (hw : s.hostWork = .flagWrite .threadState v :: ts) (hl : legalEdge .host s.threadState v = true)
    (hv : v ≠ stopped)
    (hp : ∀ s' : State, s'.threadState = v → s'.fn = s.fn → s'.stepCode = s.stepCode → s'.engWork = s.engWork →
        s'.hostWork = ts → s'.phaseOk = true) :
    ∃ s', act .host (.flagWrite .threadState v) (s.setWork .host ts) = .done s' ∧ s'.safe ∧ HostKeeps s s' := by
  have hrq := hs.1.2.2
  simp only [State.requestsOk, hw, Bool.and_eq_true, Bool.or_eq_true, beq_iff_eq] at hrq
  have hz : s.pendingCmd = 0#32 ∧ s.contrastPending = 0#32 := by simpa [requestWait] using hrq
  refine ⟨_, if_pos (by simpa using hl), ?_, ?_⟩
  · refine safe_hostBase hs ?_ ?_ ?_ ?_ ?_ ?_ ?_
    · constructor <;> simp [State.setWork, State.writeFlag, State.setFlag]
    · simp [State.setWork, State.writeFlag, State.setFlag]
    · apply hp <;> simp [State.setWork, State.writeFlag, State.setFlag]
    · simp [State.requestsOk, State.setWork, State.writeFlag, State.setFlag, hz]
    · simp [State.setWork, State.writeFlag, State.setFlag]
    · simp [State.setWork, State.writeFlag, State.setFlag]
    · exact (hostWork_inRange hs hw).2
  · constructor <;> simp [State.setWork, State.writeFlag, State.setFlag, hv]

/-- An action of the HOST while the engine is Stopped. -/
theorem act_host_direct {s : State} {t : Task} {ts : List Task} (hs : s.safe) (hw : s.hostWork = t :: ts)
    (h1 : s.threadState = stopped) (hidle : s.engineIdle = true) (hdir : (t :: ts).all directTask = true) :
    act .host t (s.setWork .host ts) = .wait ∨ ∃ s', act .host t (s.setWork .host ts) = .done s' ∧ s'.safe ∧
        HostKeeps s s' := by
  have hrq := hs.1.2.2
  obtain ⟨hrt, hrts⟩ := hostWork_inRange hs hw
  simp only [State.requestsOk, hw, Bool.and_eq_true, Bool.or_eq_true, beq_iff_eq] at hrq
  simp only [List.all_cons, Bool.and_eq_true] at hdir
  have hz : s.pendingCmd = 0#32 ∧ s.contrastPending = 0#32 := by
    constructor
    · rcases hrq.1 with h | h
      · exact h
      · obtain ⟨rfl, -⟩ := List.cons.inj h; simp [directTask] at hdir
    · rcases hrq.2 with h | h
      · exact h
      · obtain ⟨rfl, -⟩ := List.cons.inj h; simp [directTask] at hdir
  have ho : s.busOwner = .host := by simp [State.busOwner, h1, stopped]
  have fin : ∀ (body : Task → Bool) (s' : State), (∀ t, body t = true → directTask t = true) →
      HostStep s s' ts body → s'.safe ∧ HostKeeps s s' := by
    intro body s' hb k
    refine safe_hostStep hs hrts k ?_ ?_
    · obtain ⟨xs, hx, hxb, -⟩ := k.work
      rw [phaseOk_iff]
      left
      refine ⟨k.threadState.trans h1, (enginePlace_congr k.fn k.stepCode k.engWork).1.trans hidle, .inr ?_⟩
      rw [hx, List.all_append, hdir.2, Bool.and_true]
      rw [List.all_eq_true] at hxb ⊢
      exact fun t ht => hb t (hxb t ht)
    · simp [State.requestsOk, k.pendingCmd, k.contrastPending, hz]
  have hbd : ∀ t, isBusTask t = true → directTask t = true := by intro t ht; cases t <;> first | rfl | cases ht
  by_cases hbus : isBusTask t = true ∨ ∃ g, t = .emit g
  · rcases act_host_bus (ts := ts) ho hbus with h | ⟨s', h, k⟩
    · exact .inl h
    · exact .inr ⟨s', h, fin _ s' hbd k⟩
  · by_cases had : ∃ k, t = .adopt k
    · obtain ⟨k, rfl⟩ := had
      refine .inr ⟨_, if_neg (by simp [h1, stopped, running]), ?_⟩
      refine fin isBusTask _ hbd ?_
      constructor <;> simp [State.setWork, h1]
      constructor <;> simp [State.setWork]
    · have hpl : plainTask t = true ∧ isFill t = false := by
        have := hdir.1
        cases t with
        | flagWrite f v => cases f <;> first | exact ⟨this, rfl⟩ | cases this
        | spin f v => exact ⟨rfl, rfl⟩
        | ret r => exact ⟨rfl, rfl⟩
        | drawByte r => exact ⟨rfl, rfl⟩
        | derive r => exact ⟨rfl, rfl⟩
        | setBright b => exact ⟨this, rfl⟩
        | emit g => exact absurd (.inr ⟨g, rfl⟩) hbus
        | adopt k => exact absurd ⟨k, rfl⟩ had
        | drive | bytes | send | drain | idle => exact absurd (.inl rfl) hbus
        | _ => cases this
      rcases act_host_plain (ts := ts) (legalThreadState_of_safe hs) hpl.1 hrt (fun _ => hz.2)
          (fun _ => hz.1) with h | ⟨s', h, k, -⟩
      · exact .inl h
      · exact .inr ⟨s', h, fin _ s' (by intro t ht; simp [hpl.2] at ht) k⟩

/-- An action of ENABLE between its write of Starting and the launch. -/
theorem act_host_launching {s : State} {t : Task} {ts : List Task} (hs : s.safe) (hw : s.hostWork = t :: ts)
    (h1 : s.threadState = starting) (hidle : s.engineIdle = true) (hla : launching (t :: ts) = true) :
    act .host t (s.setWork .host ts) = .wait ∨ ∃ s', act .host t (s.setWork .host ts) = .done s' ∧ s'.safe ∧
        HostKeeps s s' := by
  have hrq := hs.1.2.2
  obtain ⟨hrt, hrts⟩ := hostWork_inRange hs hw
  simp only [State.requestsOk, hw, Bool.and_eq_true, Bool.or_eq_true, beq_iff_eq] at hrq
  have hz : s.pendingCmd = 0#32 ∧ s.contrastPending = 0#32 := by
    constructor
    · rcases hrq.1 with h | h
      · exact h
      · obtain ⟨rfl, rfl⟩ := List.cons.inj h; exact absurd hla (by decide)
    · rcases hrq.2 with h | h
      · exact h
      · obtain ⟨rfl, rfl⟩ := List.cons.inj h; exact absurd hla (by decide)
  have ho : s.busOwner = .host := by
    simp only [State.engineIdle, Bool.and_eq_true, beq_iff_eq] at hidle
    simp [State.busOwner, h1, starting, hidle]
  by_cases hb : (isBusTask t || t == .emit .modeGray) = true
  · have hla' : launching ts = true := by simpa [launching, List.dropWhile_cons, hb] using hla
    have hbus : isBusTask t = true ∨ ∃ g, t = .emit g := by
      simp at hb; exact hb.imp_right (fun h => ⟨_, h⟩)
    rcases act_host_bus (ts := ts) ho hbus with h | ⟨s', h, k⟩
    · exact .inl h
    · refine .inr ⟨s', h, safe_hostStep hs hrts k ?_ (by simp [State.requestsOk, k.pendingCmd, k.contrastPending,
          hz])⟩
      obtain ⟨xs, hx, hxb, -⟩ := k.work
      rw [phaseOk_iff]
      right; left
      refine ⟨k.threadState.trans h1, .inl ⟨(enginePlace_congr k.fn k.stepCode k.engWork).1.trans hidle, ?_⟩⟩
      rw [hx]
      have : ∀ xs : List Task, xs.all isBusTask = true → launching (xs ++ ts) = launching ts := by
        intro xs
        induction xs with
        | nil => simp
        | cons x xs ih =>
          intro h
          simp at h
          simp [launching, List.dropWhile_cons, h.1]
          simpa [launching] using ih (by simpa using h.2)
      rw [this xs hxb]; exact hla'
  · have hla' : t = .launch ∧ ts = enableWait := by simpa [launching, List.dropWhile_cons, hb] using hla
    obtain ⟨rfl, rfl⟩ := hla'
    simp [State.engineIdle] at hidle
    refine .inr ⟨_, rfl, ⟨⟨?_, ?_, ?_⟩, ?_, ?_⟩, ?_⟩
    · simp [State.engineFits, State.setWork, hidle, workFits]
    · rw [phaseOk_iff]; right; left
      exact ⟨h1, .inr ⟨by simp [State.atStart], rfl⟩⟩
    · simp [State.requestsOk, hz]
    · exact hs.2.1
    · have := hs.2.2
      simp only [State.inRange, Bool.and_eq_true] at this ⊢
      exact ⟨⟨this.1.1, hrts⟩, this.2⟩
    · constructor <;> simp [State.setWork, hidle, h1, starting, stopped]

/-- An action of the HOST while the engine is Running. -/
theorem act_host_active {s : State} {t : Task} {ts : List Task} (hs : s.safe) (hw : s.hostWork = t :: ts)
    (h1 : s.threadState = running) (hloop : s.inLoop = true) (hact : activeWork (t :: ts) = true) :
    act .host t (s.setWork .host ts) = .wait ∨ ∃ s', act .host t (s.setWork .host ts) = .done s' ∧ s'.safe ∧
        HostKeeps s s' := by
  have hrq := hs.1.2.2
  obtain ⟨hrt, hrts⟩ := hostWork_inRange hs hw
  simp only [State.requestsOk, hw, Bool.and_eq_true, Bool.or_eq_true, beq_iff_eq] at hrq
  by_cases hf : (∃ v, t = .flagWrite .pendingCmd v) ∨ ∃ v, t = .flagWrite .contrastPending v
  · have hz : s.pendingCmd = 0#32 ∧ s.contrastPending = 0#32 := by
      rcases hf with ⟨v, rfl⟩ | ⟨v, rfl⟩ <;> simpa [requestWait] using hrq
    right
    rcases hf with ⟨v, rfl⟩ | ⟨v, rfl⟩
    all_goals
      simp [activeWork] at hact
      obtain ⟨rfl, rfl⟩ := hact
      refine ⟨_, rfl, safe_hostBase hs ?_ ?_ ?_ ?_ ?_ ?_ ?_, ?_⟩
      · constructor <;> simp [State.setWork, State.writeFlag, State.setFlag]
      · simp [State.setWork, State.writeFlag, State.setFlag]
      · rw [phaseOk_iff]; right; right; left
        exact ⟨h1, hloop, .inr (by simp [State.setWork, State.writeFlag, State.setFlag, requestWait, activeWork,
            activeTask])⟩
      · simp [State.requestsOk, State.setWork, State.writeFlag, State.setFlag, hz]
      · simp [State.setWork, State.writeFlag, State.setFlag]
      · simp [State.setWork, State.writeFlag, State.setFlag]
      · exact hrts
      · constructor <;> simp [State.setWork, State.writeFlag, State.setFlag]
  · have hact' : activeTask t = true ∧ activeWork ts = true := by
      cases t with
      | flagWrite f v => cases f <;> simp_all [activeWork]
      | _ => simpa [activeWork] using hact
    have hpl : plainTask t = true := by
      have := hact'.1
      cases t with
      | flagWrite f v => cases f <;> first | exact this | cases this
      | setBright b => exact this
      | ret | drawByte | derive | fillPcmd | spin => rfl
      | _ => cases this
    have hq : (∀ f v, t = .spin f v → s.flag f = v) → s.pendingCmd = 0#32 ∧ s.contrastPending = 0#32 := by
      intro hsp
      constructor
      · rcases hrq.1 with h | h
        · exact h
        · obtain ⟨rfl, -⟩ := List.cons.inj h; exact hsp _ _ rfl
      · rcases hrq.2 with h | h
        · exact h
        · obtain ⟨rfl, -⟩ := List.cons.inj h; exact hsp _ _ rfl
    rcases act_host_plain (ts := ts) (legalThreadState_of_safe hs) hpl hrt (fun ⟨k, hk⟩ => (hq (by simp [hk])).2)
        (fun ⟨k, b, hk⟩ => (hq (by simp [hk])).1) with h | ⟨s', h, k, hsp⟩
    · exact .inl h
    · refine .inr ⟨s', h, safe_hostStep hs hrts k ?_ ?_⟩
      · obtain ⟨xs, hx, hxb, -⟩ := k.work
        rw [phaseOk_iff]; right; right; left
        refine ⟨k.threadState.trans h1, (enginePlace_congr k.fn k.stepCode k.engWork).2.2.1.trans hloop, .inr ?_⟩
        rw [hx]
        have : ∀ xs : List Task, xs.all (fun u => isFill t && isFill u) = true → activeWork (xs ++ ts) = true := by
          intro xs
          induction xs with
          | nil => intro; exact hact'.2
          | cons x xs ih =>
            intro h; simp at h
            cases x <;> simp [isFill] at h
            simp only [List.cons_append, activeWork, activeTask, Bool.true_and]
            exact ih (by rw [List.all_eq_true]; intro x hx; have := h.2 x hx; simp [isFill]; exact this)
        exact this xs hxb
      · simp [State.requestsOk, k.pendingCmd, k.contrastPending, hq hsp]

/-- An action of the HOST in a safe state waits, or is done and leaves a safe state. -/
theorem act_host_safe {s : State} {t : Task} {ts : List Task} (hs : s.safe) (hw : s.hostWork = t :: ts) :
    act .host t (s.setWork .host ts) = .wait ∨ ∃ s', act .host t (s.setWork .host ts) = .done s' ∧ s'.safe ∧
        HostKeeps s s' := by
  have hph := hs.1.2.1
  rw [phaseOk_iff, hw] at hph
  rcases hph with ⟨h1, hidle, he | hdir⟩ | ⟨h1, ⟨hidle, hla⟩ | ⟨hst, hwt⟩⟩ | ⟨h1, hloop, hd | hact⟩ | ⟨h1, hloop,
      hd⟩
  · obtain ⟨rfl, rfl⟩ := List.cons.inj he
    refine .inr (act_host_threadState hs hw (by simp [legalEdge, h1]) (by decide) ?_)
    intro s' e1 e2 e3 e4 e5
    rw [phaseOk_iff, e5]
    exact .inr (.inl ⟨e1, .inl ⟨(enginePlace_congr e2 e3 e4).1.trans hidle, by decide⟩⟩)
  · exact act_host_direct hs hw h1 hidle hdir
  · exact act_host_launching hs hw h1 hidle hla
  · obtain ⟨rfl, rfl⟩ := List.cons.inj hwt
    left
    simp [act, spinAct, h1, legalThreadState, starting, running]
  · obtain ⟨rfl, rfl⟩ := List.cons.inj hd
    refine .inr (act_host_threadState hs hw (by simp [legalEdge, h1]) (by decide) ?_)
    intro s' e1 e2 e3 e4 e5
    rw [phaseOk_iff, e5]
    exact .inr (.inr (.inr ⟨e1, .inl ((enginePlace_congr e2 e3 e4).2.2.1.trans hloop), by decide⟩))
  · exact act_host_active hs hw h1 hloop hact
  · obtain ⟨rfl, rfl⟩ := List.cons.inj hd
    left
    simp [act, spinAct, h1, legalThreadState, stopping, stopped]

/-- What a turn of the HOST leaves alone in a safe state. -/
structure HostRan (s s' : State) : Prop where
  cfg : s'.cfg = s.cfg
  sf0 : s'.sf0 = s.sf0
  sf1 : s'.sf1 = s.sf1
  sf2 : s'.sf2 = s.sf2
  dl : s'.dl = s.dl
  wi : s'.wi = s.wi
  mask : s'.mask = s.mask
  v1 : s'.v1 = s.v1
  v2 : s'.v2 = s.v2
  engWork : s'.engWork = s.engWork
  copyPending : s'.copyPending = s.copyPending ∨ s'.copyPending = 1#32
  pendingCmd : s'.pendingCmd = s.pendingCmd ∨ s'.pendingCmd = 1#32
  contrastPending : s'.contrastPending = s.contrastPending ∨ s'.contrastPending = 1#32
  wcon : s'.wcon = s.wcon ∨ s.threadState = stopped
  pos : (s'.fn = s.fn ∧ s'.stepCode = s.stepCode) ∨ (s.stepCode = posCode .idle ∧ s'.fn = 0#2 ∧
      s'.stepCode = posCode .start)
  ts : s'.threadState = stopped → s.threadState = stopped

theorem HostRan.refl (s : State) : HostRan s s := by constructor <;> simp

theorem or_trans {x y z w : Word} (h1 : y = x ∨ y = w) (h2 : z = y ∨ z = w) : z = x ∨ z = w := by
  rcases h1 with rfl | rfl <;> rcases h2 with rfl | rfl <;> simp

theorem HostRan.trans {a b c : State} (k : HostRan a b) (r : HostRan b c) : HostRan a c := by
  constructor
  · rw [r.cfg, k.cfg]
  · rw [r.sf0, k.sf0]
  · rw [r.sf1, k.sf1]
  · rw [r.sf2, k.sf2]
  · rw [r.dl, k.dl]
  · rw [r.wi, k.wi]
  · rw [r.mask, k.mask]
  · rw [r.v1, k.v1]
  · rw [r.v2, k.v2]
  · rw [r.engWork, k.engWork]
  · exact or_trans k.copyPending r.copyPending
  · exact or_trans k.pendingCmd r.pendingCmd
  · exact or_trans k.contrastPending r.contrastPending
  · rcases k.wcon with h1 | h1
    · rcases r.wcon with h2 | h2
      · left; rw [h2, h1]
      · exact .inr (k.ts h2)
    · exact .inr h1
  · rcases k.pos with ⟨p1, p2⟩ | ⟨p1, p2, p3⟩
    · have := r.pos; rw [p1, p2] at this; exact this
    · right
      rcases r.pos with ⟨q1, q2⟩ | ⟨q1, q2, q3⟩
      · exact ⟨p1, q1.trans p2, q2.trans p3⟩
      · exact ⟨p1, q2, q3⟩
  · exact fun h => k.ts (r.ts h)

/-- A turn of the HOST from a safe state ends in a safe state. -/
theorem go_host_safe : ∀ (n : Nat) {s : State}, s.safe → ∃ t, go .host n s = .next t ∧ t.safe ∧ HostRan s t ∧
    t.hostProg = s.hostProg := by
  intro n
  induction n with
  | zero => intro s hs; exact ⟨s, rfl, hs, HostRan.refl s, rfl⟩
  | succ n ih =>
    intro s hs
    cases hw : s.hostWork with
    | nil => exact ⟨s, go_rest_host _ hw, hs, HostRan.refl s, rfl⟩
    | cons t ts =>
      rcases act_host_safe hs hw with h | ⟨s', h, hs', k⟩
      · exact ⟨s, by simp [go, State.work, hw, h], hs, HostRan.refl s, rfl⟩
      · obtain ⟨u, hu, hsu, r, hp⟩ := ih hs'
        refine ⟨u, by simpa [go, State.work, hw, h] using hu, hsu, HostRan.trans ⟨k.cfg, k.sf0, k.sf1, k.sf2,
            k.dl, k.wi, k.mask, k.v1, k.v2, k.engWork, k.copyPending, k.pendingCmd, k.contrastPending, k.wcon,
            k.pos, k.ts⟩ r, hp.trans k.hostProg⟩

/-- A call that begins keeps the state safe. -/
theorem safe_newCall {s : State} {prog : List Instr} {w : List Task} (hs : s.safe) (hw : s.hostWork = [])
    (hpr : prog.all (ordinaryCall s.cfg) = true) (hr : w.all (taskInRange s.cfg) = true)
   (h1 : s.threadState = stopped → w = enableTasks ∨ w.all directTask = true) (h2 : s.threadState = running →
       w = disableTasks ∨ activeWork w = true) :
   ({ s with hostProg := prog, hostWork := w } : State).safe := by
  obtain ⟨⟨hf, hph, hrq⟩, hrg, hir⟩ := hs
  rw [phaseOk_iff, hw] at hph
  refine ⟨⟨hf, ?_, ?_⟩, hrg, ?_⟩
  · rw [phaseOk_iff]
    rcases hph with ⟨g1, g2, -⟩ | ⟨g1, ⟨g2, g3⟩ | ⟨g2, g3⟩⟩ | ⟨g1, g2, -⟩ | ⟨g1, g2, g3⟩
    · exact .inl ⟨g1, g2, h1 g1⟩
    · cases g3
    · cases g3
    · exact .inr (.inr (.inl ⟨g1, g2, h2 g1⟩))
    · cases g3
  · simp only [State.requestsOk, hw] at hrq ⊢
    simp [requestWait] at hrq
    simp [hrq]
  · simp only [State.inRange, Bool.and_eq_true] at hir ⊢
    exact ⟨⟨hir.1.1, hr⟩, hpr⟩

theorem choosePath_of_safe {s : State} (hs : s.safe) (hw : s.hostWork = []) (x y : List Task) :
   (s.threadState = running ∧ choosePath s x y = .next x) ∨ (s.threadState = stopped ∧
       choosePath s x y = .next y) := by
  have hph := hs.1.2.1
  rw [phaseOk_iff, hw] at hph
  rcases hph with ⟨g1, g2, -⟩ | ⟨g1, ⟨g2, g3⟩ | ⟨g2, g3⟩⟩ | ⟨g1, g2, -⟩ | ⟨g1, g2, g3⟩
  · exact .inr ⟨g1, choosePath_stopped g1 _ _⟩
  · cases g3
  · cases g3
  · exact .inl ⟨g1, choosePath_running g1 _ _⟩
  · cases g3

theorem sendActiveTasks_ok (p : Config.Params)
    (c : List Byte) : (sendActiveTasks p c).all (taskInRange p) = true ∧
    activeWork (sendActiveTasks p c) = true := by
  unfold sendActiveTasks
  split
  · simp [raiseTasks, taskInRange, activeWork, activeTask]
  · simp [taskInRange, activeWork, activeTask, paddedCommand, requestWait]; omega

/-- In a safe state every ordinary call can begin. -/
theorem begin_host_safe {s : State} {i : Instr} {prog : List Instr} (hs : s.safe) (hw : s.hostWork = [])
    (hpr : s.hostProg = i :: prog) :
    ∃ w, hostTasks s i = .next w ∧ ({ s with hostProg := prog, hostWork := w } : State).safe := by
  have hc := hs.2.2
  simp only [State.inRange, hpr, List.all_cons, Bool.and_eq_true] at hc
  obtain ⟨-, hi, hp⟩ := hc
  have two : ∀ x y, hostTasks s i = choosePath s x y → (s.threadState = running →
      (x.all (taskInRange s.cfg) = true ∧ (x = disableTasks ∨ activeWork x = true))) →
      (s.threadState = stopped → (y.all (taskInRange s.cfg) = true ∧ (y = enableTasks ∨ y.all directTask = true))) →
      ∃ w, hostTasks s i = .next w ∧ ({ s with hostProg := prog, hostWork := w } : State).safe := by
    intro x y h hx hy
    rcases choosePath_of_safe hs hw x y with ⟨g, e⟩ | ⟨g, e⟩
    · exact ⟨x, h.trans e, safe_newCall hs hw hp (hx g).1 (by rw [g]; simp [running, stopped]) (fun _ => (hx g).2)⟩
    · exact ⟨y, h.trans e, safe_newCall hs hw hp (hy g).1 (fun _ => (hy g).2) (by rw [g]; simp [running, stopped])⟩
  have hl := legalThreadState_of_safe hs
  have hcl : ∀ v, clampBrightness v ≤ Config.brightMax := by
    intro v; unfold clampBrightness; split_ifs <;> simp [Config.brightMax] at * <;> omega
  cases i with
  | enable => exact two _ _ rfl (fun _ => ⟨rfl, .inr rfl⟩) (fun _ => ⟨rfl, .inl rfl⟩)
  | disable =>
    by_cases h : s.threadState = running
    · exact ⟨disableTasks, by simp [hostTasks, h], safe_newCall hs hw hp rfl (by rw [h]; simp [running, stopped])
          (fun _ => .inl rfl)⟩
    · exact ⟨[.ret .done], by simp [hostTasks, h, hl], safe_newCall hs hw hp rfl (fun _ => .inr rfl)
          (fun h' => absurd h' h)⟩
  | isActive =>
    exact ⟨_, by simp [hostTasks, hl]; rfl, safe_newCall hs hw hp rfl (fun _ => .inr rfl) (fun _ => .inr rfl)⟩
  | showSync => exact two _ _ rfl (fun _ => ⟨rfl, .inr rfl⟩) (fun _ => ⟨rfl, .inr rfl⟩)
  | showAsync => exact two _ _ rfl (fun _ => ⟨rfl, .inr rfl⟩) (fun _ => ⟨rfl, .inr rfl⟩)
  | sendCmd c =>
    exact two _ _ rfl (fun _ => ⟨(sendActiveTasks_ok _ _).1, .inr (sendActiveTasks_ok _ _).2⟩) (fun _ => ⟨rfl,
        .inr rfl⟩)
  | brightness v =>
    refine two _ _ rfl (fun _ => ⟨rfl, .inr ?_⟩) (fun _ => ⟨rfl, .inr ?_⟩)
    · simp [deriveTasks, activeWork, activeTask, requestWait, hcl]
    · simp [deriveTasks, directContrastTasks, directTask, hcl]
  | invert v =>
    exact ⟨_, rfl, safe_newCall hs hw hp rfl (fun _ => .inr (by cases v <;> rfl))
        (fun _ => .inr (by cases v <;> rfl))⟩
  | draw ws =>
    simp [ordinaryCall, isHostCall] at hi
    refine ⟨_, rfl, safe_newCall hs hw hp ?_ (fun _ => .inr ?_) (fun _ => .inr ?_)⟩
    · simp [taskInRange]; exact hi
    · simp [directTask]
    · have : ∀ ws : List PlaneWrite, activeWork (ws.map Task.drawByte ++ [Task.ret .done]) = true := by
        intro ws; induction ws with
        | nil => rfl
        | cons w ws ih => simpa [activeWork, activeTask] using ih
      exact this ws
  | _ => simp [ordinaryCall, isHostCall] at hi

end Sys2Proof.Machine
end

