-- ==== Sys2Proof/Laws/Frames.lean ====
section
/-! SUPPORT. Who appends to the bus trace, and how the data bytes sent and still to send add up over an action. -/

set_option linter.unusedSimpArgs false
set_option linter.unusedTactic false
set_option linter.unreachableTactic false

namespace Sys2Proof.Machine

theorem go_cfg {a : Agent} {n : Nat} {s t : State} (h : go a n s = .next t) : t.cfg = s.cfg := by
  refine go_keeps (P := fun u => u.cfg = s.cfg) ?_ n s t rfl h
  intro u u' t' ts _ hp ha
  have := act_cfg ha
  simpa [hp] using this

theorem go_trace {a : Agent} {n : Nat} {s t : State} (h : go a n s = .next t) : ∃ l, t.trace = s.trace ++ l := by
  refine go_keeps (P := fun u => ∃ l, u.trace = s.trace ++ l) ?_ n s t ⟨[], by simp⟩ h
  intro u u' x ts _ ⟨l, hp⟩ ha
  have := act_trace ha
  simp at this
  rcases this with h | ⟨-, h⟩
  · exact ⟨l, by rw [h, hp]⟩
  · rcases h with ⟨e, h⟩ | ⟨e, h⟩
    · exact ⟨l ++ [(false, e)], by rw [h, hp]; simp⟩
    · exact ⟨l ++ [(true, e)], by rw [h, hp]; simp⟩

/-- An action of the HOST never takes the bus port from the ENGINE. -/
theorem busOwner_of_host {s s' : State} {t : Task} {ts : List Task}
    (h : act .host t (s.setWork .host ts) = .done s') (k : HostKeeps s s') (ho : s'.busOwner = .host) :
    s.busOwner = .host := by
  have a2 := act_threadState h
  simp only [State.setWork_threadState] at a2
  unfold State.busOwner at ho ⊢
  rcases a2 with a2 | a2
  · rcases k.pos with ⟨-, p⟩ | ⟨p, -, q⟩
    · rwa [a2, p] at ho
    · rw [a2] at ho
      simp [p] at ho ⊢
      exact ⟨ho.1, ho.2.1⟩
  · simp only [legalEdge, Bool.or_eq_true, Bool.and_eq_true, beq_iff_eq] at a2
    rcases a2 with ⟨b1, -⟩ | ⟨-, b2⟩
    · simp [b1, stopped]
    · simp [b2, stopping] at ho

/-- A turn of the HOST appends to the trace only if it owns the bus port at its beginning. -/
theorem go_host_trace : ∀ (n : Nat) {s t : State}, s.safe → go .host n s = .next t →
    t.trace = s.trace ∨ s.busOwner = .host := by
  intro n
  induction n with
  | zero => intro s t _ h; cases h; exact .inl rfl
  | succ n ih =>
    intro s t hs h
    cases hw : s.hostWork with
    | nil => rw [go_rest_host _ hw] at h; cases h; exact .inl rfl
    | cons x xs =>
      rcases act_host_safe hs hw with he | ⟨s', he, hs', k⟩
      · simp [go, State.work, hw, he] at h; cases h; exact .inl rfl
      · simp [go, State.work, hw, he] at h
        rcases act_trace he with a1 | ⟨a1, -⟩
        · rcases ih hs' h with h2 | h2
          · exact .inl (h2.trans (by simpa using a1))
          · exact .inr (busOwner_of_host he k h2)
        · right
          rw [mayDriveBus_congr (s := s) (by simp) (by simp)] at a1
          simpa [State.mayDriveBus] using a1

/-- Only an ENGINE that owns the bus port appends to the trace. -/
theorem act_engine_trace {s s' : State} {t : Task} {ts : List Task} (hs : s.safe) (hw : s.engWork = t :: ts)
    (h : act .engine t (s.setWork .engine ts) = .done s') :
   s'.trace = s.trace ∨ s.busOwner = .engine := by
  by_cases hsend : ∃ b, t = .send b
  · obtain ⟨b, rfl⟩ := hsend
    right
    have hf := hs.1.1
    rw [State.engineFits, hw] at hf
    rcases workFits_cons hf with ⟨rfl, hl⟩ | ⟨hts, hb, hwf⟩
    · simp [lastTask] at hl
    · have hp : busPlace s.fn s.stepCode = true := by simpa [bodyTask, isBusTask, isPassTask,
          isServiceTask] using hb
      have hph := (phaseOk_iff s).1 hs.1.2.1
      rcases hph with ⟨h1, hidle, -⟩ | ⟨h1, ⟨hidle, hla⟩ | ⟨hst, hwt⟩⟩ | ⟨h1, hloop, hd⟩ | ⟨h1, hloop, hd⟩
      · simp [State.engineIdle, hw] at hidle
      · simp [State.engineIdle, hw] at hidle
      · simp [State.atStart] at hst; simp [busPlace, atBoundary, hst, posCode] at hp
      · simp [State.busOwner, h1, running]
      · simp [State.busOwner, h1, stopping]
  · left
    cases t with
    | send b => exact absurd ⟨b, rfl⟩ hsend
    | flagWrite f v => cases f <;> simp only [act, flagWriteAct] at h <;> (try split at h) <;> cases h <;> simp
    | _ =>
      simp only [act, emitAct, driveAct, bytesAct, drainAct, idleAct, awaitAct, setDeadlineAct, setFnAct, gotoAct,
        announceAct, testRunAct, nextSubframeAct, spinAct, passAct, wordsAct, loadV1Act, loadV2Act, storeSfAct,
        pollPublishAct, pollContrastAct, pollCommandAct, pollContrastElseCommandAct, adoptAct, deriveAct,
            setBrightAct,
        fillPcmdAct, launchAct, drawByteAct, retAct] at h
      repeat' split at h
      all_goals cases h
      all_goals simp

/-- The same for a turn. -/
theorem go_engine_trace : ∀ n s t, s.safe → go .engine n s = .next t → t.trace = s.trace ∨
    s.busOwner = .engine := by
  intro n
  induction n with
  | zero => intro s t _ h; cases h; exact .inl rfl
  | succ n ih =>
    intro s t hs h
    cases hw : s.engWork with
    | nil => rw [go_rest_engine _ hw] at h; cases h; exact .inl rfl
    | cons x xs =>
      rcases act_engine_safe hs hw with he | ⟨s', he, hs', k⟩
      · simp [go, State.work, hw, he] at h; cases h; exact .inl rfl
      · simp [go, State.work, hw, he] at h
        rcases act_engine_trace hs hw he with h1 | h1
        · by_cases hemp : s'.engWork = []
          · rw [go_rest_engine _ hemp] at h; cases h; exact .inl h1
          rcases ih s' t hs' h with h2 | h2
          · exact .inl (h2.trans h1)
          · right
            have a2 := act_threadState he
            simp at a2
            rcases a2 with a2 | a2
            · have hne : s.threadState = 1#32 → s.stepCode ≠ posCode .idle := by
                intro h1
                have q := (phaseOk_iff s).1 hs.1.2.1
                simp [h1, starting, stopped, running, stopping, State.engineIdle, hw, State.atStart] at q
                rw [q.1.2]; decide
              by_cases h1 : s.threadState = 1#32
              · simp [State.busOwner, h1, hne h1]
              · simpa [State.busOwner, a2, h1] using h2
            · simp [legalEdge] at a2
              rcases a2 with ⟨b1, b2⟩ | ⟨b1, b2⟩
              · -- Running announced: the work is done
                rcases k.pos with ⟨p1, p2⟩ | hemp'
                · exfalso
                  have q1 := (phaseOk_iff s).1 hs.1.2.1
                  have q2 := (phaseOk_iff s').1 hs'.1.2.1
                  simp [b1, starting, stopped, running, stopping, State.engineIdle, hw, State.atStart,
                      posCode] at q1
                  simp [b2, starting, stopped, running, stopping, State.inLoop, p1, p2, q1, posCode] at q2
                · exact absurd hemp' hemp
              · simp [State.busOwner, b2, stopped] at h2
        · exact .inr h1

theorem groupFirst_of_noBus {w : List Task} (h : w.all (fun t => !isBusTask t) = true) : groupFirst w = true := by
  unfold groupFirst
  rw [List.all_eq_true] at h ⊢
  intro t ht
  exact h t ((List.dropWhile_suffix _).subset ht)

theorem groupFirst_tail {t : Task} {ts : List Task} (h : groupFirst (t :: ts) = true) : groupFirst ts = true := by
  unfold groupFirst at h ⊢
  by_cases hb : isBusTask t = true
  · simpa [List.dropWhile_cons, hb] using h
  · simp only [List.dropWhile_cons, hb] at h
    simp at h
    exact groupFirst_of_noBus (by simpa [List.all_eq_true] using h.2)

theorem noBus_of_groupFirst {t : Task} {ts : List Task} (h : groupFirst (t :: ts) = true)
    (hb : isBusTask t = false) : ts.all (fun t => !isBusTask t) = true := by
  simp only [groupFirst, List.dropWhile_cons, hb] at h
  simp at h; simpa [List.all_eq_true] using h.2

theorem groupFirst_append {xs ts : List Task} (hx : xs.all isBusTask = true)
    (h : groupFirst ts = true) : groupFirst (xs ++ ts) = true := by
  induction xs with
  | nil => exact h
  | cons x xs ih =>
    simp at hx
    have := ih (by simpa using hx.2)
    simpa [groupFirst, List.dropWhile_cons, hx.1] using this

theorem pendingData_noBus {p : Config.Params} {ts : List Task} (h : ts.all (fun t => !isBusTask t) = true)
    (d e : Bool) : pendingData p d ts = pendingData p e ts := by
  induction ts with
  | nil => rfl
  | cons t ts ih =>
    simp only [List.all_cons, Bool.and_eq_true] at h
    have := ih h.2
    cases t <;> simp [isBusTask] at h <;> simp [pendingData, this]

/-- The data bytes on the trace. -/
def dataSent (s : State) : Nat := (s.trace.filter (fun e => e.1)).length

theorem length_groupBytes_data (s : State) (g : Group)
    (h : groupDc g = true) : (groupBytes s g).length = s.cfg.planeBytes := by
  cases g <;> simp [groupDc] at h <;> simp [groupBytes]

/-- An action turns data bytes still to send into data bytes sent, and keeps the group in progress first. -/
theorem act_frames {a : Agent} {t : Task} {ts : List Task} {s s' : State} (hg : groupFirst (t :: ts) = true)
    (h : act a t (s.setWork a ts) = .done s') :
    dataSent s' + pendingData s.cfg s'.dc (s'.work a) = dataSent s + pendingData s.cfg s.dc (t :: ts) ∧
        groupFirst (s'.work a) = true ∧
      ((∀ d, t ≠ .drive d) → s'.dc = s.dc) := by
  have hts := groupFirst_tail hg
  cases t with
  | flagWrite f v =>
    cases f <;> simp only [act, flagWriteAct] at h <;> (try split at h) <;> cases h <;>
      cases a <;> simp [dataSent, pendingData, State.setWork, State.work, State.writeFlag, State.setFlag, hts]
  | emit g =>
    cases h
    have hn := noBus_of_groupFirst hg rfl
    have hb : groupBytes (s.setWork a ts) g = groupBytes s g := by simp
    refine ⟨?_, ?_, ?_⟩
    · cases a <;> (cases hd : groupDc g with
        | false => simp [dataSent, State.push, State.setWork, State.work, busGroupTasks, pendingData, hd]
        | true =>
          simp [dataSent, State.push, State.setWork, State.work, busGroupTasks, pendingData,
              hd]; exact length_groupBytes_data _ g hd)
    · have : groupFirst (busGroupTasks (groupDc g) (groupBytes s g) ++ ts) = true := groupFirst_append (by rfl) hts
      cases a <;> exact this
    · cases a <;> simp [State.push, State.setWork]
  | drive d =>
    simp only [act, driveAct] at h
    split at h <;> cases h
    cases a <;> simp [dataSent, State.push, State.setWork, State.work, pendingData, hts]
  | bytes k bs =>
    cases bs with
    | nil => cases h; cases a <;> simp [dataSent, State.push, State.setWork, State.work, pendingData, hts]
    | cons b bs =>
      cases h
      have : groupFirst ([Task.send b, .drain, .bytes (k+1) bs] ++ ts) = true := groupFirst_append (by rfl) hts
      cases a <;> simp [dataSent, State.push, State.setWork, State.work, pendingData, busByteTasks] <;>
          refine ⟨?_, this⟩ <;> split <;> omega
  | send b =>
    simp only [act, sendAct] at h
    repeat' split at h
    all_goals cases h
    cases hd : s.dc <;> cases a <;> simp [dataSent, State.push, State.setWork, State.work, pendingData, hts, hd,
        List.filter_append] <;> omega
  | drain =>
    simp only [act, drainAct] at h
    split at h
    · cases h; cases a <;> simp [dataSent, State.push, State.setWork, State.work, pendingData, hts]
    · cases h
      have : groupFirst ([Task.drain] ++ ts) = true := groupFirst_append (by rfl) hts
      cases a <;> simp [dataSent, State.push, State.setWork, State.work, pendingData] <;> exact this
  | idle =>
    simp only [act, idleAct] at h
    split at h <;> cases h
    cases a <;> simp [dataSent, State.push, State.setWork, State.work, pendingData, hts]
  | drawByte w =>
    simp only [act, drawByteAct] at h
    split at h <;> cases h
    obtain ⟨p, o, v⟩ := w
    cases p <;> cases a <;> simp [dataSent, State.push, State.setWork, State.work, pendingData, hts, planeRegion,
        State.setRegion]
  | _ =>
    have hn := noBus_of_groupFirst hg rfl
    have hn1 : ∀ xs : List Task, xs.all (fun t => !isBusTask t) = true → groupFirst (xs ++ ts) = true := by
      intro xs hx; apply groupFirst_of_noBus; rw [List.all_append, hx, hn]; rfl
    simp only [act, awaitAct, setDeadlineAct, setFnAct, gotoAct,
      announceAct, testRunAct, nextSubframeAct, spinAct, passAct, wordsAct, loadV1Act, loadV2Act, storeSfAct,
      pollPublishAct, pollContrastAct, pollCommandAct, pollContrastElseCommandAct, adoptAct, deriveAct,
          setBrightAct,
      fillPcmdAct, launchAct, drawByteAct, retAct] at h
    repeat' split at h
    all_goals cases h
    all_goals cases a <;> simp [dataSent, State.push, State.setWork, State.work, pendingData, hts, sfgWordTasks,
        svcPublishTasks, svcContrastTasks, svcCommandTasks, groupDc, State.writeFlag, State.setFlag]
    all_goals first
      | exact hn1 [_] rfl
      | exact hn1 [_, _] rfl
      | exact hn1 [_, _, _] rfl
      | exact hn1 [_, _, _, _] rfl
      | exact ⟨pendingData_noBus hn _ _, hn1 [_, _] rfl⟩
      | skip

theorem all_imp {p q : Task → Bool} {w : List Task} (h : ∀ t, p t = true → q t = true)
    (hw : w.all p = true) : w.all q = true := by
  rw [List.all_eq_true] at hw ⊢; exact fun t ht => h t (hw t ht)

theorem noBus_of_activeWork {w : List Task} (h : activeWork w = true) : w.all (fun t => !isBusTask t) = true := by
  induction w with
  | nil => rfl
  | cons t ts ih =>
    by_cases hf : (∃ v, t = .flagWrite .pendingCmd v) ∨ ∃ v, t = .flagWrite .contrastPending v
    · rcases hf with ⟨v, rfl⟩ | ⟨v, rfl⟩ <;> simp [activeWork] at h <;> obtain ⟨-, rfl⟩ := h <;> rfl
    · have hact' : activeTask t = true ∧ activeWork ts = true := by
        cases t with
        | flagWrite f v => cases f <;> simp_all [activeWork]
        | _ => simpa [activeWork] using h
      rw [List.all_cons, ih hact'.2, Bool.and_true]
      have := hact'.1
      cases t <;> first | rfl | cases this

/-- Where an agent drives DC, the other has no group in progress. -/
theorem noBus_of_other_drives {s : State} (hs : s.safe) {a : Agent} {d : Bool} {ts : List Task}
    (hw : s.work a = .drive d :: ts) {b : Agent} (hab : b ≠ a) :
    (s.work b).all (fun t => !isBusTask t) = true := by
  have hph := (phaseOk_iff s).1 hs.1.2.1
  cases a with
  | host =>
    cases b with
    | host => exact absurd rfl hab
    | engine =>
      simp only [State.work] at hw ⊢
      rw [hw] at hph
      rcases hph with ⟨h1, hidle, -⟩ | ⟨h1, ⟨hidle, hla⟩ | ⟨hst, hwt⟩⟩ | ⟨h1, hloop, hd | hact⟩ | ⟨h1, hloop, hd⟩
      · simp [State.engineIdle] at hidle; simp [hidle]
      · simp [State.engineIdle] at hidle; simp [hidle]
      · cases hwt
      · cases hd
      · simp [activeWork, activeTask] at hact
      · cases hd
  | engine =>
    cases b with
    | engine => exact absurd rfl hab
    | host =>
      simp only [State.work] at hw ⊢
      rcases hph with ⟨h1, hidle, -⟩ | ⟨h1, ⟨hidle, hla⟩ | ⟨hst, hwt⟩⟩ | ⟨h1, hloop, hd | hact⟩ | ⟨h1, hloop, hd⟩
      · simp [State.engineIdle, hw] at hidle
      · simp [State.engineIdle, hw] at hidle
      · rw [hwt]; rfl
      · rw [hd]; rfl
      · exact noBus_of_activeWork hact
      · rw [hd]; rfl

/-- `framesWhole` is kept by an action in a safe state. -/
theorem act_framesWhole {s s' : State} (hs : s.safe) (hf : s.framesWhole) {a : Agent} {t : Task} {ts : List Task}
    (hw : s.work a = t :: ts)
    (h : act a t (s.setWork a ts) = .done s') (hc : s'.cfg = s.cfg) (ho : ∀ b, b ≠ a →
        s'.work b = s.work b) : s'.framesWhole := by
  obtain ⟨f1, f2, f3⟩ := hf
  cases a with
  | host =>
    simp only [State.work] at hw
    rw [hw] at f1 f3
    obtain ⟨e, g, hd⟩ := act_frames f1 h
    simp only [State.work] at e g
    have ho' : s'.engWork = s.engWork := ho .engine (by simp)
    have : pendingData s.cfg s'.dc s.engWork = pendingData s.cfg s.dc s.engWork := by
      by_cases hdr : ∃ d, t = .drive d
      · obtain ⟨d, rfl⟩ := hdr
        exact pendingData_noBus (noBus_of_other_drives hs (a := .host) hw (b := .engine) (by simp)) _ _
      · rw [hd (fun d hd' => hdr ⟨d, hd'⟩)]
    refine ⟨g, by rw [ho']; exact f2, ?_⟩
    rw [hc, ho', this]
    unfold dataSent at e
    rw [e]; exact f3
  | engine =>
    simp only [State.work] at hw
    rw [hw] at f2 f3
    obtain ⟨e, g, hd⟩ := act_frames f2 h
    simp only [State.work] at e g
    have ho' : s'.hostWork = s.hostWork := ho .host (by simp)
    have : pendingData s.cfg s'.dc s.hostWork = pendingData s.cfg s.dc s.hostWork := by
      by_cases hdr : ∃ d, t = .drive d
      · obtain ⟨d, rfl⟩ := hdr
        exact pendingData_noBus (noBus_of_other_drives hs (a := .engine) hw (b := .host) (by simp)) _ _
      · rw [hd (fun d hd' => hdr ⟨d, hd'⟩)]
    refine ⟨by rw [ho']; exact f1, g, ?_⟩
    rw [hc, ho', this]
    unfold dataSent at e
    have e1 := f3
    rw [show (s'.trace.filter (fun e => e.1)).length + pendingData s.cfg s.dc s.hostWork + pendingData s.cfg s'.dc s'.engWork
      = (s'.trace.filter (fun e => e.1)).length + pendingData s.cfg s'.dc s'.engWork + pendingData s.cfg s.dc s.hostWork by omega, e]
    rw [show (s.trace.filter (fun e => e.1)).length + pendingData s.cfg s.dc (t :: ts) + pendingData s.cfg s.dc s.hostWork = (s.trace.filter (fun e => e.1)).length + pendingData s.cfg s.dc s.hostWork + pendingData s.cfg s.dc (t :: ts) by omega]
    exact e1

theorem go_engine_framesWhole : ∀ n s t, s.safe → s.framesWhole → go .engine n s = .next t → t.framesWhole := by
  intro n
  induction n with
  | zero => intro s t _ hf h; cases h; exact hf
  | succ n ih =>
    intro s t hs hf h
    cases hw : s.engWork with
    | nil => rw [go_rest_engine _ hw] at h; cases h; exact hf
    | cons x xs =>
      rcases act_engine_safe hs hw with he | ⟨s', he, hs', k⟩
      · simp [go, State.work, hw, he] at h; cases h; exact hf
      · simp [go, State.work, hw, he] at h
        have ho : ∀ b, b ≠ .engine → s'.work b = s.work b := by
          intro b hb
          cases b with
          | host => exact k.hostWork
          | engine => exact absurd rfl hb
        exact ih s' t hs' (act_framesWhole hs hf (a := .engine) hw he k.cfg ho) h

theorem go_host_framesWhole : ∀ n s t, s.safe → s.framesWhole → go .host n s = .next t → t.framesWhole := by
  intro n
  induction n with
  | zero => intro s t _ hf h; cases h; exact hf
  | succ n ih =>
    intro s t hs hf h
    cases hw : s.hostWork with
    | nil => rw [go_rest_host _ hw] at h; cases h; exact hf
    | cons x xs =>
      rcases act_host_safe hs hw with he | ⟨s', he, hs', k⟩
      · simp [go, State.work, hw, he] at h; cases h; exact hf
      · simp [go, State.work, hw, he] at h
        have ho : ∀ b, b ≠ .host → s'.work b = s.work b := by
          intro b hb
          cases b with
          | engine => exact k.engWork
          | host => exact absurd rfl hb
        exact ih s' t hs' (act_framesWhole hs hf (a := .host) hw he k.cfg ho) h

/-- The operation at a position sends whole frames. -/
theorem engineTasks_wholeFrames (s : State) {fn st} {i : Instr} (h : decodeSeq fn st = .ok i)
    (d : Bool) : groupFirst (engineTasks s i) = true ∧
    (pendingData s.cfg d (engineTasks s i)) % s.cfg.planeBytes = 0 := by
  unfold decodeSeq withFnZero withSubframe at h
  split at h <;> (try split at h) <;> cases h
  all_goals (try (simp [engineTasks, groupFirst, pendingData, isBusTask, groupDc, List.dropWhile_cons]; done))
  next k hk =>
    simp only [engineTasks]
    split
    · cases hp : s.cfg.policy <;> simp [serviceTasks, groupFirst, pendingData, isBusTask, groupDc,
          List.dropWhile_cons]
    · simp [groupFirst, pendingData, isBusTask, groupDc, List.dropWhile_cons]

/-- An ordinary call sends whole frames. -/
theorem hostTasks_wholeFrames {s : State} {i : Instr} {w : List Task} (hi : ordinaryCall s.cfg i = true)
    (h : hostTasks s i = .next w) (d : Bool) :
    groupFirst w = true ∧ (pendingData s.cfg d w) % s.cfg.planeBytes = 0 := by
  have cp : ∀ x y, choosePath s x y = .next w → w = x ∨ w = y := by
    intro x y hc; unfold choosePath at hc; repeat' split at hc
    all_goals cases hc
    · exact .inl rfl
    · exact .inr rfl
  cases i with
  | enable =>
    rcases cp _ _ h with rfl | rfl <;> simp [enableTasks, groupFirst, pendingData, isBusTask, groupDc,
        List.dropWhile_cons]
  | disable =>
    simp only [hostTasks] at h
    repeat' split at h
    all_goals cases h
    all_goals simp [disableTasks, deriveTasks, directContrastTasks, groupFirst, pendingData, isBusTask, groupDc,
        List.dropWhile_cons]
  | isActive =>
    simp only [hostTasks] at h
    repeat' split at h
    all_goals cases h
    all_goals simp [groupFirst, pendingData, isBusTask, groupDc, List.dropWhile_cons]
  | showSync =>
    rcases cp _ _ h with rfl | rfl <;> simp [enableTasks, groupFirst, pendingData, isBusTask, groupDc,
        List.dropWhile_cons]
  | showAsync =>
    rcases cp _ _ h with rfl | rfl <;> simp [enableTasks, groupFirst, pendingData, isBusTask, groupDc,
        List.dropWhile_cons]
  | sendCmd c =>
    rcases cp _ _ h with rfl | rfl
    · unfold sendActiveTasks raiseTasks; split <;> simp [groupFirst, pendingData, isBusTask, groupDc,
          List.dropWhile_cons]
    · simp [groupFirst, pendingData, isBusTask, groupDc, List.dropWhile_cons]
  | brightness v =>
    rcases cp _ _ h with rfl | rfl <;> simp [deriveTasks, directContrastTasks, groupFirst, pendingData,
        isBusTask, groupDc, List.dropWhile_cons]
  | invert v => cases h; simp [groupFirst, pendingData, isBusTask, groupDc, List.dropWhile_cons]
  | draw ws =>
    cases h
    refine ⟨groupFirst_of_noBus (by simp [isBusTask]), ?_⟩
    clear cp
    induction ws with
    | nil => simp [pendingData]
    | cons w ws ih => simpa [pendingData] using ih (by simp [ordinaryCall, isHostCall] at hi ⊢; exact hi.2)
  | _ => simp [ordinaryCall, isHostCall] at hi

end Sys2Proof.Machine
end

