-- ==== Sys2Proof/Laws/Pass.lean ====
section
/-! SUPPORT. What SFG.WORD and SFG.PASS come to: the state after a whole pass, what it leaves alone, and every byte of
the subframe buffers (R85, R86, R88). -/

namespace Sys2Proof.Machine

/-! ### Bytes of words -/

@[simp] theorem wordByte_xor (x y : Word) (k : Nat) : wordByte (x ^^^ y) k = wordByte x k ^^^ wordByte y k := by
  simp [wordByte, BitVec.extractLsb'_xor]
@[simp] theorem wordByte_or (x y : Word) (k : Nat) : wordByte (x ||| y) k = wordByte x k ||| wordByte y k := by
  simp [wordByte, BitVec.extractLsb'_or]
@[simp] theorem wordByte_and (x y : Word) (k : Nat) : wordByte (x &&& y) k = wordByte x k &&& wordByte y k := by
  simp [wordByte, BitVec.extractLsb'_and]

theorem wordByte_maskOf (inv : Word) (k : Nat) (hk : k < 4) : wordByte (maskOf inv) k = maskByte inv := by
  unfold maskOf maskByte
  split <;> interval_cases k <;> decide

/-! ### One word -/

/-- The state after SFG.WORD. -/
def State.wordDone (s : State) (wi : Nat) (mask : Word) : State :=
  { s with
    v1 := Memory.readWord (s.planeView .a) (4 * wi) ^^^ mask
    v2 := Memory.readWord (s.planeView .b) (4 * wi)
    sf0 := Memory.writeWord s.sf0 (4 * wi)
      (sfWord0 (Memory.readWord (s.planeView .a) (4 * wi) ^^^ mask) (Memory.readWord (s.planeView .b) (4 * wi)))
    sf1 := Memory.writeWord s.sf1 (4 * wi)
      (sfWord1 (Memory.readWord (s.planeView .a) (4 * wi) ^^^ mask) (Memory.readWord (s.planeView .b) (4 * wi)))
    sf2 := Memory.writeWord s.sf2 (4 * wi)
      (sfWord2 (Memory.readWord (s.planeView .a) (4 * wi) ^^^ mask) (Memory.readWord (s.planeView .b) (4 * wi))) }

@[simp] theorem planeView_setWork (s : State) (a : Agent) (ts : List Task) (p : Plane) :
    (s.setWork a ts).planeView p = s.planeView p := by
  cases a <;> cases p <;> rfl

theorem go_word {a : Agent} {s : State} {wi : Nat} (h : 4 * wi + 4 ≤ s.cfg.planeBytes) (mask : Word) (ts : List Task)
    (n : Nat) :
    go a (n + 3) (s.setWork a (sfgWordTasks wi mask ++ ts)) = go a n ((s.wordDone wi mask).setWork a ts) := by
  have h1 : act a (.loadV1 wi mask) (s.setWork a (.loadV2 wi :: .storeSf wi :: ts)) =
      .done ({ s with v1 := Memory.readWord (s.planeView .a) (4 * wi) ^^^ mask }.setWork a
        (.loadV2 wi :: .storeSf wi :: ts)) := by
    cases a <;> simp [act, loadV1Act, inRegion, regionSize, h] <;> rfl
  have h2 : ∀ x, act a (.loadV2 wi) (({ s with v1 := x } : State).setWork a (.storeSf wi :: ts)) =
      .done (({ s with v1 := x, v2 := Memory.readWord (s.planeView .b) (4 * wi) } : State).setWork a (.storeSf wi :: ts)) := by
    intro x
    cases a <;> simp [act, loadV2Act, inRegion, regionSize, h] <;> rfl
  have h3 : ∀ x y, act a (.storeSf wi) (({ s with v1 := x, v2 := y } : State).setWork a ts) =
      .done (({ s with
        v1 := x
        v2 := y
        sf0 := Memory.writeWord s.sf0 (4 * wi) (sfWord0 x y)
        sf1 := Memory.writeWord s.sf1 (4 * wi) (sfWord1 x y)
        sf2 := Memory.writeWord s.sf2 (4 * wi) (sfWord2 x y) } : State).setWork a ts) := by
    intro x y
    cases a <;> simp [act, storeSfAct, inRegion, regionSize, h] <;> rfl
  show go a (n + 1 + 1 + 1) (s.setWork a (.loadV1 wi mask :: .loadV2 wi :: .storeSf wi :: ts)) = _
  rw [go_done h1, go_done (h2 _), go_done (h3 _ _)]
  rfl

/-! ### The loop and the pass -/

/-- The state after c words from word index k on. -/
def State.wordsDone : Nat → Nat → State → State
  | 0, _, s => s
  | c + 1, k, s => State.wordsDone c (k + 1) ({ s with wi := BitVec.ofNat 32 k }.wordDone k s.mask)

/-- The state after SFG.PASS. -/
def State.passDone (s : State) : State :=
  State.wordsDone s.cfg.planeWords 0 { s.acquire .invert with mask := maskOf s.invert }

/-- The loop leaves everything alone but WI, V1, V2 and the subframe buffers. -/
theorem wordsDone_frame (c k : Nat) (s : State) : ∃ w x y m0 m1 m2,
    State.wordsDone c k s = { s with wi := w, v1 := x, v2 := y, sf0 := m0, sf1 := m1, sf2 := m2 } := by
  induction c generalizing k s with
  | zero => exact ⟨_, _, _, _, _, _, rfl⟩
  | succ c ih =>
    obtain ⟨w, x, y, m0, m1, m2, h⟩ := ih (k + 1) ({ s with wi := BitVec.ofNat 32 k }.wordDone k s.mask)
    exact ⟨w, x, y, m0, m1, m2, h⟩

/-- A pass leaves everything alone but WI, MASK, V1, V2, the subframe buffers, and the ordering that its read of
INVERT brings. -/
theorem passDone_frame (s : State) : ∃ w x y m0 m1 m2,
    s.passDone = { s with
      wi := w, mask := maskOf s.invert, v1 := x, v2 := y, sf0 := m0, sf1 := m1, sf2 := m2
      races := acquireRaces .invert s.races } := by
  obtain ⟨w, x, y, m0, m1, m2, h⟩ :=
    wordsDone_frame s.cfg.planeWords 0 { s.acquire .invert with mask := maskOf s.invert }
  exact ⟨w, x, y, m0, m1, m2, h⟩

theorem go_words {a : Agent} {s : State} (c k : Nat) (hk : k + c = s.cfg.planeWords) (ts : List Task) (n : Nat) :
    go a (n + (4 * c + 1)) (s.setWork a (.words k :: ts)) = go a n ((State.wordsDone c k s).setWork a ts) := by
  induction c generalizing k s with
  | zero =>
    have h : act a (.words k) (s.setWork a ts) = .done (s.setWork a ts) := by
      simp [act, wordsAct, show ¬ k < s.cfg.planeWords by omega]
    rw [show n + (4 * 0 + 1) = n + 1 from rfl, go_done h]
    rfl
  | succ c ih =>
    have hlt : k < s.cfg.planeWords := by omega
    have hin : 4 * k + 4 ≤ s.cfg.planeBytes := by
      have : s.cfg.planeWords = s.cfg.planeBytes / 4 := rfl
      omega
    have h : act a (.words k) (s.setWork a ts) =
        .done (({ s with wi := BitVec.ofNat 32 k } : State).setWork a (sfgWordTasks k s.mask ++ (Task.words (k + 1) :: ts))) := by
      cases a <;> simp [act, wordsAct, hlt, State.push, State.setWork, State.work]
    rw [show n + (4 * (c + 1) + 1) = (n + (4 * c + 1) + 3) + 1 by omega, go_done h,
      go_word (s := { s with wi := BitVec.ofNat 32 k }) hin,
      ih (s := ({ s with wi := BitVec.ofNat 32 k } : State).wordDone k s.mask) (k + 1)
        (show k + 1 + c = s.cfg.planeWords by omega)]
    rfl

/-- SFG.PASS as a whole (R88). -/
theorem go_pass (a : Agent) (s : State) (ts : List Task) (n : Nat) :
    go a (n + (4 * s.cfg.planeWords + 2)) (s.setWork a (.pass :: ts)) = go a n (s.passDone.setWork a ts) := by
  have h : act a .pass (s.setWork a ts) =
      .done (({ s.acquire .invert with mask := maskOf s.invert } : State).setWork a (.words 0 :: ts)) := by
    cases a <;> simp [act, passAct, State.push, State.setWork, State.work, State.acquire]
  rw [show n + (4 * s.cfg.planeWords + 2) = (n + (4 * s.cfg.planeWords + 1)) + 1 by omega, go_done h,
    go_words (s := { s.acquire .invert with mask := maskOf s.invert }) s.cfg.planeWords 0 (Nat.zero_add _)]
  rfl

/-! ### The bytes of the subframe buffers -/

/-- The three bytes of R86. -/
def sfByte (k : Fin 3) (a b : Byte) : Byte :=
  match k with
  | 0 => a ||| b
  | 1 => a
  | 2 => a &&& (a ^^^ b)

/-- Word k of a subframe buffer, byte by byte. -/
theorem wordDone_byteAt {s : State} (hwf : ∀ j, Memory.wf (s.region (.sf j)) = true) (wi : Nat) (mask : Word)
    (j : Fin 3) (i : Nat) :
    (s.wordDone wi mask).byteAt (.sf j) i =
      if 4 * wi ≤ i ∧ i < 4 * wi + 4 then
        sfByte j (Memory.read (s.planeView .a) i ^^^ wordByte mask (i - 4 * wi)) (Memory.read (s.planeView .b) i)
      else s.byteAt (.sf j) i := by
  have key : ∀ (m : Memory), Memory.wf m = true → ∀ w : Word,
      Memory.read (Memory.writeWord m (4 * wi) w) i =
        if 4 * wi ≤ i ∧ i < 4 * wi + 4 then wordByte w (i - 4 * wi) else Memory.read m i := by
    intro m hm w
    rw [Memory.read_writeWord hm]
    by_cases h : 4 * wi ≤ i ∧ i < 4 * wi + 4
    · obtain ⟨d, rfl⟩ := Nat.exists_eq_add_of_le h.1
      have hd : d < 4 := by omega
      interval_cases d <;> simp
    · simp only [h, if_false]
      rw [if_neg (by omega), if_neg (by omega), if_neg (by omega), if_neg (by omega)]
  have hrd : ∀ m : Memory, 4 * wi ≤ i ∧ i < 4 * wi + 4 →
      wordByte (Memory.readWord m (4 * wi)) (i - 4 * wi) = Memory.read m i := by
    intro m h
    rw [Memory.wordByte_readWord _ _ _ (by omega)]
    congr 1
    omega
  have h0 : Memory.wf s.sf0 = true := hwf 0
  have h1 : Memory.wf s.sf1 = true := hwf 1
  have h2 : Memory.wf s.sf2 = true := hwf 2
  fin_cases j
  · show Memory.read (Memory.writeWord s.sf0 _ _) i = _
    rw [key _ h0]
    split
    · next h => simp [sfWord0, sfByte, hrd _ h]
    · rfl
  · show Memory.read (Memory.writeWord s.sf1 _ _) i = _
    rw [key _ h1]
    split
    · next h => simp [sfWord1, sfByte, hrd _ h]
    · rfl
  · show Memory.read (Memory.writeWord s.sf2 _ _) i = _
    rw [key _ h2]
    split
    · next h => simp [sfWord2, sfByte, hrd _ h]
    · rfl

theorem wordDone_wf {s : State} (hwf : ∀ j, Memory.wf (s.region (.sf j)) = true) (wi : Nat) (mask : Word) (j : Fin 3) :
    Memory.wf ((s.wordDone wi mask).region (.sf j)) = true := by
  have h0 : Memory.wf s.sf0 = true := hwf 0
  have h1 : Memory.wf s.sf1 = true := hwf 1
  have h2 : Memory.wf s.sf2 = true := hwf 2
  fin_cases j <;> exact Memory.wf_writeWord (by assumption) _ _

theorem wordsDone_byteAt (c : Nat) {s : State} (hwf : ∀ j, Memory.wf (s.region (.sf j)) = true) {inv : Word}
    (hm : s.mask = maskOf inv) (k : Nat) (j : Fin 3) (i : Nat) :
    (State.wordsDone c k s).byteAt (.sf j) i =
      if 4 * k ≤ i ∧ i < 4 * (k + c) then
        sfByte j (Memory.read (s.planeView .a) i ^^^ maskByte inv) (Memory.read (s.planeView .b) i)
      else s.byteAt (.sf j) i := by
  induction c generalizing k s with
  | zero =>
    rw [if_neg (by omega)]
    rfl
  | succ c ih =>
    have hwf' : ∀ j, Memory.wf ((({ s with wi := BitVec.ofNat 32 k } : State).wordDone k s.mask).region (.sf j)) = true :=
      fun j => wordDone_wf (s := { s with wi := BitVec.ofNat 32 k }) hwf k s.mask j
    rw [State.wordsDone, ih hwf' (s := ({ s with wi := BitVec.ofNat 32 k } : State).wordDone k s.mask) hm (k + 1),
      wordDone_byteAt (s := { s with wi := BitVec.ofNat 32 k }) hwf]
    by_cases h1 : 4 * (k + 1) ≤ i ∧ i < 4 * (k + 1 + c)
    · rw [if_pos h1, if_pos (by omega)]
      rfl
    · rw [if_neg h1]
      by_cases h2 : 4 * k ≤ i ∧ i < 4 * k + 4
      · rw [if_pos h2, if_pos (by omega), hm, wordByte_maskOf _ _ (by omega)]
        rfl
      · rw [if_neg h2, if_neg (by omega)]
        rfl

/-- R23, R86: after a pass every byte of the buffers is the transform of the planes as the pass saw them. -/
theorem passDone_consistent {s : State} (hwf : ∀ j, Memory.wf (s.region (.sf j)) = true)
    (hp : s.cfg.planeBytes % 4 = 0) :
    consistentWith s.passDone ((s.acquire .invert).planeView .a) ((s.acquire .invert).planeView .b) s.invert := by
  intro i hi
  have hcfg : s.passDone.cfg = s.cfg := by
    obtain ⟨w, x, y, m0, m1, m2, h⟩ := passDone_frame s
    rw [h]
  rw [hcfg] at hi
  have hlt : 4 * 0 ≤ i ∧ i < 4 * (0 + s.cfg.planeWords) := by
    have : s.cfg.planeWords = s.cfg.planeBytes / 4 := rfl
    omega
  have key := fun j => wordsDone_byteAt s.cfg.planeWords
    (s := { s.acquire .invert with mask := maskOf s.invert }) hwf (inv := s.invert) rfl 0 j i
  simp only [hlt, and_self, if_true] at key
  exact ⟨key 0, key 1, key 2⟩

end Sys2Proof.Machine
end

