-- ==== Sys2Proof/Laws/PerInstr.lean ====
section
/-! SUPPORT. The family FirstByte: what the first byte of each operation's encoding says about it. -/

namespace Sys2Proof.Laws.FirstByte

open Sys2Proof.Machine

/-- The first byte is below 0x6B; below 64, where it is SEQ (R62), the operation has no operand bytes and is no call
of the HOST; from 64 on it is the byte itself that the model's code gives the operation (log 6). -/
def Statement (i : Instr) : Prop :=
  opcode i < 0x6B ∧ (opcode i < 64 → operandBytes i = [] ∧ isHostCall i = false) ∧
    (encode i).head? = some (BitVec.ofNat 8 (opcode i))

theorem enable : Statement .enable := by unfold Statement; decide
theorem disable : Statement .disable := by unfold Statement; decide
theorem isActive : Statement .isActive := by unfold Statement; decide
theorem showSync : Statement .showSync := by unfold Statement; decide
theorem showAsync : Statement .showAsync := by unfold Statement; decide
theorem sendCmd (c : List Byte) : Statement (.sendCmd c) := ⟨by simp [opcode], by simp [opcode], rfl⟩
theorem brightness (v : Int) : Statement (.brightness v) := ⟨by simp [opcode], by simp [opcode], rfl⟩
theorem invert (v : Bool) : Statement (.invert v) := ⟨by simp [opcode], by simp [opcode], rfl⟩
theorem draw (ws : List PlaneWrite) : Statement (.draw ws) := ⟨by simp [opcode], by simp [opcode], rfl⟩
theorem engIdle : Statement .engIdle := by unfold Statement; decide
theorem engStart : Statement .engStart := by unfold Statement; decide
theorem engCheck : Statement .engCheck := by unfold Statement; decide
theorem s1 (fn : Fin 3) : Statement (.s1 fn) := by
  refine ⟨?_, fun _ => ⟨rfl, rfl⟩, rfl⟩
  simp only [opcode, seqCode]
  omega
theorem s2 (fn : Fin 3) : Statement (.s2 fn) := by
  refine ⟨?_, fun _ => ⟨rfl, rfl⟩, rfl⟩
  simp only [opcode, seqCode]
  omega
theorem s3 (fn : Fin 3) : Statement (.s3 fn) := by
  refine ⟨?_, fun _ => ⟨rfl, rfl⟩, rfl⟩
  simp only [opcode, seqCode]
  omega
theorem s4 (fn : Fin 3) : Statement (.s4 fn) := by
  refine ⟨?_, fun _ => ⟨rfl, rfl⟩, rfl⟩
  simp only [opcode, seqCode]
  omega
theorem s5 (fn : Fin 3) : Statement (.s5 fn) := by
  refine ⟨?_, fun _ => ⟨rfl, rfl⟩, rfl⟩
  simp only [opcode, seqCode]
  omega
theorem s6 (fn : Fin 3) : Statement (.s6 fn) := by
  refine ⟨?_, fun _ => ⟨rfl, rfl⟩, rfl⟩
  simp only [opcode, seqCode]
  omega
theorem s7 (fn : Fin 3) : Statement (.s7 fn) := by
  refine ⟨?_, fun _ => ⟨rfl, rfl⟩, rfl⟩
  simp only [opcode, seqCode]
  omega
theorem s8 (fn : Fin 3) : Statement (.s8 fn) := by
  refine ⟨?_, fun _ => ⟨rfl, rfl⟩, rfl⟩
  simp only [opcode, seqCode]
  omega
theorem s9 (fn : Fin 3) : Statement (.s9 fn) := by
  refine ⟨?_, fun _ => ⟨rfl, rfl⟩, rfl⟩
  simp only [opcode, seqCode]
  omega
theorem s10 (fn : Fin 3) : Statement (.s10 fn) := by
  refine ⟨?_, fun _ => ⟨rfl, rfl⟩, rfl⟩
  simp only [opcode, seqCode]
  omega
theorem engExit : Statement .engExit := by unfold Statement; decide
theorem svcPublish : Statement .svcPublish := by unfold Statement; decide
theorem svcContrast : Statement .svcContrast := by unfold Statement; decide
theorem svcCommand : Statement .svcCommand := by unfold Statement; decide
theorem sfgPass : Statement .sfgPass := by unfold Statement; decide
theorem sfgWord (wi : Nat) (mask : Word) : Statement (.sfgWord wi mask) := ⟨by simp [opcode], by simp [opcode], rfl⟩
theorem busGroup (dc : Bool) (s : List Byte) : Statement (.busGroup dc s) := ⟨by simp [opcode], by simp [opcode], rfl⟩
theorem busByte (b : Byte) : Statement (.busByte b) := ⟨by simp [opcode], by simp [opcode], rfl⟩
theorem waitUntil (d : Nat) : Statement (.waitUntil d) := ⟨by simp [opcode], by simp [opcode], rfl⟩
theorem park : Statement .park := by unfold Statement; decide
theorem frame (fn : Fin 3) : Statement (.frame fn) := ⟨by simp [opcode], by simp [opcode], rfl⟩
theorem contrast (fn : Fin 3) : Statement (.contrast fn) := ⟨by simp [opcode], by simp [opcode], rfl⟩
theorem restore : Statement .restore := by unfold Statement; decide
theorem inject : Statement .inject := by unfold Statement; decide
theorem monoFrame : Statement .monoFrame := by unfold Statement; decide
theorem directCmd (c : List Byte) : Statement (.directCmd c) := ⟨by simp [opcode], by simp [opcode], rfl⟩
theorem monoContrast : Statement .monoContrast := by unfold Statement; decide
theorem modeGray : Statement .modeGray := by unfold Statement; decide
theorem modeMono : Statement .modeMono := by unfold Statement; decide
theorem init : Statement .init := by unfold Statement; decide

end Sys2Proof.Laws.FirstByte
end

