-- ==== Sys2Proof/Tests/Slice0.lean ====
section
/-! SUPPORT. The model's own tests. Expected values are those of spec/95_test_vectors.md and of the rules named at each
test, worked out by hand. The last part shows, for each statement with hypotheses, a state and operands that meet
them. -/

namespace Sys2Proof.Tests

open Sys2Proof.Machine

/-! ### A small machine: the common parameters of 95_test_vectors.md section 3 -/

def params : Config.Params where
  width := 4
  pcmdLen := 8
  tRow := ⟨4709, 48⟩
  tickBits := 32
  tickHz := 1000000
  busHz := 8000000
  cmdSetMux := 0xA8#8
  cmdSetOffset := 0xD3#8
  cmdSetContrast := 0x81#8
  cmdNop := 0xE3#8
  muxEnc := .rowsMinusOne
  parkOffset := 52#8
  restoreOffset := 47#8
  monoContrast := .identity
  policy := .allInOrder
  modeGray := [0x11#8, 0x22#8]
  modeMono := [0x33#8]
  init := [0x44#8]
  configKey := none

/-- Both agents at rest, Stopped, the transmitter ready, actions enough for anything. -/
def rest : State := { State.resetWith params with budget := 1000 }

/-- The same with the engine Running at (FN, STEP). -/
def at_ (fn : BitVec 2) (p : Pos) : State := { rest with threadState := 2#32, fn := fn, stepCode := posCode p }

/-- A buffer filled with one byte, not zero. -/
def filled (n : Nat) (b : Byte) : Memory := (List.range n).map (fun i => (i, b))

/-- PLANE_A = 20 bytes 0F, PLANE_B = 20 bytes 33 (section 2.1). -/
def drawn (s : State) : State := { s with planeA := filled 20 0x0F#8, planeB := filled 20 0x33#8 }

def next? (o : Host.Outcome State Fault Refusal) : Option State :=
  match o with
  | .next t => some t
  | _ => none

def fault? (o : Host.Outcome State Fault Refusal) : Option Fault :=
  match o with
  | .fault f => some f
  | _ => none

def refusal? (o : Host.Outcome State Fault Refusal) : Option Refusal :=
  match o with
  | .refused r => some r
  | _ => none

/-- What `f` reads in the next state of an operation. -/
def after {α : Type} (i : Instr) (s : State) (f : State → α) : Option α := (next? (exec i s)).map f

/-- Whether an operation answers a next state in which `f` holds. -/
def yields (i : Instr) (s : State) (f : State → Bool) : Bool :=
  match next? (exec i s) with
  | some t => f t
  | none => false

def ok? (r : Parsed Instr) : Option (Instr × List Byte) :=
  match r with
  | .ok x => some x
  | .error _ => none

def error? (r : Parsed Instr) : Option DecodeError :=
  match r with
  | .ok _ => none
  | .error e => some e

/-! ### WellFormed refuses -/

theorem test_wf_draw_offset : Instr.wf params (.draw [⟨.a, 20, 1#8⟩]) = false := by decide
theorem test_wf_draw_last : Instr.wf params (.draw [⟨.a, 19, 1#8⟩, ⟨.b, 0, 1#8⟩]) = true := by decide
theorem test_wf_sfgWord_index : Instr.wf params (.sfgWord 5 0#32) = false := by decide
theorem test_wf_sfgWord_mask : Instr.wf params (.sfgWord 4 1#32) = false := by decide
theorem test_wf_sfgWord_last : Instr.wf params (.sfgWord 4 0xFFFFFFFF#32) = true := by decide
theorem test_wf_wait_deadline : Instr.wf params (.waitUntil (2 ^ 32)) = false := by decide
theorem test_wf_wait_last : Instr.wf params (.waitUntil (2 ^ 32 - 1)) = true := by decide
theorem test_wf_brightness_low : Instr.wf params (.brightness (-2147483649)) = false := by decide
theorem test_wf_brightness_high : Instr.wf params (.brightness 2147483648) = false := by decide
theorem test_wf_length : fitsLength (2 ^ 32) = false ∧ fitsLength (2 ^ 32 - 1) = true := by decide
theorem test_wf_sendCmd (c : List Byte) (h : c.length = 2 ^ 32) : Instr.wf params (.sendCmd c) = false := by
  show fitsLength c.length = false
  rw [h]
  decide
theorem test_wf_directCmd (c : List Byte) (h : c.length = 2 ^ 32) : Instr.wf params (.directCmd c) = false := by
  show fitsLength c.length = false
  rw [h]
  decide
theorem test_wf_busGroup (dc : Bool) (c : List Byte) (h : c.length = 2 ^ 32) : Instr.wf params (.busGroup dc c) = false := by
  show fitsLength c.length = false
  rw [h]
  decide
theorem test_wf_draw_length (ws : List PlaneWrite) (h : ws.length = 2 ^ 32) : Instr.wf params (.draw ws) = false := by
  show (fitsLength ws.length && _) = false
  rw [h]
  rfl

/-! ### Decoding: words written from R62 (SEQ[5:0] = FN FN STEP STEP STEP STEP) -/

theorem test_decode_engIdle : ok? (decode [0b00000000#8]) = some (.engIdle, []) := by decide
theorem test_decode_engCheck : ok? (decode [0b00001011#8]) = some (.engCheck, []) := by decide
theorem test_decode_engStart : ok? (decode [0b00001100#8]) = some (.engStart, []) := by decide
theorem test_decode_engExit : ok? (decode [0b00001101#8]) = some (.engExit, []) := by decide
theorem test_decode_s1 : ok? (decode [0b00000001#8]) = some (.s1 0, []) := by decide
theorem test_decode_s2 : ok? (decode [0b00010010#8]) = some (.s2 1, []) := by decide
theorem test_decode_s3 : ok? (decode [0b00010011#8]) = some (.s3 1, []) := by decide
theorem test_decode_s4 : ok? (decode [0b00100100#8]) = some (.s4 2, []) := by decide
theorem test_decode_s5 : ok? (decode [0b00000101#8]) = some (.s5 0, []) := by decide
theorem test_decode_s6 : ok? (decode [0b00010110#8]) = some (.s6 1, []) := by decide
theorem test_decode_s7 : ok? (decode [0b00100111#8]) = some (.s7 2, []) := by decide
theorem test_decode_s8 : ok? (decode [0b00101000#8]) = some (.s8 2, []) := by decide
theorem test_decode_s9 : ok? (decode [0b00101001#8]) = some (.s9 2, []) := by decide
theorem test_decode_s10 : ok? (decode [0b00011010#8]) = some (.s10 1, []) := by decide

/-- R62: STEP codes 14 and 15 are unused, FN = 3 is never produced, FN is 0 at IDLE, CHECK, START and EXIT. -/
theorem test_decode_reserved :
    error? (decode [0b00001110#8]) = some (.reservedStep 14) ∧ error? (decode [0b00101111#8]) = some (.reservedStep 15) ∧
    error? (decode [0b00110011#8]) = some .subframeThree ∧ error? (decode [0b00010000#8]) = some .fnNotZero ∧
    error? (decode [0b00101011#8]) = some .fnNotZero ∧ error? (decode []) = some .truncated := by decide

/-! The other operations: the model's own code (log 6). -/

theorem test_decode_host :
    ok? (decode [0x40#8]) = some (.enable, []) ∧ ok? (decode [0x41#8]) = some (.disable, []) ∧
    ok? (decode [0x42#8]) = some (.isActive, []) ∧ ok? (decode [0x43#8]) = some (.showSync, []) ∧
    ok? (decode [0x44#8]) = some (.showAsync, []) ∧
    ok? (decode [0x45#8, 2#8, 0#8, 0#8, 0#8, 0xA7#8, 0x01#8, 0x99#8]) = some (.sendCmd [0xA7#8, 0x01#8], [0x99#8]) ∧
    ok? (decode [0x46#8, 0xFB#8, 0xFF#8, 0xFF#8, 0xFF#8]) = some (.brightness (-5), []) ∧
    ok? (decode [0x47#8, 1#8]) = some (.invert true, []) ∧
    ok? (decode [0x48#8, 1#8, 0#8, 0#8, 0#8, 1#8, 0x13#8, 0#8, 0#8, 0#8, 0x7F#8]) =
      some (.draw [⟨.b, 19, 0x7F#8⟩], []) := by decide

theorem test_decode_sub :
    ok? (decode [0x50#8]) = some (.svcPublish, []) ∧ ok? (decode [0x51#8]) = some (.svcContrast, []) ∧
    ok? (decode [0x52#8]) = some (.svcCommand, []) ∧ ok? (decode [0x53#8]) = some (.sfgPass, []) ∧
    ok? (decode [0x54#8, 4#8, 0#8, 0#8, 0#8, 0xFF#8, 0xFF#8, 0xFF#8, 0xFF#8]) = some (.sfgWord 4 0xFFFFFFFF#32, []) ∧
    ok? (decode [0x55#8, 1#8, 1#8, 0#8, 0#8, 0#8, 0x23#8]) = some (.busGroup true [0x23#8], []) ∧
    ok? (decode [0x56#8, 0x81#8]) = some (.busByte 0x81#8, []) ∧
    ok? (decode [0x57#8, 0x11#8, 0x02#8, 0#8, 0#8, 0#8, 0#8, 0#8, 0#8]) = some (.waitUntil 0x211, []) := by decide

theorem test_decode_groups :
    ok? (decode [0x60#8]) = some (.park, []) ∧ ok? (decode [0x61#8, 2#8]) = some (.frame 2, []) ∧
    ok? (decode [0x62#8, 1#8]) = some (.contrast 1, []) ∧ ok? (decode [0x63#8]) = some (.restore, []) ∧
    ok? (decode [0x64#8]) = some (.inject, []) ∧ ok? (decode [0x65#8]) = some (.monoFrame, []) ∧
    ok? (decode [0x66#8, 1#8, 0#8, 0#8, 0#8, 0xA7#8]) = some (.directCmd [0xA7#8], []) ∧
    ok? (decode [0x67#8]) = some (.monoContrast, []) ∧ ok? (decode [0x68#8]) = some (.modeGray, []) ∧
    ok? (decode [0x69#8]) = some (.modeMono, []) ∧ ok? (decode [0x6A#8]) = some (.init, []) := by decide

theorem test_decode_refused :
    error? (decode [0x6B#8]) = some (.unknownCode 0x6B#8) ∧ error? (decode [0x61#8, 3#8]) = some (.badField 3#8) ∧
    error? (decode [0x47#8, 2#8]) = some (.badField 2#8) ∧ error? (decode [0x56#8]) = some .truncated := by decide

/-- A table word: SEQ = 101001 in six bits is S9 with FN = 2. -/
theorem test_table_word : decodeTableWord 6 0b101001 = some (.s9 2) ∧ decodeTableWord 6 0b001110 = none := by decide

/-- The word placed from reset is what the next step runs: S1 sets DL, ENABLE begins, INJECT sends its 8 bytes. -/
theorem test_withFetchWord :
    (next? (step ((State.resetWith params).withFetchWord 6 1))).map (fun t => (t.dl, t.stepCode)) = some (785, 2#4) ∧
    (next? (step ((State.resetWith params).withFetchWord 8 0x40))).map (fun t => (t.threadState, t.stepCode)) =
      some (1#32, 12#4) ∧
    (next? (step ((State.resetWith params).withFetchWord 8 0x64))).map (fun t => t.trace.length) = some params.pcmdLen := by
  decide

/-! ### Subframe generator (section 2.1) -/

/-- The three results of SFG.WORD(0, mask) for two plane words. -/
def transformed (a b mask : Word) : Option (Word × Word × Word) :=
  after (.sfgWord 0 mask) { rest with planeA := Memory.writeWord [] 0 a, planeB := Memory.writeWord [] 0 b }
    (fun t => (Memory.readWord t.sf0 0, Memory.readWord t.sf1 0, Memory.readWord t.sf2 0))

theorem test_word_mixed :
    transformed 0xDEADBEEF#32 0x12345678#32 0#32 = some (0xDEBDFEFF#32, 0xDEADBEEF#32, 0xCC89A887#32) := by
  decide
theorem test_word_inverted :
    transformed 0x0000FFFF#32 0x00FF00FF#32 0xFFFFFFFF#32 = some (0xFFFF00FF#32, 0xFFFF0000#32, 0xFF000000#32) := by
  decide

/-- R44, R45: the least significant byte of a word stands at the lowest offset. -/
theorem test_little_endian :
    Memory.read (Memory.writeWord [] 4 0x12345678#32) 4 = 0x78#8 ∧ Memory.read (Memory.writeWord [] 4 0x12345678#32) 7 = 0x12#8 :=
  by decide

theorem test_pass_bytes :
    after .sfgPass (drawn rest) (fun t => (t.sf0, t.sf1, t.sf2)) =
      some (filled 20 0x3F#8, filled 20 0x0F#8, filled 20 0x0C#8) := by decide
theorem test_pass_inverted :
    after .sfgPass { drawn rest with invert := 1#32 } (fun t => (t.byteAt (.sf 0) 19, t.byteAt (.sf 1) 19, t.byteAt (.sf 2) 19)) =
      some (0xF3#8, 0xF0#8, 0xC0#8) := by decide

/-- E2: with WIDTH = 72 the pixel (3, 10) stands in byte 75, bit 2. -/
theorem test_pixel_place : pixelOffset { params with width := 72 } 3 10 = 75 ∧ 10 % 8 = 2 := by decide

/-! ### Bus primitives and waits (section 2.2) -/

theorem test_busByte : after (.busByte 0x81#8) rest (fun t => t.trace) = some [(false, 0x81#8)] := by decide
theorem test_busByte_waits :
    after (.busByte 0x81#8) { rest with tnf := false } (fun t => (t.trace, t.hostWork)) =
      some ([], [.send 0x81#8, .drain]) := by decide
theorem test_busGroup :
    after (.busGroup false [0x81#8, 0x23#8]) { rest with dc := true, rxq := [7#8] } (fun t => (t.dc, t.trace, t.rxq)) =
      some (false, [(false, 0x81#8), (false, 0x23#8)], []) := by decide
theorem test_busGroup_empty : after (.busGroup true []) rest (fun t => (t.dc, t.trace)) = some (true, []) := by
  decide
theorem test_wait_ends : after (.waitUntil 1785) { rest with tick := 1785 } (fun t => t.engWork) = some [] := by
  decide
theorem test_wait_wraps :
    after (.waitUntil 0x10) { rest with tick := 0xFFFFFFF0 } (fun t => t.engWork) = some [.await 0x10] := by
  decide

/-! ### The sequencer (section 2.3) -/

theorem test_s1_wraps :
    after (.s1 0) { at_ 0#2 .s1 with tick := 0xFFFFFF00 } (fun t => (t.dl, t.stepCode)) = some (0x211, 2#4) := by
  decide
theorem test_s2 :
    after (.s2 0) (at_ 0#2 .s2) (fun t => (t.trace, t.stepCode)) =
      some ([(false, 0xA8#8), (false, 0x00#8), (false, 0xD3#8), (false, 0x34#8)], 3#4) := by decide
theorem test_s3 :
    after (.s3 1) { at_ 1#2 .s3 with sf1 := filled 20 0x0F#8 } (fun t => (t.trace, t.stepCode)) =
      some (List.replicate 20 (true, 0x0F#8), 4#4) := by decide
theorem test_s4 :
    after (.s4 1) (at_ 1#2 .s4) (fun t => (t.trace, t.stepCode)) = some ([(false, 0x81#8), (false, 0x55#8)], 5#4) := by
  decide
theorem test_s5 :
    after (.s5 0) { at_ 0#2 .s5 with tick := 1500, dl := 1785 } (fun t => (t.stepCode, t.engWork)) =
      some (5#4, [.await 1785, .goto .s6]) := by decide
theorem test_s6 :
    after (.s6 0) { at_ 0#2 .s6 with tick := 1790 } (fun t => (t.dl, t.stepCode)) = some (6499, 7#4) := by decide
theorem test_s7 :
    after (.s7 0) (at_ 0#2 .s7) (fun t => (t.trace, t.stepCode)) =
      some ([(false, 0xA8#8), (false, 0x38#8), (false, 0xD3#8), (false, 0x2F#8)], 8#4) := by decide
theorem test_s8 :
    after (.s8 2) (at_ 2#2 .s8) (fun t => (t.trace, t.stepCode)) = some ([(false, 0x81#8), (false, 0xFF#8)], 9#4) := by
  decide
theorem test_s9_middle :
    after (.s9 1) { at_ 1#2 .s9 with copyPending := 1#32 } (fun t => (t.copyPending, t.stepCode)) = some (1#32, 10#4) := by
  decide
theorem test_s9_boundary :
    yields (.s9 2) { drawn (at_ 2#2 .s9) with
        copyPending := 1#32, pendingCmd := 1#32, contrastPending := 1#32, pcon := ⟨6#8, 14#8, 20#8⟩ }
      (fun t => t.copyPending == 0#32 && t.pendingCmd == 0#32 && t.contrastPending == 0#32 &&
        t.wcon == ⟨6#8, 14#8, 20#8⟩ && t.sf0 == filled 20 0x3F#8 && t.trace.length == 8) = true := by decide
theorem test_s10 :
    after (.s10 2) { at_ 2#2 .s10 with tick := 6499, dl := 6499 } (fun t => (t.fn, t.stepCode)) = some (0#2, 11#4) := by
  decide
theorem test_s10_next :
    after (.s10 0) { at_ 0#2 .s10 with tick := 6499, dl := 6499 } (fun t => (t.fn, t.stepCode)) = some (1#2, 1#4) := by
  decide
theorem test_check :
    after .engCheck (at_ 0#2 .check) (fun t => t.stepCode) = some 1#4 ∧
    after .engCheck { at_ 0#2 .check with threadState := 3#32 } (fun t => t.stepCode) = some 13#4 := by decide
theorem test_exit :
    after .engExit { at_ 0#2 .exit with threadState := 3#32, copyPending := 1#32 }
      (fun t => (t.threadState, t.stepCode, t.copyPending, t.trace)) = some (0#32, 0#4, 1#32, []) := by decide
theorem test_start :
    yields .engStart { drawn (at_ 0#2 .start) with threadState := 1#32, copyPending := 1#32 }
      (fun t => t.threadState == 2#32 && t.stepCode == 11#4 && t.copyPending == 1#32 &&
        t.sf0 == filled 20 0x3F#8 && t.sf1 == filled 20 0x0F#8 && t.sf2 == filled 20 0x0C#8) = true := by decide
theorem test_idle : after .engIdle rest (fun t => t.stepCode) = some 0#4 := by decide

/-! ### Service (section 2.3) -/

theorem test_svcPublish :
    after .svcPublish { drawn (at_ 2#2 .s9) with copyPending := 1#32 } (fun t => (t.copyPending, t.sf2)) =
      some (0#32, filled 20 0x0C#8) := by decide
theorem test_svcContrast :
    after .svcContrast { at_ 2#2 .s9 with contrastPending := 1#32, pcon := ⟨6#8, 14#8, 20#8⟩ }
      (fun t => (t.wcon, t.contrastPending, t.trace)) = some (⟨6#8, 14#8, 20#8⟩, 0#32, []) := by decide
theorem test_svcCommand :
    after .svcCommand { at_ 2#2 .s9 with pendingCmd := 1#32, pcmd := filled 8 0xA7#8 } (fun t => (t.trace, t.pendingCmd)) =
      some (List.replicate 8 (false, 0xA7#8), 0#32) := by decide
theorem test_s9_contrastOrCommand :
    after (.s9 2) { at_ 2#2 .s9 with
        cfg := { params with policy := .contrastOrCommand }, pendingCmd := 1#32, contrastPending := 1#32 }
      (fun t => (t.contrastPending, t.pendingCmd, t.trace)) = some (0#32, 1#32, []) := by decide

/-! ### The HOST's operations (sections 2.4 to 2.6) -/

/-- SENDCMD([A7]) while Running: A7 and seven no-ops. -/
theorem test_sendCmd_active :
    after (.sendCmd [0xA7#8]) (at_ 0#2 .s1) (fun t => (Memory.bytes t.pcmd 8, t.pendingCmd, t.trace)) =
      some (0xA7#8 :: List.replicate 7 0xE3#8, 1#32, []) := by decide
/-- E8: nine bytes while Running. -/
theorem test_sendCmd_violation :
    yields (.sendCmd (List.replicate 9 1#8)) (at_ 0#2 .s1)
      (fun t => t.result == .error .contractViolation 9 && t.pcmd == [] && t.pendingCmd == 0#32 && t.trace == []) = true := by decide
theorem test_show_active :
    after .showSync (at_ 0#2 .s1) (fun t => (t.copyPending, t.hostWork, t.trace)) =
      some (1#32, [.spin .copyPending 0#32, .ret .done], []) := by decide
theorem test_show_direct :
    after .showSync { drawn rest with invert := 1#32 } (fun t => (t.trace, t.copyPending)) =
      some (List.replicate 20 (true, 0x0F#8), 0#32) := by decide
theorem test_showAsync_coalesced :
    after .showAsync { at_ 0#2 .s1 with copyPending := 1#32 } (fun t => (t.copyPending, t.hostWork)) = some (1#32, []) := by
  decide
theorem test_invert : after (.invert true) (at_ 0#2 .s1) (fun t => (t.invert, t.copyPending)) = some (1#32, 0#32) := by
  decide
theorem test_isActive :
    after .isActive (at_ 0#2 .s1) (fun t => t.result) = some (.bool true) ∧
    after .isActive { rest with threadState := 3#32 } (fun t => t.result) = some (.bool false) := by decide
theorem test_draw_last_wins :
    after (.draw [⟨.a, 3, 7#8⟩, ⟨.b, 19, 9#8⟩, ⟨.a, 3, 0#8⟩]) rest (fun t => (t.planeA, t.planeB)) = some ([], [(19, 9#8)]) := by
  decide
theorem test_draw_outside :
    fault? (exec (.draw [⟨.b, 20, 7#8⟩]) rest) = some (.outsideRegion .planeB 20) := by decide
theorem test_brightness_direct :
    after (.brightness 28) rest (fun t => (t.bright, t.pcon, t.wcon, t.trace)) =
      some (28, ⟨20#8, 47#8, 178#8⟩, ⟨20#8, 47#8, 178#8⟩, [(false, 0x81#8), (false, 0x1C#8)]) := by decide +kernel
theorem test_brightness_active :
    yields (.brightness (-5)) (at_ 0#2 .s1)
      (fun t => t.bright == 0 && t.pcon == ⟨6#8, 14#8, 20#8⟩ && t.wcon == ⟨35#8, 85#8, 255#8⟩ &&
        t.contrastPending == 1#32 && t.trace == []) = true := by decide +kernel
/-- Rows of section 2.5: a perfect square, the last unclamped byte2 and the first clamped one. -/
theorem test_derive :
    deriveTriple 2 = ⟨9#8, 23#8, 62#8⟩ ∧ deriveTriple 61 = ⟨26#8, 63#8, 254#8⟩ ∧ deriveTriple 62 = ⟨26#8, 64#8, 255#8⟩ ∧
    deriveRoot 127 = 4079 ∧ clampBrightness 1000 = 127 := by decide +kernel
/-- R153 and the last lines of section 2.5. -/
theorem test_key :
    keyBrightness (some ['b', 'r', 'i', 'g', 'h', 't', 'n', 'e', 's', 's', ',', '1']) = 28 ∧
    keyBrightness (some ['b', 'r', 'i', 'g', 'h', 't', 'n', 'e', 's', 's', ',']) = 127 ∧
    keyBrightness (some ['b', 'r', 'i', 'g', 'h', 't', ',', '1']) = 127 := by decide
theorem test_enable :
    after .enable rest (fun t => (t.threadState, t.fn, t.stepCode, t.trace)) =
      some (1#32, 0#2, 12#4, [(false, 0x11#8), (false, 0x22#8)]) := by decide
theorem test_disable :
    after .disable (at_ 0#2 .s1) (fun t => t.threadState) = some 3#32 ∧
    after .disable rest (fun t => (t.threadState, t.trace)) = some (0#32, []) := by decide
theorem test_transitional : refusal? (exec .showSync { rest with threadState := 1#32 }) = some .transitionalState := by
  decide

/-! ### Bus groups as operations -/

theorem test_park : after .park (at_ 0#2 .s2) (fun t => t.trace.length) = some 4 := by decide
theorem test_frame :
    after (.frame 2) { at_ 2#2 .s3 with sf2 := [(19, 0x0C#8)] } (fun t => (t.trace.length, t.trace.getLast?)) =
      some (20, some (true, 0x0C#8)) := by decide
theorem test_contrast : after (.contrast 0) (at_ 0#2 .s4) (fun t => t.trace) = some [(false, 0x81#8), (false, 0x23#8)] := by
  decide
theorem test_restore : after .restore (at_ 0#2 .s7) (fun t => t.trace.getLast?) = some (some (false, 0x2F#8)) := by
  decide
theorem test_inject : after .inject (at_ 2#2 .s9) (fun t => t.trace.length) = some 8 := by decide
theorem test_monoFrame : after .monoFrame (drawn rest) (fun t => t.trace) = some (List.replicate 20 (true, 0x0F#8)) := by
  decide
theorem test_directCmd : after (.directCmd [0xA7#8]) rest (fun t => t.trace) = some [(false, 0xA7#8)] := by decide
theorem test_monoContrast : after .monoContrast rest (fun t => t.trace) = some [(false, 0x81#8), (false, 0x7F#8)] := by
  decide
theorem test_modeGray : after .modeGray rest (fun t => t.trace) = some [(false, 0x11#8), (false, 0x22#8)] := by
  decide
theorem test_modeMono : after .modeMono rest (fun t => t.trace) = some [(false, 0x33#8)] := by decide
theorem test_init : after .init rest (fun t => t.trace) = some [(false, 0x44#8)] := by decide
theorem test_group_ownership : refusal? (exec .init (at_ 0#2 .s1)) = some .ownership := by decide
/-- R163: in Starting the HOST owns the port until the launch, the ENGINE from it on. -/
theorem test_handover :
    after .modeGray { rest with threadState := 1#32 } (fun t => t.trace.length) = some 2 ∧
    refusal? (exec .modeGray { rest with threadState := 1#32, stepCode := posCode .start }) = some .ownership := by decide

/-! ### Parameters (R6) -/

/-- The defaults' intervals and multiplex operands, and a T_ROW of whole ticks: 8 * 98 and 48 * 98. -/
theorem test_parameters :
    (params.tPre, params.tPost) = (785, 4709) ∧ (params.muxPark, params.muxRun) = (0x00#8, 0x38#8) ∧
    (Config.Params.tPre { params with tRow := ⟨98, 1⟩ }, Config.Params.tPost { params with tRow := ⟨98, 1⟩ }) = (784, 4704) ∧
    Config.Params.muxPark { params with muxEnc := .table [0x10#8, 0x11#8] } = 0x11#8 := by decide

/-! ### Witnesses: states and operands that meet the hypotheses of each statement, one for each clause -/

theorem rest_memoryOk : rest.memoryOk := resetWith_memoryOk params

theorem rest_nested : rest.nested := by
  intro i
  show (0#8 &&& ~~~0#8 : Byte) = 0#8 ∧ (0#8 &&& ~~~0#8 : Byte) = 0#8
  decide

theorem rest_safe : rest.safe := by
  refine ⟨⟨by decide, by decide, by decide⟩, ⟨by decide, ?_, by decide, by decide⟩, by decide⟩
  intro f _
  cases f <;> decide

/-- The engine Running in S3 with a byte to send, the HOST waiting for its SENDCMD. -/
def busy : State :=
  { at_ 1#2 .s3 with
    engWork := [.send 1#8, .drain, .bytes 20 [], .idle, .drain, .goto .s4], dc := true
    trace := List.replicate 19 (true, 0#8), pendingCmd := 1#32, hostWork := requestWait .pendingCmd }

theorem busy_safe : busy.safe := by
  refine ⟨⟨by decide, by decide, by decide⟩, ⟨by decide, ?_, by decide, by decide⟩, by decide⟩
  intro f hf
  cases f <;> first | exact absurd rfl hf | decide

def onTurn (a : Agent) (s : State) : State := { s with inputs := [readyTurn a] }

/-- Operands at the ends of their ranges. -/
theorem witness_DecodeEncode :
    Instr.wf params (.sendCmd []) = true ∧ Instr.wf params (.brightness (-2147483648)) = true ∧
    Instr.wf params (.brightness 2147483647) = true ∧ Instr.wf params (.draw [⟨.b, 19, 0#8⟩, ⟨.a, 0, 1#8⟩]) = true ∧
    Instr.wf params (.sfgWord 4 0xFFFFFFFF#32) = true ∧ Instr.wf params (.waitUntil 4294967295) = true := by decide

theorem witness_EncodeDecode : decode [0x56#8, 0x81#8, 7#8] = .ok (.busByte 0x81#8, [7#8]) := rfl

theorem witness_ReservedStatesFault :
    paramsOk params = true ∧ (onTurn .engine rest).nextTurn.agent = .engine ∧
    3 < ({ onTurn .engine rest with threadState := 4#32 } : State).threadState.toNat ∧
    (onTurn .engine (at_ 0#2 .idle)).threadState.toNat ≤ 3 ∧ (onTurn .engine (at_ 0#2 .idle)).engWork = [] ∧
    14 ≤ (14#4 : BitVec 4).toNat ∧ 14 ≤ (15#4 : BitVec 4).toNat ∧ (at_ 3#2 .s1).fn = 3#2 ∧
    (at_ 1#2 .idle).fn ≠ 0#2 ∧ (at_ 1#2 .idle).stepCode = 0#4 ∧ 11 ≤ (at_ 1#2 .check).stepCode.toNat := by decide

theorem witness_EngineTurn :
    paramsOk params = true ∧ (onTurn .engine rest).nextTurn.agent = .engine ∧ rest.threadState.toNat ≤ 3 ∧
    rest.engWork = [] ∧ ok? (decode [rest.seqByte]) = some (.engIdle, []) ∧ busy.engWork ≠ [] ∧
    (onTurn .engine rest).inputs = [readyTurn .engine] := by decide

theorem witness_HostTurn :
    paramsOk params = true ∧ (onTurn .host rest).nextTurn.agent = .host ∧ rest.hostWork = [] ∧ rest.hostProg = [] ∧
    isHostCall .enable = true ∧ isHostCall .park = false ∧ busy.hostWork ≠ [] := by decide

/-- Both sides of the equivalence occur; the ends of the interval's range. -/
theorem witness_ParameterRefusal :
    paramsOk params = true ∧ paramsOk { params with width := 3 } = false ∧ paramsOk { params with pcmdLen := 0 } = false ∧
    paramsOk { params with tRow := ⟨0, 1⟩ } = false ∧ paramsOk { params with tRow := ⟨2 ^ 31, 48⟩ } = false ∧
    paramsOk { params with tRow := ⟨2 ^ 31 - 1, 48⟩ } = true ∧ paramsOk { params with tickBits := 0 } = false := by decide

theorem witness_BusByte :
    rest.work rest.busOwner = [] ∧ (at_ 0#2 .s3).work (at_ 0#2 .s3).busOwner = [] ∧ rest.tnf = true ∧
    rest.rxq.length + 2 ≤ rest.budget ∧ ({ rest with tnf := false } : State).tnf = false := by decide

theorem witness_BusGroup :
    rest.work rest.busOwner = [] ∧ rest.tnf = true ∧ rest.groupBudget 2 ≤ rest.budget ∧ rest.bsy = false ∧
    ({ rest with bsy := true, rxq := [7#8] } : State).bsy = true ∧
    ({ rest with bsy := true, rxq := [7#8] } : State).groupBudget 2 ≤ rest.budget ∧
    ({ rest with tnf := false } : State).tnf = false ∧ 2 ≤ rest.budget := by decide

theorem witness_SpinsHaveNoExit :
    paramsOk params = true ∧ rest.threadState.toNat ≤ 3 ∧
    ({ onTurn .engine busy with inputs := [{ readyTurn .engine with tnf := false }] } : State).nextTurn.tnf = false ∧
    ({ busy with engWork := [.idle] } : State).engWork = .idle :: [] ∧
    ({ busy with inputs := [{ readyTurn .engine with bsy := true }] } : State).nextTurn.bsy = true ∧
    ({ rest with inputs := [{ readyTurn .host with tnf := false, bsy := true }] } : State).nextTurn.agent = .host ∧
    ({ rest with inputs := [{ readyTurn .host with tnf := false, bsy := true }] } : State).nextTurn.tnf = false ∧
    ({ rest with inputs := [{ readyTurn .host with tnf := false, bsy := true }] } : State).nextTurn.bsy = true ∧
    ({ rest with hostWork := [.send 1#8, .drain] } : State).busOwner = .host ∧
    tickDiff params ((0xFFFFFFF0 + 0) % 2 ^ 32) 0x10 < 0 ∧ busy.flag .pendingCmd ≠ 0#32 ∧
    busy.hostWork = .spin .pendingCmd 0#32 :: [.ret .done] := by decide

/-- The last tick before the deadline, and the deadline itself, over a wrap of the counter. -/
theorem witness_WaitUntil :
    rest.engWork = [] ∧ 1 ≤ rest.budget ∧ 0 ≤ Int.bmod ((0x10 : Int) - (0x10 : Int)) (2 ^ rest.cfg.tickBits) ∧
    Int.bmod ((0x0F : Int) - (0x10 : Int)) (2 ^ rest.cfg.tickBits) < 0 ∧
    Int.bmod ((0xFFFFFFF0 : Int) - (0x10 : Int)) (2 ^ rest.cfg.tickBits) < 0 := by decide

theorem witness_DeadlineWrapSafe :
    0 < params.tickBits ∧ 2 ^ 31 - 1 < 2 ^ (params.tickBits - 1) ∧ 2 ^ 32 - 2 < (2 ^ 31 - 1) + 2 ^ (params.tickBits - 1) := by
  decide

theorem witness_DeadlineSteps : (at_ 0#2 .s1).engWork = [] ∧ 2 ≤ (at_ 0#2 .s1).budget := by decide

theorem rest_busReady : rest.busReady := ⟨rfl, rfl⟩

theorem witness_ParkRestoreSteps :
    (at_ 0#2 .s2).engWork = [] ∧ (at_ 0#2 .s2).busReady ∧ (at_ 0#2 .s2).groupBudget 4 ≤ (at_ 0#2 .s2).budget :=
  ⟨rfl, rest_busReady, by decide⟩

theorem witness_FrameStep :
    (at_ 1#2 .s3).engWork = [] ∧ (at_ 1#2 .s3).busReady ∧
      (at_ 1#2 .s3).groupBudget params.planeBytes ≤ (at_ 1#2 .s3).budget := ⟨rfl, rest_busReady, by decide⟩

theorem witness_ContrastSteps :
    (at_ 2#2 .s4).engWork = [] ∧ (at_ 2#2 .s4).busReady ∧ (at_ 2#2 .s4).groupBudget 2 ≤ (at_ 2#2 .s4).budget :=
  ⟨rfl, rest_busReady, by decide⟩

theorem witness_PreFrameWait :
    (at_ 0#2 .s5).engWork = [] ∧ 2 ≤ (at_ 0#2 .s5).budget ∧ deadlinePassed params 1785 1785 = true ∧
    deadlinePassed params 1784 1785 = false := by decide

theorem witness_NoMidCycleService : (1 : Fin 3) ≠ 2 ∧ (at_ 1#2 .s9).engWork = [] ∧ 1 ≤ (at_ 1#2 .s9).budget := by decide

theorem witness_BoundaryService :
    (at_ 2#2 .s9).engWork = [] ∧ (at_ 2#2 .s9).busReady ∧ (at_ 2#2 .s9).memoryOk ∧ params.planeBytes % 4 = 0 ∧
    passBudget params + (at_ 2#2 .s9).groupBudget params.pcmdLen + 16 ≤ (at_ 2#2 .s9).budget ∧
    ({ at_ 2#2 .s9 with pendingCmd := 1#32, contrastPending := 1#32, copyPending := 1#32 } : State).commandServed ∧
    ¬ ({ at_ 2#2 .s9 with
          cfg := { params with policy := .contrastOrCommand }, pendingCmd := 1#32, contrastPending := 1#32 } : State).commandServed := by
  refine ⟨rfl, rest_busReady, rest_memoryOk, by decide, by decide, ⟨by decide, ?_⟩, ?_⟩
  · rintro ⟨h, -⟩
    cases h
  · rintro ⟨-, h⟩
    exact h ⟨rfl, by decide⟩

theorem witness_PostFrameWait :
    (at_ 2#2 .s10).engWork = [] ∧ 2 ≤ (at_ 2#2 .s10).budget ∧ deadlinePassed params 6499 6499 = true ∧
    deadlinePassed params 6498 6499 = false := by decide

theorem witness_RunFlagCheck :
    (at_ 0#2 .check).engWork = [] ∧ 1 ≤ (at_ 0#2 .check).budget ∧ (at_ 0#2 .check).threadState = 2#32 ∧
    rest.threadState ≠ 2#32 ∧ (3#32 : Word) ≠ 2#32 ∧ (3#32 : Word).toNat ≤ 3 := by decide

/-- The engine at ENG.START. -/
def atStart : State := { drawn rest with threadState := 1#32, stepCode := posCode .start }

theorem drawn_memoryOk (s : State) (h : s.memoryOk) (hc : s.cfg = params) : (drawn s).memoryOk := by
  intro r
  have h1 : ∀ b : Byte, b ≠ 0#8 → Memory.wf (filled 20 b) = true ∧ Memory.below 20 (filled 20 b) = true := by decide
  have hs : regionSize s.cfg .planeA = 20 := by rw [hc]; decide
  cases r with
  | planeA => rw [show (drawn s).cfg = s.cfg from rfl, hs]; exact h1 _ (by decide)
  | planeB => rw [show (drawn s).cfg = s.cfg from rfl, show regionSize s.cfg .planeB = 20 from hs]; exact h1 _ (by decide)
  | sf k => match k with | 0 => exact h (.sf 0) | 1 => exact h (.sf 1) | 2 => exact h (.sf 2)
  | pcmd => exact h .pcmd

theorem witness_EngineStart :
    atStart.engWork = [] ∧ atStart.threadState = 1#32 ∧ atStart.memoryOk ∧ atStart.cfg.planeBytes % 4 = 0 ∧
    passBudget atStart.cfg ≤ atStart.budget := ⟨rfl, rfl, drawn_memoryOk rest rest_memoryOk rfl, by decide, by decide⟩

theorem witness_EngineExitIdle :
    rest.engWork = [] ∧ 1 ≤ rest.budget ∧ ({ rest with threadState := 3#32 } : State).threadState = 3#32 ∧
    paramsOk params = true ∧ rest.threadState.toNat ≤ 3 ∧ (onTurn .engine rest).nextTurn.agent = .engine ∧
    rest.fn = 0#2 ∧ rest.stepCode = 0#4 := by decide

theorem witness_WordTransform :
    (drawn rest).engWork = [] ∧ (drawn rest).memoryOk ∧ 3 ≤ (drawn rest).budget ∧ 4 < params.planeWords ∧
    params.planeBytes < 4 * 5 + 4 ∧ rest.age = 0 :=
  ⟨rfl, drawn_memoryOk rest rest_memoryOk rfl, by decide, by decide, by decide, rfl⟩

theorem witness_PassTransform :
    (drawn rest).engWork = [] ∧ (drawn rest).memoryOk ∧ params.planeBytes % 4 = 0 ∧
    passBudget params ≤ (drawn rest).budget := ⟨rfl, drawn_memoryOk rest rest_memoryOk rfl, by decide, by decide⟩

/-- Two states with different subframe buffers. -/
theorem witness_PassIdempotent :
    (drawn rest).engWork = [] ∧ (drawn rest).memoryOk ∧ params.planeBytes % 4 = 0 ∧
    passBudget params ≤ (drawn rest).budget ∧
    (next? (exec .sfgPass { drawn rest with sf0 := filled 20 0x99#8 })).map (fun t => t.byteAt (.sf 0) 19) =
      (next? (exec .sfgPass (drawn rest))).map (fun t => t.byteAt (.sf 0) 19) := by
  refine ⟨rfl, witness_PassTransform.2.1, by decide, by decide, by decide⟩

/-- The buffers after a pass over the bytes 0F and 33, without and with inversion: the last column, the last row. -/
theorem witness_PixelTable :
    consistentWith { drawn rest with sf0 := filled 20 0x3F#8, sf1 := filled 20 0x0F#8, sf2 := filled 20 0x0C#8 }
      (filled 20 0x0F#8) (filled 20 0x33#8) 0#32 ∧
    consistentWith { drawn rest with invert := 1#32, sf0 := filled 20 0xF3#8, sf1 := filled 20 0xF0#8, sf2 := filled 20 0xC0#8 }
      (filled 20 0x0F#8) (filled 20 0x33#8) 1#32 ∧ 3 < params.width ∧ 39 < Config.height ∧
    (drawn rest).colour 3 39 = 0 ∧ (drawn rest).colour 3 34 = 1 ∧ (drawn rest).colour 3 36 = 2 ∧ (drawn rest).colour 3 32 = 3 := by
  refine ⟨?_, ?_, by decide, by decide, by decide, by decide, by decide, by decide⟩
  · have h : ∀ i : Fin 20, Memory.read (filled 20 0x3F#8) i = 0x3F#8 ∧ Memory.read (filled 20 0x0F#8) i = 0x0F#8 ∧
        Memory.read (filled 20 0x0C#8) i = 0x0C#8 ∧ Memory.read (filled 20 0x33#8) i = 0x33#8 := by decide
    intro i hi
    obtain ⟨h1, h2, h3, h4⟩ := h ⟨i, hi⟩
    rw [h2, h4]
    exact ⟨h1, h2, h3⟩
  · have h : ∀ i : Fin 20, Memory.read (filled 20 0xF3#8) i = 0xF3#8 ∧ Memory.read (filled 20 0xF0#8) i = 0xF0#8 ∧
        Memory.read (filled 20 0xC0#8) i = 0xC0#8 ∧ Memory.read (filled 20 0x33#8) i = 0x33#8 ∧
        Memory.read (filled 20 0x0F#8) i = 0x0F#8 := by decide
    intro i hi
    obtain ⟨h1, h2, h3, h4, h5⟩ := h ⟨i, hi⟩
    rw [h5, h4]
    exact ⟨h1, h2, h3⟩

theorem witness_PlaneReads :
    ([.released .copyPending, .drew .a 3 1#8] : List Race) = [] ++ .released .copyPending :: [.drew .a 3 1#8] ∧
    (∀ q off old, Race.drew q off old ∉ ([] : List Race)) ∧ Memory.wf ((drawn rest).region (planeRegion .a)) = true :=
  ⟨rfl, by simp, by decide⟩

theorem witness_ShowPaths :
    (at_ 0#2 .s1).hostWork = [] ∧ (at_ 0#2 .s1).threadState = 2#32 ∧ 2 ≤ (at_ 0#2 .s1).budget ∧ rest.hostWork = [] ∧
    rest.threadState = 0#32 ∧ rest.busReady ∧ rest.groupBudget params.planeBytes ≤ rest.budget :=
  ⟨rfl, rfl, by decide, rfl, rfl, rest_busReady, by decide⟩

theorem witness_SendCmdPaths :
    (at_ 0#2 .s1).threadState = 2#32 ∧ (List.replicate 8 1#8).length ≤ params.pcmdLen ∧ (at_ 0#2 .s1).pendingCmd = 0#32 ∧
    (at_ 0#2 .s1).memoryOk ∧ params.pcmdLen + 3 ≤ (at_ 0#2 .s1).budget ∧ rest.threadState = 0#32 ∧ rest.busReady ∧
    rest.groupBudget 9 ≤ rest.budget ∧ 1 ≤ params.pcmdLen ∧
    ({ at_ 0#2 .s1 with pendingCmd := 1#32 } : State).pendingCmd ≠ 0#32 :=
  ⟨rfl, by decide, rfl, rest_memoryOk, by decide, rfl, rest_busReady, by decide, by decide, by decide⟩

theorem witness_ContractViolation :
    (at_ 0#2 .s1).hostWork = [] ∧ (at_ 0#2 .s1).threadState = 2#32 ∧ params.pcmdLen < (List.replicate 9 1#8).length ∧
    1 ≤ (at_ 0#2 .s1).budget ∧ (at_ 0#2 .s1).result = .done ∧
    after (.sendCmd (List.replicate 9 1#8)) (at_ 0#2 .s1) (fun t => t.result) = some (.error .contractViolation 9) := by
  decide

theorem witness_InvertIsActive : rest.hostWork = [] ∧ 2 ≤ rest.budget ∧ rest.threadState.toNat ≤ 3 := by decide

theorem witness_DrawWrites :
    rest.hostWork = [] ∧ rest.memoryOk ∧ ([⟨.a, 19, 1#8⟩] : List PlaneWrite).length + 1 ≤ rest.budget ∧
    (∀ w ∈ ([⟨.a, 19, 1#8⟩, ⟨.b, 0, 1#8⟩] : List PlaneWrite), w.off < params.planeBytes) ∧
    (∃ w ∈ ([⟨.a, 20, 1#8⟩] : List PlaneWrite), params.planeBytes ≤ w.off) :=
  ⟨rfl, rest_memoryOk, by decide, by decide, by decide⟩

theorem witness_HostRefusals :
    busy.hostWork ≠ [] ∧ isHostCall .isActive = true ∧ rest.hostWork = [] ∧ (1#32 : Word) = 1#32 ∧
    3 < (4#32 : Word).toNat := by decide

theorem witness_ServePublish :
    (drawn (at_ 2#2 .s9)).engWork = [] ∧ (drawn (at_ 2#2 .s9)).memoryOk ∧ params.planeBytes % 4 = 0 ∧
    passBudget params ≤ (drawn (at_ 2#2 .s9)).budget :=
  ⟨rfl, drawn_memoryOk _ rest_memoryOk rfl, by decide, by decide⟩

theorem witness_ServeContrastCommand :
    (at_ 2#2 .s9).engWork = [] ∧ 4 ≤ (at_ 2#2 .s9).budget ∧ (at_ 2#2 .s9).busReady ∧
    (at_ 2#2 .s9).groupBudget params.pcmdLen ≤ (at_ 2#2 .s9).budget := ⟨rfl, by decide, rest_busReady, by decide⟩

/-- Three turns that serve a request: the HOST has drawn since its last release, and the ENGINE's reads may look far
back. -/
def served (i : Instr) : State :=
  { at_ 2#2 .s9 with
    hostProg := [i], races := [.drew .a 3 1#8]
    inputs := [{ readyTurn .host with budget := 16 }, { readyTurn .engine with age := 5, rx := [1#8] }, readyTurn .host] }

/-- The hypotheses that the three statements about served requests share. -/
def ServedHypotheses (i : Instr) : Prop :=
    paramsOk (served i).cfg = true ∧ (served i).memoryOk ∧ (served i).threadState = 2#32 ∧
    (served i).fn = 2#2 ∧ (served i).stepCode = 9#4 ∧ (served i).rxq = [] ∧ (served i).engWork = [] ∧
    (served i).hostWork = [] ∧ (served i).hostProg = i :: [] ∧
    servedTurns (served i).cfg { readyTurn .host with budget := 16 } { readyTurn .engine with age := 5, rx := [1#8] }
      (readyTurn .host) ∧
    (served i).inputs = { readyTurn .host with budget := 16 } :: { readyTurn .engine with age := 5, rx := [1#8] } ::
      readyTurn .host :: []

theorem served_hypotheses (i : Instr) : ServedHypotheses i :=
  ⟨show paramsOk params = true by decide, rest_memoryOk, rfl, rfl, rfl, rfl, rfl, rfl, rfl,
    show servedTurns params _ _ _ by unfold servedTurns; decide, rfl⟩

theorem witness_ShowReturns : ServedHypotheses .showSync := served_hypotheses _

theorem witness_SendCmdReturns :
    ServedHypotheses (.sendCmd [0xA7#8]) ∧ [0xA7#8].length ≤ params.pcmdLen ∧
    (served (.sendCmd [0xA7#8])).pendingCmd = 0#32 ∧ (served (.sendCmd [0xA7#8])).contrastPending = 0#32 :=
  ⟨served_hypotheses _, by decide, rfl, rfl⟩

theorem witness_BrightnessReturns :
    ServedHypotheses (.brightness (-5)) ∧ (served (.brightness (-5))).pendingCmd = 0#32 ∧
    (served (.brightness (-5))).contrastPending = 0#32 := ⟨served_hypotheses _, rfl, rfl⟩

theorem witness_BrightnessPaths :
    (at_ 0#2 .s1).hostWork = [] ∧ (at_ 0#2 .s1).contrastPending = 0#32 ∧ (at_ 0#2 .s1).threadState = 2#32 ∧
    6 ≤ (at_ 0#2 .s1).budget ∧ rest.contrastPending = 0#32 ∧ rest.threadState = 0#32 ∧ rest.busReady ∧
    rest.groupBudget 2 + 8 ≤ rest.budget ∧
    ({ at_ 0#2 .s1 with contrastPending := 1#32 } : State).contrastPending ≠ 0#32 ∧
    ({ rest with contrastPending := 1#32 } : State).contrastPending ≠ 0#32 :=
  ⟨rfl, rfl, rfl, by decide, rfl, rfl, rest_busReady, by decide, by decide, by decide⟩

theorem witness_EnablePaths :
    rest.hostWork = [] ∧ (at_ 0#2 .s1).threadState = 2#32 ∧ 1 ≤ rest.budget ∧ rest.threadState = 0#32 ∧
    rest.stepCode = 0#4 ∧ rest.busReady ∧ rest.groupBudget params.modeGray.length + 3 ≤ rest.budget :=
  ⟨rfl, rfl, by decide, rfl, rfl, rest_busReady, by decide⟩

theorem witness_DisablePaths :
    rest.hostWork = [] ∧ 2 ≤ rest.budget ∧ (at_ 0#2 .s1).threadState = 2#32 ∧ rest.threadState ≠ 2#32 ∧
    rest.threadState.toNat ≤ 3 ∧
    ({ rest with hostWork := disableTasks.drop 1 } : State).hostWork = disableTasks.drop 1 ∧ rest.threadState = 0#32 ∧
    rest.contrastPending = 0#32 ∧ rest.busReady ∧
    rest.groupBudget (params.modeMono.length + params.planeBytes + 2) + 24 ≤ rest.budget :=
  ⟨rfl, by decide, rfl, by decide, by decide, rfl, rfl, rfl, rest_busReady, by decide⟩

theorem witness_EnableThenDisable :
    paramsOk params = true ∧ rest.threadState = 0#32 ∧ rest.fn = 0#2 ∧ rest.stepCode = 0#4 ∧ rest.engWork = [] ∧
    rest.hostWork = [] ∧ rest.rxq = [] ∧ rest.contrastPending = 0#32 ∧ rest.pcon = deriveTriple rest.bright ∧
    rest.wcon = deriveTriple rest.bright ∧
    ({ rest with hostProg := [.enable, .disable], inputs := enableDisableTurns 300 } : State).inputs =
      enableDisableTurns 300 ++ [] ∧
    passBudget params + 3 * (params.modeGray.length + params.modeMono.length + params.planeBytes) + 40 ≤ 300 :=
  ⟨by decide, rfl, rfl, rfl, rfl, rfl, rfl, rfl, rfl, rfl, rfl, by decide⟩

theorem witness_EngineGroups :
    rest.engWork = [] ∧ rest.busReady ∧ rest.groupBudget 4 ≤ rest.budget ∧ rest.groupBudget params.planeBytes ≤ rest.budget ∧
    rest.groupBudget 2 ≤ rest.budget ∧ rest.groupBudget params.pcmdLen ≤ rest.budget :=
  ⟨rfl, rest_busReady, by decide, by decide, by decide, by decide⟩

theorem witness_HostGroups :
    rest.hostWork = [] ∧ rest.threadState = 0#32 ∧ rest.busReady ∧
    ({ rest with threadState := 1#32 } : State).stepCode = 0#4 ∧
    ({ rest with threadState := 1#32, stepCode := posCode .start } : State).stepCode ≠ 0#4 ∧
    ({ at_ 0#2 .s1 with threadState := 3#32 } : State).threadState = 3#32 ∧
    rest.groupBudget params.planeBytes ≤ rest.budget ∧ rest.groupBudget [0xA7#8].length ≤ rest.budget ∧
    rest.groupBudget 2 ≤ rest.budget ∧ rest.groupBudget params.modeGray.length ≤ rest.budget ∧
    rest.groupBudget params.modeMono.length ≤ rest.budget ∧ rest.groupBudget params.init.length ≤ rest.budget ∧
    (at_ 0#2 .s1).threadState = 2#32 :=
  ⟨rfl, rfl, rest_busReady, rfl, by decide, rfl, by decide, by decide, by decide, by decide, by decide, by decide, rfl⟩

theorem witness_StartUp :
    paramsOk params = true ∧ 3 * (params.init.length + params.modeMono.length) + 40 ≤ 46 := by decide

theorem witness_StepKeepsMemory :
    (onTurn .engine atStart).memoryOk ∧ (onTurn .engine rest).nested ∧
    (next? (step (onTurn .engine rest))).isSome = true := ⟨drawn_memoryOk rest rest_memoryOk rfl, rest_nested, by decide⟩

theorem witness_SafeStateGoesOn : paramsOk busy.cfg = true ∧ busy.safe := ⟨by decide, busy_safe⟩

/-- Reset with planes that are not zero. -/
theorem witness_ResetSafe :
    [Instr.enable, .draw [⟨.a, 19, 1#8⟩], .disable].all (ordinaryCall params) = true ∧ (drawn rest).cfg = params ∧
    (drawn rest).memoryOk ∧ (drawn rest).tick < 2 ^ params.tickBits ∧ (drawn rest).dl < 2 ^ params.tickBits :=
  ⟨by decide, rfl, drawn_memoryOk rest rest_memoryOk rfl, by decide, by decide⟩

theorem witness_ThreadStateCycle : (next? (step (onTurn .engine rest))).isSome = true := by decide

theorem onTurn_busy_safe (a : Agent) : (onTurn a busy).safe := busy_safe

/-- A step of the ENGINE from the boundary clears a flag. -/
theorem witness_BoundaryOnly :
    (onTurn .engine rest).safe ∧ (next? (step (onTurn .engine rest))).isSome = true ∧
    (({ onTurn .engine (at_ 2#2 .s9) with copyPending := 1#32 } : State).flag .copyPending ≠ 0#32 ∧
      (next? (step { onTurn .engine (at_ 2#2 .s9) with copyPending := 1#32 })).map (fun t => t.flag .copyPending) =
        some 0#32) := ⟨rest_safe, by decide, by decide, by decide⟩

/-- The engine's byte goes out. -/
theorem witness_SingleBusWriter :
    (onTurn .engine busy).safe ∧
    (next? (step (onTurn .engine busy))).map (fun t => t.trace.length) = some 20 ∧ busy.busOwner = .engine :=
  ⟨busy_safe, by decide, by decide⟩

/-- The engine Running, the HOST waiting for its BRIGHTNESS. -/
def dimming : State := { at_ 0#2 .check with contrastPending := 1#32, hostWork := requestWait .contrastPending }

theorem dimming_safe : dimming.safe := by
  refine ⟨⟨by decide, by decide, by decide⟩, ⟨by decide, ?_, by decide, by decide⟩, by decide⟩
  intro f hf
  cases f <;> first | exact absurd rfl hf | decide

/-- Each agent's turn, with the bus port its own and the other's, and with each flag set. -/
theorem witness_AgentRights :
    ((onTurn .engine busy).safe ∧ (next? (step (onTurn .engine busy))).isSome = true) ∧
    ((onTurn .engine rest).safe ∧ (next? (step (onTurn .engine rest))).isSome = true ∧ rest.busOwner = .host) ∧
    ((onTurn .host busy).safe ∧ (next? (step (onTurn .host busy))).isSome = true ∧ busy.busOwner = .engine ∧
      busy.pendingCmd ≠ 0#32 ∧ busy.threadState ≠ 0#32) ∧
    ((onTurn .host dimming).safe ∧ (next? (step (onTurn .host dimming))).isSome = true ∧
      dimming.contrastPending ≠ 0#32) :=
  ⟨⟨busy_safe, by decide⟩, ⟨rest_safe, by decide, by decide⟩, ⟨busy_safe, by decide, by decide, by decide, by decide⟩,
    ⟨dimming_safe, by decide, by decide⟩⟩

theorem witness_ReceivedBytesUnused :
    sameButReceived { rest with rxq := [1#8, 2#8] } { rest with rxq := [3#8, 4#8] } := ⟨rfl, rfl⟩

theorem witness_OuterCycleTrace :
    paramsOk params = true ∧ (at_ 0#2 .check).threadState = 2#32 ∧ (at_ 0#2 .check).fn = 0#2 ∧
    (at_ 0#2 .check).stepCode = posCode .check ∧ (at_ 0#2 .check).engWork = [] ∧ (at_ 0#2 .check).rxq = [] ∧
    ({ at_ 0#2 .check with inputs := cycleTurns params 200 } : State).inputs = cycleTurns params 200 ++ [] ∧
    passBudget params + 3 * (params.planeBytes + params.pcmdLen) + 40 ≤ 200 := by
  refine ⟨by decide, rfl, rfl, rfl, rfl, rfl, (List.append_nil _).symm, by decide⟩

theorem witness_WholeFrames :
    (onTurn .engine busy).safe ∧ (onTurn .engine busy).framesWhole ∧
    (next? (step (onTurn .engine busy))).isSome = true ∧ rest.framesWhole ∧ rest.hostWork = [] ∧ rest.engWork = [] :=
  ⟨busy_safe, ⟨by decide, by decide, by decide⟩, by decide, ⟨by decide, by decide, by decide⟩, rfl, rfl⟩

end Sys2Proof.Tests
end

/-! PROOF. What an engine turn begins or goes on with, and what a turn brings (O5). -/

namespace Sys2Proof.Machine

theorem legalThreadState_iff {v : Word} : legalThreadState v = true ↔ v.toNat ≤ 3 := by
  simp [legalThreadState]

/-- At rest, the ENGINE's turn is the operation SEQ encodes (R26). -/
theorem step_engine_begin {s : State} {i : Instr} {rest : List Byte} (hp : paramsOk s.cfg = true)
    (ha : s.nextTurn.agent = .engine) (hl : legalThreadState s.threadState = true) (hw : s.engWork = [])
    (hd : decode [s.seqByte] = .ok (i, rest)) : step s = exec i s.inTurn := by
  have hf : fetch s = .begin i s.inTurn := by simp [fetch, hp, ha, fetchEngine, hl, hw, hd]
  simp only [step, hf]

/-- With an operation in progress, the ENGINE's turn goes on with it (R2). -/
theorem step_engine_goOn {s : State} (hp : paramsOk s.cfg = true) (ha : s.nextTurn.agent = .engine)
    (hl : legalThreadState s.threadState = true) (hw : s.engWork ≠ []) :
    step s = go .engine s.nextTurn.budget s.inTurn := by
  have hs : s.inTurn.setWork .engine s.engWork = s.inTurn := by
    simpa only [State.work_engine, State.inTurn_engWork] using State.setWork_work s.inTurn .engine
  rw [step_engine_run hp ha hl (.inl ⟨hw, rfl⟩), hs]

/-- A listed turn is used up, and what it brings is in force (R32, R33, R98). -/
theorem State.inTurn_of_inputs {s : State} {t : Turn} {ts : List Turn} (h : s.inputs = t :: ts) :
    s.inTurn = { s with
      inputs := ts, tick := (s.tick + t.ticks) % 2 ^ s.cfg.tickBits, tnf := t.tnf, bsy := t.bsy
      rxq := s.rxq ++ t.rx, budget := t.budget, age := t.age } := by
  simp only [State.inTurn, State.takeTurn, State.nextTurn, h, State.beginTurn, tickAdd]

end Sys2Proof.Machine

namespace Sys2Proof.Proofs

open Sys2Proof.Machine

/-- Settles O5: the two cases of the ENGINE's turn, and the effect of a listed turn. -/
theorem engineTurn : Obligations.EngineTurn := by
  intro s hp ha hthread
  have hl := legalThreadState_iff.mpr hthread
  exact ⟨fun _ _ hw hd => step_engine_begin hp ha hl hw hd, step_engine_goOn hp ha hl,
    fun _ _ => State.inTurn_of_inputs⟩

end Sys2Proof.Proofs

/-! PROOF. A step from a safe state: the turn's agent starts in a safe state, the step answers a safe state, and what
each agent can have changed (O49, O52, O53, O55, O56, O57). -/

namespace Sys2Proof.Machine

/-! ### The beginning of a turn -/

/-- The ENGINE's turn from a safe state starts in a safe state, whichever operation it works on. -/
theorem safe_engineTurn {s : State} {w : List Task} (hs : s.safe) (hw : engineTurnWork s w) :
    (s.inTurn.setWork .engine w).safe := by
  have hs' := safe_inTurn hs
  rcases hw with ⟨-, rfl⟩ | ⟨hnil, i, hd, rfl⟩
  · rwa [← State.inTurn_engWork s, ← State.work_engine, State.setWork_work]
  · obtain ⟨j, hj, hsafe⟩ := begin_engine_safe hs' (by simpa using hnil)
    rw [State.inTurn_fn, State.inTurn_stepCode, hd] at hj
    cases hj
    exact hsafe

/-- The HOST's turn from a safe state starts in a safe state, whichever call it works on. -/
theorem safe_hostTurn {s : State} {prog : List Instr} {w : List Task} (hs : s.safe) (hw : hostTurnWork s prog w) :
    (s.hostTurn prog w).safe := by
  have hs' := safe_inTurn hs
  rcases hw with ⟨-, rfl, rfl⟩ | ⟨hnil, hprog, rfl, rfl⟩ | ⟨hnil, i, hprog, -, ht⟩
  · rwa [State.hostTurn_same]
  · rw [← hnil, ← hprog, State.hostTurn_same]
    exact hs'
  · obtain ⟨v, hv, hsafe⟩ := begin_host_safe hs' (by simpa using hnil) (by simpa using hprog)
    rw [ht] at hv
    cases hv
    exact hsafe

/-- In a safe state the ENGINE has something to work on: its position is one of R62. -/
theorem exists_engineTurnWork {s : State} (hs : s.safe) : ∃ w, engineTurnWork s w := by
  by_cases hnil : s.engWork = []
  · obtain ⟨i, hi, -⟩ := begin_engine_safe hs hnil
    exact ⟨_, .inr ⟨hnil, i, hi, rfl⟩⟩
  · exact ⟨_, .inl ⟨hnil, rfl⟩⟩

/-- In a safe state the HOST goes on, begins its next call, or has none. -/
theorem exists_hostTurnWork {s : State} (hs : s.safe) : ∃ prog w, hostTurnWork s prog w := by
  by_cases hnil : s.hostWork = []
  · cases hprog : s.hostProg with
    | nil => exact ⟨_, _, .inr (.inl ⟨hnil, hprog, rfl, rfl⟩)⟩
    | cons i prog =>
      obtain ⟨w, hw, -⟩ := begin_host_safe (safe_inTurn hs) (by simpa using hnil) (by simpa using hprog)
      have hcall : isHostCall i = true := by
        have hin := hs.2.2
        simp only [State.inRange, hprog, List.all_cons, ordinaryCall, Bool.and_eq_true] at hin
        exact hin.2.1.1
      exact ⟨_, _, .inr (.inr ⟨hnil, i, hprog, hcall, hw⟩)⟩
  · exact ⟨_, _, .inl ⟨hnil, rfl, rfl⟩⟩

@[simp] theorem State.busOwner_setWork (s : State) (a : Agent) (ts : List Task) :
    (s.setWork a ts).busOwner = s.busOwner := by simp [State.busOwner]

@[simp] theorem State.busOwner_inTurn (s : State) : s.inTurn.busOwner = s.busOwner := by simp [State.busOwner]

@[simp] theorem State.busOwner_hostTurn (s : State) (prog : List Instr) (w : List Task) :
    (s.hostTurn prog w).busOwner = s.busOwner := s.busOwner_inTurn

/-! ### Inversion and progress -/

/-- A step of the ENGINE from a safe state is a run of its actions from a safe state. -/
theorem step_engine_cases {s t : State} (hs : s.safe) (ha : s.nextTurn.agent = .engine) (h : step s = .next t) :
    ∃ w, (s.inTurn.setWork .engine w).safe ∧ go .engine s.nextTurn.budget (s.inTurn.setWork .engine w) = .next t := by
  obtain ⟨-, ⟨-, -, w, hw, hg⟩ | ⟨ha', -⟩⟩ := step_cases h
  · exact ⟨w, safe_engineTurn hs hw, hg⟩
  · rw [ha] at ha'
    cases ha'

/-- A step of the HOST from a safe state is a run of its actions from a safe state. -/
theorem step_host_cases {s t : State} (hs : s.safe) (ha : s.nextTurn.agent = .host) (h : step s = .next t) :
    ∃ prog w, (s.hostTurn prog w).safe ∧ go .host s.nextTurn.budget (s.hostTurn prog w) = .next t := by
  obtain ⟨-, ⟨ha', -⟩ | ⟨-, prog, w, hw, hg⟩⟩ := step_cases h
  · rw [ha] at ha'
    cases ha'
  · exact ⟨prog, w, safe_hostTurn hs hw, hg⟩

/-- R38, R180: a step from a safe state neither faults nor refuses, and keeps the state safe. -/
theorem step_safe {s : State} (hp : paramsOk s.cfg = true) (hs : s.safe) : ∃ t, step s = .next t ∧ t.safe := by
  cases ha : s.nextTurn.agent with
  | engine =>
    obtain ⟨w, hw⟩ := exists_engineTurnWork hs
    obtain ⟨t, ht, hsafe, -⟩ := go_engine_safe s.nextTurn.budget (safe_engineTurn hs hw)
    exact ⟨t, (step_engine_run hp ha (legalThreadState_of_safe hs) hw).trans ht, hsafe⟩
  | host =>
    obtain ⟨prog, w, hw⟩ := exists_hostTurnWork hs
    obtain ⟨t, ht, hsafe, -⟩ := go_host_safe s.nextTurn.budget (safe_hostTurn hs hw)
    exact ⟨t, (step_host_run hp ha hw).trans ht, hsafe⟩

/-! ### What a turn leaves alone -/

/-- A step of the ENGINE from a safe state leaves alone what a run of its actions does. -/
theorem step_engine_ran {s t : State} (hs : s.safe) (ha : s.nextTurn.agent = .engine) (h : step s = .next t) :
    EngineRan s t := by
  obtain ⟨w, hsafe, hg⟩ := step_engine_cases hs ha h
  obtain ⟨t', hg', -, r⟩ := go_engine_safe s.nextTurn.budget hsafe
  cases hg.symm.trans hg'
  -- the fields `EngineRan` speaks of are those of `s`, whether the turn is a listed input or a free value
  unfold State.inTurn State.takeTurn State.beginTurn at r
  cases hi : s.inputs <;> rw [hi] at r <;> exact { r with }

/-- A step of the HOST from a safe state leaves alone what a run of its actions does. -/
theorem step_host_ran {s t : State} (hs : s.safe) (ha : s.nextTurn.agent = .host) (h : step s = .next t) :
    HostRan s t := by
  obtain ⟨prog, w, hsafe, hg⟩ := step_host_cases hs ha h
  obtain ⟨t', hg', -, r, -⟩ := go_host_safe s.nextTurn.budget hsafe
  cases hg.symm.trans hg'
  have start : HostRan s (s.hostTurn prog w) := by constructor <;> simp [State.hostTurn]
  exact start.trans r

/-- The flags by which the HOST asks the ENGINE for something (R12, R38 (c)). -/
def isRequestFlag (f : Flag) : Prop := f = .copyPending ∨ f = .pendingCmd ∨ f = .contrastPending

/-- R38 (c): the ENGINE only clears request flags, and only in a turn that begins at the boundary. -/
theorem EngineRan.requestFlag {s t : State} (r : EngineRan s t) {f : Flag} (hf : isRequestFlag f) :
    t.flag f = s.flag f ∨ (t.flag f = 0#32 ∧ atBoundary s.fn s.stepCode = true) := by
  rcases hf with rfl | rfl | rfl
  · exact r.copyPending
  · exact r.pendingCmd
  · exact r.contrastPending

/-- R10: the HOST only sets request flags. -/
theorem HostRan.requestFlag {s t : State} (r : HostRan s t) {f : Flag} (hf : isRequestFlag f) :
    t.flag f = s.flag f ∨ t.flag f = 1#32 := by
  rcases hf with rfl | rfl | rfl
  · exact r.copyPending
  · exact r.pendingCmd
  · exact r.contrastPending

theorem atBoundary_iff {fn : BitVec 2} {st : BitVec 4} : atBoundary fn st = true ↔ fn = 2#2 ∧ st = posCode .s9 := by
  simp [atBoundary]

theorem passPlace_iff {fn : BitVec 2} {st : BitVec 4} :
    passPlace fn st = true ↔ (fn = 2#2 ∧ st = posCode .s9) ∨ st = posCode .start := by
  simp [passPlace, atBoundary_iff]

/-! ### THREAD_STATE -/

/-- An agent's actions leave THREAD_STATE alone or write the end of one of its own edges (R160). -/
theorem go_threadState {a : Agent} {n : Nat} {s t : State} (h : go a n s = .next t) :
    t.threadState = s.threadState ∨ ∃ old, legalEdge a old t.threadState = true := by
  refine go_keeps (P := fun u => u.threadState = s.threadState ∨ ∃ old, legalEdge a old u.threadState = true)
    ?_ n s t (.inl rfl) h
  intro u u' x ts _ hu hact
  rcases act_threadState hact with e | e
  · rwa [e, State.setWork_threadState]
  · exact .inr ⟨_, e⟩

/-- The edges of the ENGINE end in Running and Stopped. -/
theorem end_of_engineEdge {old new : Word} (h : legalEdge .engine old new = true) : new = running ∨ new = stopped := by
  simp only [legalEdge, Bool.or_eq_true, Bool.and_eq_true, beq_iff_eq] at h
  exact h.imp And.right And.right

/-- The edges of the HOST end in Starting and Stopping. -/
theorem end_of_hostEdge {old new : Word} (h : legalEdge .host old new = true) : new = starting ∨ new = stopping := by
  simp only [legalEdge, Bool.or_eq_true, Bool.and_eq_true, beq_iff_eq] at h
  exact h.imp And.right And.right

/-! ### The bus port -/

/-- Where the HOST owns the bus port the ENGINE has nothing to do (R100, R163). -/
theorem engWork_of_hostOwner {s : State} (hs : s.safe) (ho : s.busOwner = .host) : s.engWork = [] := by
  have idle : s.engineIdle = true → s.engWork = [] := fun h => by
    simp only [State.engineIdle, Bool.and_eq_true, beq_iff_eq] at h
    exact h.2
  rcases (phaseOk_iff s).1 hs.1.2.1 with ⟨-, h, -⟩ | ⟨hts, ⟨h, -⟩ | ⟨h, -⟩⟩ | ⟨hts, -⟩ | ⟨hts, -⟩
  · exact idle h
  · exact idle h
  · simp only [State.atStart, Bool.and_eq_true, beq_iff_eq] at h
    simp [State.busOwner, hts, h.2, starting, posCode] at ho
  · simp [State.busOwner, hts, running] at ho
  · simp [State.busOwner, hts, stopping] at ho

/-- Where the ENGINE owns the bus port the HOST is in the middle of no transfer group (R38 (f)). -/
theorem hostWork_noBus_of_engineOwner {s : State} (hs : s.safe) (ho : s.busOwner = .engine) :
    s.hostWork.all (fun t => !isBusTask t) = true := by
  have active : s.engineIdle = true → s.threadState ≠ stopped ∧ s.threadState ≠ starting := fun h => by
    simp only [State.engineIdle, Bool.and_eq_true, beq_iff_eq] at h
    constructor <;> intro hts <;> simp [State.busOwner, hts, h.1.2, stopped, starting] at ho
  rcases (phaseOk_iff s).1 hs.1.2.1 with ⟨hts, h, -⟩ | ⟨hts, ⟨h, -⟩ | ⟨-, hw⟩⟩ | ⟨-, -, hw | hw⟩ | ⟨-, -, hw⟩
  · exact absurd hts (active h).1
  · exact absurd hts (active h).2
  · rw [hw]; rfl
  · rw [hw]; rfl
  · exact noBus_of_activeWork hw
  · rw [hw]; rfl

/-- The bus, as an agent leaves it: DC, BI and the trace. -/
def State.sameBus (s t : State) : Prop := t.dc = s.dc ∧ t.bi = s.bi ∧ t.trace = s.trace

/-- An action that is no part of a transfer group leaves the bus alone. -/
theorem act_sameBus {a : Agent} {t : Task} {s s' : State} (ht : isBusTask t = false) (h : act a t s = .done s') :
    s.sameBus s' := by
  cases t with
  | drive | bytes | send | drain | idle => cases ht
  | flagWrite f v =>
    cases f <;> simp only [act, flagWriteAct] at h <;> (try split at h) <;> cases h <;> simp [State.sameBus]
  | _ =>
    simp only [act, emitAct, awaitAct, setDeadlineAct, setFnAct, gotoAct, announceAct, testRunAct, nextSubframeAct,
      spinAct, passAct, wordsAct, loadV1Act, loadV2Act, storeSfAct, pollPublishAct, pollContrastAct, pollCommandAct,
      pollContrastElseCommandAct, adoptAct, deriveAct, setBrightAct, fillPcmdAct, launchAct, drawByteAct, retAct] at h
    repeat' split at h
    all_goals cases h
    all_goals simp [State.sameBus]

/-- R38 (f): a turn of the HOST leaves the bus alone while the ENGINE owns it. -/
theorem go_host_sameBus {n : Nat} {s t : State} (hs : s.safe) (ho : s.busOwner = .engine)
    (h : go .host n s = .next t) : s.sameBus t := by
  refine (go_keeps (P := fun u => u.safe ∧ u.busOwner = .engine ∧ s.sameBus u) ?_ n s t ⟨hs, ho, rfl, rfl, rfl⟩ h).2.2
  rintro u u' x ts hw ⟨hsafe, howner, hdc, hbi, htr⟩ hact
  rcases act_host_safe hsafe hw with hwait | ⟨v, hv, hsafe', k⟩
  · rw [hact] at hwait
    cases hwait
  cases hact.symm.trans hv
  have hx : isBusTask x = false := by
    have hall := hostWork_noBus_of_engineOwner hsafe howner
    rw [State.work_host] at hw
    rw [hw, List.all_cons, Bool.and_eq_true, Bool.not_eq_true'] at hall
    exact hall.1
  have howner' : u'.busOwner = .engine := by
    cases ho' : u'.busOwner with
    | engine => rfl
    | host => exact (busOwner_of_host hact k ho').symm.trans howner
  obtain ⟨hdc', hbi', htr'⟩ := act_sameBus hx hact
  simp only [State.setWork_dc, State.setWork_bi, State.setWork_trace] at hdc' hbi' htr'
  exact ⟨hsafe', howner', hdc'.trans hdc, hbi'.trans hbi, htr'.trans htr⟩

/-! ### A HOST that waits for its request -/

/-- R129: the HOST that waits for its request makes no progress while the flag is set. -/
theorem go_host_requestWait {s : State} {f : Flag} (hw : s.hostWork = requestWait f) (hf : isRequestFlag f)
    (hset : s.flag f ≠ 0#32) (n : Nat) : go .host n s = .next s := by
  have hself : s.setWork .host (requestWait f) = s := by rw [← hw, ← State.work_host, State.setWork_work]
  have hwait : act .host (.spin f 0#32) (s.setWork .host [.ret .done]) = .wait := by
    rcases hf with rfl | rfl | rfl <;> exact if_neg hset
  have := go_wait hwait n
  rwa [show [Task.spin f 0#32, .ret .done] = requestWait f from rfl, hself] at this

/-- R54: a command or contrast request that stands has its blocked caller. -/
theorem hostWork_of_request {s : State} (hs : s.safe) {f : Flag} (hf : f = .pendingCmd ∨ f = .contrastPending)
    (hset : s.flag f ≠ 0#32) : s.hostWork = requestWait f := by
  have hrq := hs.1.2.2
  simp only [State.requestsOk, Bool.and_eq_true, Bool.or_eq_true, beq_iff_eq] at hrq
  rcases hf with rfl | rfl
  · exact hrq.1.resolve_left hset
  · exact hrq.2.resolve_left hset

/-- R54, R205: while a command or contrast request stands, a turn of the HOST changes nothing but what it brings. -/
theorem step_host_request {s t : State} (hs : s.safe) (ha : s.nextTurn.agent = .host) (h : step s = .next t) {f : Flag}
    (hf : f = .pendingCmd ∨ f = .contrastPending) (hset : s.flag f ≠ 0#32) : ∃ prog w, t = s.hostTurn prog w := by
  obtain ⟨prog, w, hsafe, hg⟩ := step_host_cases hs ha h
  have hset' : (s.hostTurn prog w).flag f ≠ 0#32 := by
    rwa [← State.inTurn_flag] at hset
  rw [go_host_requestWait (hostWork_of_request hsafe hf hset') (.inr hf) hset'] at hg
  cases hg
  exact ⟨prog, w, rfl⟩

/-! ### Steps and the bus -/

/-- A step changes no parameter (R35). -/
theorem step_cfg {s t : State} (h : step s = .next t) : t.cfg = s.cfg := by
  obtain ⟨-, ⟨-, -, w, -, hg⟩ | ⟨-, prog, w, -, hg⟩⟩ := step_cases h
  · exact (go_cfg hg).trans (by simp)
  · exact (go_cfg hg).trans s.inTurn_cfg

/-- The trace only grows, at its end (R56). -/
theorem step_trace {s t : State} (h : step s = .next t) : ∃ added, t.trace = s.trace ++ added := by
  obtain ⟨-, ⟨-, -, w, -, hg⟩ | ⟨-, prog, w, -, hg⟩⟩ := step_cases h
  · simpa using go_trace hg
  · simpa [State.hostTurn] using go_trace hg

/-- R38 (f): a step of the ENGINE leaves the bus alone while the HOST owns it. -/
theorem step_engine_sameBus {s t : State} (hs : s.safe) (ha : s.nextTurn.agent = .engine) (h : step s = .next t)
    (ho : s.busOwner = .host) : s.sameBus t := by
  obtain ⟨w, hsafe, hg⟩ := step_engine_cases hs ha h
  rw [go_rest_engine _ (engWork_of_hostOwner hsafe (by simpa using ho))] at hg
  cases hg
  simp [State.sameBus]

/-- R38 (f): a step of the HOST leaves the bus alone while the ENGINE owns it. -/
theorem step_host_sameBus {s t : State} (hs : s.safe) (ha : s.nextTurn.agent = .host) (h : step s = .next t)
    (ho : s.busOwner = .engine) : s.sameBus t := by
  obtain ⟨prog, w, hsafe, hg⟩ := step_host_cases hs ha h
  have := go_host_sameBus hsafe (by simpa using ho) hg
  simpa [State.sameBus, State.hostTurn] using this

/-- R163: what a step from a safe state adds to the trace is written by the owner of the bus port. -/
theorem trace_of_not_owner {s t : State} (hs : s.safe) (h : step s = .next t) (ho : s.nextTurn.agent ≠ s.busOwner) :
    t.trace = s.trace := by
  cases ha : s.nextTurn.agent <;> cases hb : s.busOwner
  · exact absurd (ha.trans hb.symm) ho
  · exact (step_host_sameBus hs ha h hb).2.2
  · exact (step_engine_sameBus hs ha h hb).2.2
  · exact absurd (ha.trans hb.symm) ho

/-! ### Reset -/

/-- R153: the start-up brightness is in the range of R24. -/
theorem keyBrightness_le (key : Option (List Char)) : keyBrightness key ≤ Config.brightMax := by
  have level : ∀ c b, configLevel c = some b → b ≤ 127 := by
    intro c b h
    unfold configLevel at h
    split at h <;> cases h <;> decide
  have parsed : ∀ line b, parseKey line = some b → b ≤ 127 := by
    intro line b h
    unfold parseKey at h
    split at h
    · split at h
      · exact level _ _ h
      · cases h
    · cases h
  unfold keyBrightness
  split
  · exact le_rfl
  · split
    · next h => exact parsed _ _ h
    · exact le_rfl

/-- The state after reset with the contents R36 leaves open, the calls and the turns to come as given. -/
def State.startFrom (p : Config.Params) (u : State) (prog : List Instr) (turns : List Turn) : State :=
  { State.resetFrom p u with hostProg := prog, inputs := turns }

theorem startFrom_memoryOk {p : Config.Params} {u : State} (prog : List Instr) (turns : List Turn) (hc : u.cfg = p)
    (hm : u.memoryOk) : (State.startFrom p u prog turns).memoryOk := by
  intro r
  have hr : (State.startFrom p u prog turns).region r = u.region r := by
    cases r with
    | sf k => fin_cases k <;> rfl
    | _ => rfl
  rw [hr, show (State.startFrom p u prog turns).cfg = u.cfg from hc.symm]
  exact hm r

theorem startFrom_safe {p : Config.Params} {u : State} {prog : List Instr} (turns : List Turn)
    (hprog : prog.all (ordinaryCall p) = true) (htick : u.tick < 2 ^ p.tickBits) (hdl : u.dl < 2 ^ p.tickBits) :
    (State.startFrom p u prog turns).safe := by
  refine ⟨⟨rfl, rfl, rfl⟩, ⟨keyBrightness_le _, fun f hf => ?_, htick, hdl⟩, hprog⟩
  cases f with
  | threadState => exact absurd rfl hf
  | _ => exact .inl rfl

theorem startFrom_framesWhole (p : Config.Params) (u : State) (prog : List Instr) (turns : List Turn) :
    (State.startFrom p u prog turns).framesWhole :=
  ⟨rfl, rfl, Nat.zero_mod _⟩

/-- The buffers nest at reset because log 1 sets them to 0 (R89). -/
theorem reset_nested : State.reset.nested := by
  intro i
  show (0#8 &&& ~~~0#8 : Byte) = 0#8 ∧ (0#8 &&& ~~~0#8 : Byte) = 0#8
  decide

end Sys2Proof.Machine

namespace Sys2Proof.Proofs

open Sys2Proof.Machine

/-- Settles O52: a turn starts in a safe state, and every action of its agent keeps it safe. -/
theorem safeStateGoesOn : Obligations.SafeStateGoesOn := fun _ hp hs => step_safe hp hs

/-- Settles O55: an ENGINE turn changes flags, buffers and WCON only at its places, a HOST turn only sets flags. -/
theorem boundaryOnly : Obligations.BoundaryOnly := by
  intro s t hs h
  cases ha : s.nextTurn.agent with
  | engine =>
    have r := step_engine_ran hs ha h
    refine ⟨fun f hf hset hclear => ?_, fun hsf => ?_, fun hw => ?_⟩
    · rcases r.requestFlag hf with e | ⟨-, hb⟩
      · exact absurd (e.symm.trans hclear) hset
      · exact ⟨rfl, atBoundary_iff.1 hb⟩
    · rcases r.sf with ⟨e0, e1, e2⟩ | hplace
      · simp [e0, e1, e2] at hsf
      · exact ⟨rfl, passPlace_iff.1 hplace⟩
    · exact .inl ⟨rfl, atBoundary_iff.1 (r.wcon.resolve_left hw)⟩
  | host =>
    have r := step_host_ran hs ha h
    refine ⟨fun f hf hset hclear => ?_, fun hsf => ?_, fun hw => ?_⟩
    · rcases r.requestFlag hf with e | e
      · exact absurd (e.symm.trans hclear) hset
      · rw [e] at hclear
        cases hclear
    · simp [r.sf0, r.sf1, r.sf2] at hsf
    · have hstop := r.wcon.resolve_left hw
      exact .inr ⟨rfl, by rw [hstop]; decide⟩

/-- Settles O56: the trace grows in every step, and not at all in a turn of an agent that does not own the bus. -/
theorem singleBusWriter : Obligations.SingleBusWriter := by
  intro s t h
  obtain ⟨added, hadded⟩ := step_trace h
  refine ⟨added, hadded, fun hs hne => ?_⟩
  by_contra ho
  rw [trace_of_not_owner hs h ho] at hadded
  exact hne (List.append_cancel_left (hadded.symm.trans (List.append_nil _).symm))

/-- Settles O57: the frame of each agent's turn, its writes of THREAD_STATE, the bus, and PCMD and PCON under their
flags. -/
theorem agentRights : Obligations.AgentRights := by
  intro s t h
  refine ⟨step_cfg h, fun hs ha => ?_, fun hs ha => ?_⟩
  · have r := step_engine_ran hs ha h
    obtain ⟨w, -, hg⟩ := step_engine_cases hs ha h
    have hts := (go_threadState hg).imp_right fun ⟨_, e⟩ => end_of_engineEdge e
    rw [State.setWork_threadState, State.inTurn_threadState] at hts
    exact ⟨r.planeA, r.planeB, r.pcmd, r.pcon, r.bright, r.invert, r.hostWork, r.hostProg, r.result,
      r.copyPending.imp_right And.left, r.pendingCmd.imp_right And.left, r.contrastPending.imp_right And.left, hts,
      step_engine_sameBus hs ha h⟩
  · have r := step_host_ran hs ha h
    obtain ⟨prog, w, -, hg⟩ := step_host_cases hs ha h
    have hts := (go_threadState hg).imp_right fun ⟨_, e⟩ => end_of_hostEdge e
    rw [show (s.hostTurn prog w).threadState = s.threadState from s.inTurn_threadState] at hts
    have hpcmd : s.pendingCmd ≠ 0#32 → t.pcmd = s.pcmd := fun hset => by
      obtain ⟨prog, w, rfl⟩ := step_host_request hs ha h (f := .pendingCmd) (.inl rfl) hset
      exact s.inTurn_pcmd
    have hpcon : s.contrastPending ≠ 0#32 → t.pcon = s.pcon := fun hset => by
      obtain ⟨prog, w, rfl⟩ := step_host_request hs ha h (f := .contrastPending) (.inr rfl) hset
      exact s.inTurn_pcon
    exact ⟨r.sf0, r.sf1, r.sf2, r.dl, r.wi, r.mask, r.v1, r.v2, r.engWork, r.pos, r.copyPending, r.pendingCmd,
      r.contrastPending, hts, hpcmd, hpcon, r.wcon.resolve_right, step_host_sameBus hs ha h⟩

/-- Settles O49: each row of R36 is a field of `State.resetWith`; the contrast bytes of brightness 127 are computed. -/
theorem resetValues : Obligations.ResetValues := by
  intro p
  have hwcon : p.configKey = none → (State.resetWith p).wcon = ⟨35#8, 85#8, 255#8⟩ := fun hk => by
    show deriveTriple (keyBrightness p.configKey) = _
    rw [hk]
    decide
  exact ⟨rfl, rfl, rfl, rfl, rfl, rfl, rfl, rfl, rfl, rfl, rfl, hwcon, rfl⟩

/-- Settles O53: reset with any contents meets the invariants, and State.reset is one such state. -/
theorem resetSafe : Obligations.ResetSafe := by
  refine ⟨fun p u prog turns hprog hc hm htick hdl => ?_, ?_, reset_nested, ?_, ?_⟩
  · exact ⟨startFrom_memoryOk prog turns hc hm, startFrom_safe turns hprog htick hdl,
      startFrom_framesWhole p u prog turns⟩
  · exact resetWith_memoryOk _
  · exact startFrom_safe (u := State.reset) (prog := []) [] rfl (by decide) (by decide)
  · exact startFrom_framesWhole Config.Params.default State.reset [] []

end Sys2Proof.Proofs

/-! PROOF. The memory: what every step keeps of it (O51), what the ENGINE sees of a plane (O28), and what DRAW writes
(O33). -/

namespace Sys2Proof.Machine

/-! ### Every step keeps the memory in order -/

/-- The regions in canonical form, inside their sizes, and the subframes nested (R41, R89). -/
def State.memoryInOrder (s : State) : Prop := s.memoryOk ∧ s.nested

/-- Only the parameters and the regions count. -/
theorem State.memoryInOrder.congr {s u : State} (h : s.memoryInOrder) (hc : u.cfg = s.cfg)
    (hr : ∀ r, u.region r = s.region r) : u.memoryInOrder := by
  obtain ⟨hm, hn⟩ := h
  refine ⟨fun r => ?_, fun i => ?_⟩
  · rw [hc, hr]
    exact hm r
  · simp only [State.byteAt, hr]
    exact hn i

theorem step_memoryInOrder {s t : State} (h : s.memoryInOrder) (ht : step s = .next t) : t.memoryInOrder := by
  refine step_keeps (P := State.memoryInOrder) (fun s a w h => ?_) (fun s h => ?_) (fun s prog w h => ?_)
    (fun s s' a x h hx => ?_) s t h ht
  · exact h.congr (by simp) (region_setWork s a w)
  · exact h.congr s.inTurn_cfg s.inTurn_region
  · exact h.congr s.inTurn_cfg (region_hostTurn s prog w)
  · exact ⟨act_memoryOk h.1 hx, act_nested h.1 h.2 hx⟩

/-! ### What the ENGINE sees of a plane (R51, R203) -/

/-- A read of a flag keeps nothing of the record from the HOST's latest release of it on (R51 (c)). -/
theorem mem_newer_of_mem_acquireRaces {f : Flag} {newer older : List Race} {r : Race}
    (h : r ∈ acquireRaces f (newer ++ .released f :: older)) : r ∈ newer := by
  induction newer with
  | nil => simp [acquireRaces] at h
  | cons x newer ih =>
    rw [acquireRaces, List.cons_append, List.takeWhile_cons] at h
    split at h
    · rcases List.mem_cons.1 h with rfl | h
      · exact List.mem_cons_self
      · exact List.mem_cons_of_mem x (ih h)
    · cases h

/-- Where the record holds no draw, nothing is undone. -/
theorem rewind_of_noDraw (p : Plane) {l : List Race} (h : ∀ q off old, .drew q off old ∉ l) (n : Nat) (m : Memory) :
    rewind p l n m = m := by
  induction l with
  | nil => rfl
  | cons r l ih =>
    cases r with
    | drew q off old => exact absurd List.mem_cons_self (h q off old)
    | released f => exact ih fun q off old hl => h q off old (List.mem_cons_of_mem _ hl)

/-- Every byte of a plane with draws undone is the plane's or one that an undone draw replaced. -/
theorem read_rewind (p : Plane) (l : List Race) (n i : Nat) {m : Memory} (hm : Memory.wf m = true) :
    Memory.read (rewind p l n m) i = Memory.read m i ∨
      ∃ old, .drew p i old ∈ l ∧ Memory.read (rewind p l n m) i = old := by
  induction l generalizing n m with
  | nil => exact .inl rfl
  | cons r l ih =>
    have later {n : Nat} {m : Memory} : (∃ old, .drew p i old ∈ l ∧ Memory.read (rewind p l n m) i = old) →
        ∃ old, .drew p i old ∈ r :: l ∧ Memory.read (rewind p l n m) i = old :=
      fun ⟨old, hl, hold⟩ => ⟨old, List.mem_cons_of_mem r hl, hold⟩
    cases r with
    | released f => exact (ih n hm).imp_right later
    | drew q off old =>
      cases n with
      | zero => exact .inl rfl
      | succ n =>
        rw [rewind]
        by_cases hq : q = p
        · subst hq
          rw [if_pos rfl]
          rcases ih n (Memory.wf_write hm off old) with h | h
          · rw [Memory.read_write hm] at h
            split at h
            · next hi => exact .inr ⟨old, hi ▸ List.mem_cons_self, h⟩
            · exact .inl h
          · exact .inr (later h)
        · rw [if_neg hq]
          exact (ih n hm).imp_right later

/-! ### DRAW (R49) -/

@[simp] theorem regionSize_planeRegion (c : Config.Params) (p : Plane) :
    regionSize c (planeRegion p) = c.planeBytes := by
  cases p <;> rfl

/-- The state after one byte write of DRAW. -/
def State.writeDone (s : State) (w : PlaneWrite) : State :=
  { s.setRegion (planeRegion w.plane) (Memory.write (s.region (planeRegion w.plane)) w.off w.val) with
    races := .drew w.plane w.off (s.byteAt (planeRegion w.plane) w.off) :: s.races }

/-- The state after the byte writes of DRAW, in their order. -/
def State.writesDone (s : State) (ws : List PlaneWrite) : State := ws.foldl State.writeDone s

@[simp] theorem State.writeDone_cfg (s : State) (w : PlaneWrite) : (s.writeDone w).cfg = s.cfg :=
  s.setRegion_cfg _ _

theorem act_drawByte {w : PlaneWrite} {s : State} (h : w.off < s.cfg.planeBytes) (a : Agent) (ts : List Task) :
    act a (.drawByte w) (s.setWork a ts) = .done ((s.writeDone w).setWork a ts) := by
  have hin : inRegion (s.setWork a ts).cfg (planeRegion w.plane) w.off 1 = true := by
    simpa [inRegion] using h
  refine (if_pos hin).trans ?_
  rcases w with ⟨_ | _, off, val⟩ <;> cases a <;> rfl

theorem act_drawByte_outside {w : PlaneWrite} {s : State} (h : s.cfg.planeBytes ≤ w.off) (a : Agent) (ts : List Task) :
    act a (.drawByte w) (s.setWork a ts) = .fault (.outsideRegion (planeRegion w.plane) w.off) := by
  refine if_neg ?_
  simpa [inRegion] using Nat.lt_succ_of_le h

/-- Writes inside the planes are all done. -/
theorem go_draw (a : Agent) {ws : List PlaneWrite} {s : State} (h : ∀ w ∈ ws, w.off < s.cfg.planeBytes)
    (ts : List Task) (n : Nat) :
    go a (n + ws.length) (s.setWork a (ws.map .drawByte ++ ts)) = go a n ((s.writesDone ws).setWork a ts) := by
  induction ws generalizing s with
  | nil => rfl
  | cons w ws ih =>
    obtain ⟨hw, hws⟩ := List.forall_mem_cons.1 h
    exact (go_done (act_drawByte hw a _) _).trans (ih (by simpa using hws))

/-- The first write outside the planes stops the machine. -/
theorem go_draw_outside (a : Agent) {ws : List PlaneWrite} {s : State} (h : ∃ w ∈ ws, s.cfg.planeBytes ≤ w.off)
    (ts : List Task) {n : Nat} (hn : ws.length ≤ n) :
    ∃ r off, go a n (s.setWork a (ws.map .drawByte ++ ts)) = .fault (.outsideRegion r off) := by
  induction ws generalizing s n with
  | nil => simp at h
  | cons w ws ih =>
    obtain ⟨n, rfl⟩ : ∃ k, n = k + 1 := ⟨n - 1, by simp at hn; omega⟩
    rcases Nat.lt_or_ge w.off s.cfg.planeBytes with hw | hw
    · have hws : ∃ v ∈ ws, (s.writeDone w).cfg.planeBytes ≤ v.off := by
        simpa [Nat.not_le.2 hw] using h
      obtain ⟨r, off, hr⟩ := ih hws (Nat.le_of_succ_le_succ hn)
      exact ⟨r, off, (go_done (act_drawByte hw a _) n).trans hr⟩
    · exact ⟨_, _, go_fault (act_drawByte_outside hw a _) n⟩

/-- Nothing but the planes and the record of the draws changes. -/
theorem writesDone_frame (ws : List PlaneWrite) (s : State) :
    ∃ ma mb l, s.writesDone ws = { s with planeA := ma, planeB := mb, races := l } := by
  induction ws generalizing s with
  | nil => exact ⟨_, _, _, rfl⟩
  | cons w ws ih =>
    obtain ⟨ma, mb, l, h⟩ := ih (s.writeDone w)
    refine ⟨ma, mb, l, h.trans ?_⟩
    rcases w with ⟨_ | _, off, val⟩ <;> rfl

theorem writeDone_region (s : State) (w : PlaneWrite) (p : Plane) :
    (s.writeDone w).region (planeRegion p) =
      if w.plane = p then Memory.write (s.region (planeRegion p)) w.off w.val else s.region (planeRegion p) := by
  rcases w with ⟨_ | _, off, val⟩ <;> cases p <;> rfl

theorem writeDone_wf {s : State} {p : Plane} (h : Memory.wf (s.region (planeRegion p)) = true) (w : PlaneWrite) :
    Memory.wf ((s.writeDone w).region (planeRegion p)) = true := by
  rw [writeDone_region]
  split
  · exact Memory.wf_write h _ _
  · exact h

theorem writeDone_byteAt {s : State} {p : Plane} (h : Memory.wf (s.region (planeRegion p)) = true) (w : PlaneWrite)
    (i : Nat) : (s.writeDone w).byteAt (planeRegion p) i =
      if w.plane = p ∧ w.off = i then w.val else s.byteAt (planeRegion p) i := by
  rw [State.byteAt, writeDone_region]
  by_cases hp : w.plane = p
  · simp [hp, Memory.read_write h, eq_comm, State.byteAt]
  · simp [hp, State.byteAt]

/-- Every byte of a plane has the last value written to it, and its old one where there is none (R49). -/
theorem writesDone_byteAt (ws : List PlaneWrite) {s : State} {p : Plane}
    (h : Memory.wf (s.region (planeRegion p)) = true) (i : Nat) :
    (s.writesDone ws).byteAt (planeRegion p) i = (lastWrite p i ws).getD (s.byteAt (planeRegion p) i) := by
  induction ws generalizing s with
  | nil => rfl
  | cons w ws ih =>
    refine (ih (writeDone_wf h w)).trans ?_
    rw [writeDone_byteAt h, lastWrite]
    cases lastWrite p i ws with
    | some v => rfl
    | none => split <;> rfl

theorem exec_draw {s : State} (hw : s.hostWork = []) (ws : List PlaneWrite) :
    exec (.draw ws) s = go .host s.budget (s.setWork .host (ws.map .drawByte ++ [.ret .done])) :=
  performHost_next hw _

/-- DRAW of writes inside the planes comes to its writes and the result. -/
theorem exec_draw_inside {s : State} {ws : List PlaneWrite} (hw : s.hostWork = []) (hb : ws.length + 1 ≤ s.budget)
    (h : ∀ w ∈ ws, w.off < s.cfg.planeBytes) :
    exec (.draw ws) s = .next { s.writesDone ws with result := .done } := by
  obtain ⟨n, hn⟩ : ∃ n, s.budget = n + 1 + ws.length := ⟨s.budget - ws.length - 1, by omega⟩
  have hwork : (s.writesDone ws).hostWork = [] := by
    obtain ⟨ma, mb, l, e⟩ := writesDone_frame ws s
    rw [e]
    exact hw
  have hrest : (s.writesDone ws).setWork .host [] = s.writesDone ws := by
    simpa [hwork] using (s.writesDone ws).setWork_work .host
  rw [exec_draw hw, hn, go_draw .host h, go_done rfl, go_rest_host n rfl, hrest]

end Sys2Proof.Machine

namespace Sys2Proof.Proofs

open Sys2Proof.Machine

/-- Settles O51: every action keeps the memory in order, and so does what a turn changes before it. -/
theorem stepKeepsMemory : Obligations.StepKeepsMemory := fun _ _ hm hn h => step_memoryInOrder ⟨hm, hn⟩ h

/-- Settles O28: after the read the record holds no draw; without one, by induction over the record. -/
theorem planeReads : Obligations.PlaneReads := by
  refine fun s p => ⟨fun f newer older hraces hnone => ?_, fun hwf i => read_rewind p s.races s.age i hwf⟩
  refine rewind_of_noDraw p (fun q off old hmem => ?_) s.age (s.region (planeRegion p))
  rw [State.acquire, hraces] at hmem
  exact hnone q off old (mem_newer_of_mem_acquireRaces hmem)

/-- Settles O33: DRAW comes to its writes in order, or stops at the first one outside a plane. -/
theorem drawWrites : Obligations.DrawWrites := by
  refine fun ws s hw hm hb => ⟨fun hin => ?_, fun hout => ?_⟩
  · refine ⟨_, exec_draw_inside hw hb hin, writesDone_byteAt ws (p := .a) (hm _).1,
      writesDone_byteAt ws (p := .b) (hm _).1, ?_⟩
    obtain ⟨ma, mb, l, h⟩ := writesDone_frame ws s
    rw [h]
  · rw [exec_draw hw]
    exact go_draw_outside .host hout _ (Nat.le_of_succ_le hb)

end Sys2Proof.Proofs

/-! PROOF. The decoder and the encoder undo each other (O1, O2), and the words of the sequencer (O3). -/

namespace Sys2Proof

/-! ### Fields that were written are read back -/

theorem parsedThen_of_ok {α β : Type} {r : Parsed α} {a : α} {r1 : List Byte} (h : r = .ok (a, r1))
    (f : α → List Byte → Parsed β) : parsedThen r f = f a r1 := by
  rw [h]
  rfl

theorem parsedMap_of_ok {α β : Type} {r : Parsed α} {a : α} {rest : List Byte} (h : r = .ok (a, rest)) (f : α → β) :
    parsedMap f r = .ok (f a, rest) :=
  parsedThen_of_ok h _

theorem takeField_cons {α : Type} {f : Byte → Except DecodeError α} {b : Byte} {a : α} (h : f b = .ok a)
    (rest : List Byte) : takeField f (b :: rest) = .ok (a, rest) := by
  simp [takeField, takeByte, parsedThen, h]

@[simp] theorem boolOf_boolByte (v : Bool) : boolOf (boolByte v) = .ok v := by
  cases v <;> rfl

@[simp] theorem subframeOf_ofNat (k : Fin 3) : subframeOf (BitVec.ofNat 8 k.val) = .ok k := by
  have hk : k.val % 256 = k.val := Nat.mod_eq_of_lt (by omega)
  simp [subframeOf, hk]

/-- A 32-bit integer survives its two's-complement field. -/
theorem signed32_emod {v : Int} (hlo : -(2 ^ 31) ≤ v) (hhi : v < 2 ^ 31) : signed32 (v % 2 ^ 32).toNat = v := by
  unfold signed32
  split <;> omega

/-- A 32-bit field survives its reading as an integer. -/
theorem signed32_toNat {n : Nat} (h : n < 2 ^ 32) : (signed32 n % 2 ^ 32).toNat = n := by
  unfold signed32
  split <;> omega

/-! ### The first byte says which table is read -/

/-- A first byte from 64 on is a code of the model's own (log 6). -/
theorem decode_cons_code {b : Byte} (h : 64 ≤ b.toNat) (rest : List Byte) : decode (b :: rest) = decodeCode b rest :=
  if_neg (Nat.not_lt.2 h)

@[simp] theorem withSubframe_val (k : Fin 3) (f : Fin 3 → Instr) : withSubframe k.val f = .ok (f k) :=
  dif_pos k.isLt

/-- A position of the sequencer that carries a subframe index is read back from its code (R62). -/
theorem decode_seqCode {fn : Fin 3} {step : Nat} {i : Instr} (hs : step < 16) (hd : decodeSeq fn.val step = .ok i)
    (rest : List Byte) : decode (BitVec.ofNat 8 (seqCode fn step) :: rest) = .ok (i, rest) := by
  rw [seq_roundtrip fn step hs, hd]

/-- Decoding an encoded well-formed operation gives it back, whatever follows. -/
theorem decode_encode {p : Config.Params} {i : Instr} (h : i.wf p = true) (rest : List Byte) :
    decode (encode i ++ rest) = .ok (i, rest) := by
  cases i with
  | s1 fn | s2 fn | s3 fn | s4 fn | s5 fn | s6 fn | s7 fn | s8 fn | s9 fn | s10 fn =>
    exact decode_seqCode (by decide) (by exact withSubframe_val fn _) rest
  | sendCmd c => exact parsedMap_of_ok (takeString_stringBytes (of_decide_eq_true h) rest) _
  | directCmd c => exact parsedMap_of_ok (takeString_stringBytes (of_decide_eq_true h) rest) _
  | brightness v =>
    simp only [Instr.wf, Bool.and_eq_true, decide_eq_true_eq] at h
    have hfield := takeNat_leBytes (k := 4) (n := (v % 2 ^ 32).toNat) (by omega) rest
    refine (parsedMap_of_ok hfield fun n => Instr.brightness (signed32 n)).trans ?_
    rw [signed32_emod h.1 h.2]
  | invert v => exact parsedMap_of_ok (takeField_cons (boolOf_boolByte v) rest) _
  | draw ws =>
    simp only [Instr.wf, fitsLength, PlaneWrite.wf, Bool.and_eq_true, decide_eq_true_eq, List.all_eq_true] at h
    obtain ⟨hlen, hoff⟩ := h
    have hcount := takeNat_leBytes (k := 4) (n := ws.length) (by omega) (ws.flatMap writeBytes ++ rest)
    rw [← List.append_assoc] at hcount
    refine parsedMap_of_ok ((parsedThen_of_ok hcount takeWrites).trans ?_) _
    exact takeWrites_all (fun w hw => (hoff w hw).2) rest
  | sfgWord wi mask =>
    simp only [Instr.wf, Bool.and_eq_true, decide_eq_true_eq] at h
    have hmask := takeNat_leBytes (k := 4) (n := mask.toNat) (by omega) rest
    have hwi := takeNat_leBytes (k := 4) (n := wi) (by omega) (leBytes 4 mask.toNat ++ rest)
    rw [← List.append_assoc] at hwi
    refine (parsedThen_of_ok hwi fun wi r =>
      parsedMap (fun m => Instr.sfgWord wi (BitVec.ofNat 32 m)) (takeNat 4 r)).trans ?_
    rw [parsedMap_of_ok hmask, BitVec.ofNat_toNat, BitVec.setWidth_eq]
  | busGroup dc s =>
    have hdc := takeField_cons (boolOf_boolByte dc) (stringBytes s ++ rest)
    exact (parsedThen_of_ok hdc _).trans (parsedMap_of_ok (takeString_stringBytes (of_decide_eq_true h) rest) _)
  | waitUntil d =>
    simp only [Instr.wf, Bool.and_eq_true, decide_eq_true_eq] at h
    exact parsedMap_of_ok (takeNat_leBytes (k := 8) (by omega) rest) _
  | frame fn => exact parsedMap_of_ok (takeField_cons (subframeOf_ofNat fn) rest) _
  | contrast fn => exact parsedMap_of_ok (takeField_cons (subframeOf_ofNat fn) rest) _
  | _ => rfl

/-! ### Bytes that were read had been written -/

theorem ofNat_of_toNat_eq {b : Byte} {n : Nat} (h : b.toNat = n) : b = BitVec.ofNat 8 n := by
  rw [← h, BitVec.ofNat_toNat, BitVec.setWidth_eq]

/-- What the model's own code reads is the code and the operand fields of what it gives (log 6). -/
theorem decodeCode_ok {b : Byte} {bs rest : List Byte} {i : Instr} (h : decodeCode b bs = .ok (i, rest)) :
    b = BitVec.ofNat 8 (opcode i) ∧ bs = operandBytes i ++ rest := by
  unfold decodeCode at h
  -- the goals are numbered as the codes of `decodeCode`, in the order of the opcode table
  split at h <;> rename_i hb
  case h_6 | h_24 => -- SENDCMD and DIRECTCMD
    obtain ⟨c, hc, rfl⟩ := parsedMap_ok h
    exact ⟨ofNat_of_toNat_eq hb, takeString_ok hc⟩
  case h_7 => -- BRIGHTNESS
    obtain ⟨n, hn, rfl⟩ := parsedMap_ok h
    obtain ⟨rfl, hlt⟩ := takeNat_ok hn
    refine ⟨ofNat_of_toNat_eq hb, ?_⟩
    rw [operandBytes, signed32_toNat hlt]
  case h_8 => -- INVERT
    obtain ⟨v, hv, rfl⟩ := parsedMap_ok h
    obtain ⟨c, rfl, hc⟩ := takeField_ok hv
    exact ⟨ofNat_of_toNat_eq hb, congrArg (· :: rest) (boolOf_ok hc)⟩
  case h_9 => -- DRAW
    obtain ⟨ws, hfields, rfl⟩ := parsedMap_ok h
    obtain ⟨n, r, hn, hws⟩ := parsedThen_ok hfields
    obtain ⟨rfl, -⟩ := takeNat_ok hn
    obtain ⟨rfl, rfl⟩ := takeWrites_ok hws
    exact ⟨ofNat_of_toNat_eq hb, (List.append_assoc ..).symm⟩
  case h_14 => -- SFG.WORD
    obtain ⟨wi, r, hwi, h⟩ := parsedThen_ok h
    obtain ⟨m, hm, rfl⟩ := parsedMap_ok h
    obtain ⟨rfl, -⟩ := takeNat_ok hwi
    obtain ⟨rfl, hlt⟩ := takeNat_ok hm
    refine ⟨ofNat_of_toNat_eq hb, ?_⟩
    rw [operandBytes, BitVec.toNat_ofNat, Nat.mod_eq_of_lt (show m < 2 ^ 32 from hlt), List.append_assoc]
  case h_15 => -- BUS.GROUP
    obtain ⟨dc, r, hdc, h⟩ := parsedThen_ok h
    obtain ⟨s, hs, rfl⟩ := parsedMap_ok h
    obtain ⟨c, rfl, hc⟩ := takeField_ok hdc
    rw [boolOf_ok hc, takeString_ok hs]
    exact ⟨ofNat_of_toNat_eq hb, rfl⟩
  case h_16 => -- BUS.BYTE
    obtain ⟨c, hc, rfl⟩ := parsedMap_ok h
    exact ⟨ofNat_of_toNat_eq hb, takeByte_ok hc⟩
  case h_17 => -- WAIT.UNTIL
    obtain ⟨d, hd, rfl⟩ := parsedMap_ok h
    exact ⟨ofNat_of_toNat_eq hb, (takeNat_ok hd).1⟩
  case h_19 | h_20 => -- FRAME and CONTRAST
    obtain ⟨k, hk, rfl⟩ := parsedMap_ok h
    obtain ⟨c, rfl, hc⟩ := takeField_ok hk
    exact ⟨ofNat_of_toNat_eq hb, congrArg (· :: rest) (subframeOf_ok hc)⟩
  case h_29 => cases h -- no code
  -- the operations with no operand field
  all_goals
    cases h
    exact ⟨ofNat_of_toNat_eq hb, rfl⟩

/-- The bytes an operation is decoded from are its encoding. -/
theorem encode_of_decode {bs rest : List Byte} {i : Instr} (h : decode bs = .ok (i, rest)) : encode i ++ rest = bs := by
  cases bs with
  | nil => cases h
  | cons b bs =>
    by_cases hlt : b.toNat < 64
    · rw [decode, if_pos hlt] at h
      cases hd : decodeSeq (seqFn b.toNat) (seqStep b.toNat) with
      | ok j =>
        rw [hd] at h
        cases h
        rw [seq_ok hd]
        rfl
      | error e =>
        rw [hd] at h
        cases h
    · rw [decode_cons_code (Nat.not_lt.1 hlt)] at h
      obtain ⟨rfl, rfl⟩ := decodeCode_ok h
      rfl

end Sys2Proof

namespace Sys2Proof.Proofs

open Sys2Proof.Machine

/-- Settles O1: operation by operation, each field reads back what was written. -/
theorem decodeEncode : Obligations.DecodeEncode := fun _ _ rest h => decode_encode h rest

/-- Settles O2: SEQ below 64, the model's own code from there on; each field was written as it reads. -/
theorem encodeDecode : Obligations.EncodeDecode := fun _ _ _ h => encode_of_decode h

/-- Settles O3: each word is the encoding of its position, so it decodes to it. -/
theorem sequencerWords : Obligations.SequencerWords := by
  have word : ∀ i : Instr, i.wf Config.Params.default = true → decode (encode i ++ []) = .ok (i, []) :=
    fun _ h => decode_encode h []
  exact ⟨word .engIdle rfl, word .engStart rfl, word .engCheck rfl, word .engExit rfl, fun fn =>
    ⟨word (.s1 fn) rfl, word (.s2 fn) rfl, word (.s3 fn) rfl, word (.s4 fn) rfl, word (.s5 fn) rfl,
      word (.s6 fn) rfl, word (.s7 fn) rfl, word (.s8 fn) rfl, word (.s9 fn) rfl, word (.s10 fn) rfl⟩⟩

end Sys2Proof.Proofs

/-! PROOF. The ENGINE's turn at a code that encodes nothing (O4), and the HOST's turn (O6). -/

namespace Sys2Proof.Machine

/-! ### An engine turn that stops -/

/-- A THREAD_STATE above 3 gives the ENGINE no step (U3, log 11). -/
theorem step_engine_illegalThreadState {s : State} (hp : paramsOk s.cfg = true) (ha : s.nextTurn.agent = .engine)
    (hl : legalThreadState s.threadState = false) : step s = .fault (.illegalThreadState s.threadState) := by
  simp [step, fetch, hp, ha, fetchEngine, hl]

/-- A SEQ that is no position gives the ENGINE at rest no step (R74, U3, log 30). -/
theorem step_engine_illegalSequencer {s : State} {e : DecodeError} (hp : paramsOk s.cfg = true)
    (ha : s.nextTurn.agent = .engine) (hl : legalThreadState s.threadState = true) (hw : s.engWork = [])
    (hd : decodeSeq s.fn.toNat s.stepCode.toNat = .error e) : step s = .fault (.illegalSequencer e) := by
  have hdec : decode [s.seqByte] = .error e := by
    rw [decode_seqByte, hd]
  simp [step, fetch, hp, ha, fetchEngine, hl, hw, hdec]

/-- The codes R62 gives: IDLE, CHECK, START and EXIT with FN = 0, and S1 to S10 with FN 0, 1 or 2. -/
theorem position_of_decodeSeq {fn st : Nat} {i : Instr} (h : decodeSeq fn st = .ok i) :
    (fn = 0 ∧ (st = 0 ∨ 11 ≤ st ∧ st ≤ 13)) ∨ (fn < 3 ∧ 1 ≤ st ∧ st ≤ 10) := by
  unfold decodeSeq withFnZero withSubframe at h
  split at h <;> (try split at h) <;> cases h <;> omega

/-- At a code R62 leaves unused the ENGINE's turn stops with the fault illegalSequencer. -/
theorem step_engine_unusedCode {s : State} (hp : paramsOk s.cfg = true) (ha : s.nextTurn.agent = .engine)
    (hl : legalThreadState s.threadState = true) (hw : s.engWork = [])
    (hu : ¬ ((s.fn.toNat = 0 ∧ (s.stepCode.toNat = 0 ∨ 11 ≤ s.stepCode.toNat ∧ s.stepCode.toNat ≤ 13)) ∨
      (s.fn.toNat < 3 ∧ 1 ≤ s.stepCode.toNat ∧ s.stepCode.toNat ≤ 10))) :
    ∃ e, step s = .fault (.illegalSequencer e) := by
  cases hd : decodeSeq s.fn.toNat s.stepCode.toNat with
  | ok i => exact absurd (position_of_decodeSeq hd) hu
  | error e => exact ⟨e, step_engine_illegalSequencer hp ha hl hw hd⟩

/-! ### The HOST's turn -/

/-- At rest, the HOST's turn is its next call, when that is an operation of its own (R61). -/
theorem step_host_begin {s : State} {i : Instr} {rest : List Instr} (hp : paramsOk s.cfg = true)
    (ha : s.nextTurn.agent = .host) (hw : s.hostWork = []) (hprog : s.hostProg = i :: rest)
    (hc : isHostCall i = true) : step s = exec i { s.inTurn with hostProg := rest } := by
  simp [step, fetch, hp, ha, fetchHost, hw, hprog, hc]

/-- A call of any other operation is refused (log 15). -/
theorem step_host_alien {s : State} {i : Instr} {rest : List Instr} (hp : paramsOk s.cfg = true)
    (ha : s.nextTurn.agent = .host) (hw : s.hostWork = []) (hprog : s.hostProg = i :: rest)
    (hc : isHostCall i = false) : step s = .refused (.notAHostOperation i) := by
  simp [step, fetch, hp, ha, fetchHost, hw, hprog, hc]

/-- With an operation in progress, the HOST's turn goes on with it (R162). -/
theorem step_host_goOn {s : State} (hp : paramsOk s.cfg = true) (ha : s.nextTurn.agent = .host)
    (hw : s.hostWork ≠ []) : step s = go .host s.nextTurn.budget s.inTurn := by
  rw [step_host_run hp ha (.inl ⟨hw, rfl, rfl⟩), State.hostTurn_same]

/-- With no call to come, a turn of the HOST at rest only brings what the turn brings. -/
theorem step_host_rest {s : State} (hp : paramsOk s.cfg = true) (ha : s.nextTurn.agent = .host)
    (hw : s.hostWork = []) (hprog : s.hostProg = []) : step s = .next s.inTurn := by
  simp [step, fetch, hp, ha, fetchHost, hw, hprog]

end Sys2Proof.Machine

namespace Sys2Proof.Proofs

open Sys2Proof.Machine

/-- Settles O4: the ENGINE has no step in a THREAD_STATE above 3, nor at a code that R62 does not give. -/
theorem reservedStatesFault : Obligations.ReservedStatesFault := by
  intro s hp ha
  refine ⟨fun hthread => ?_, fun hthread hw => ?_⟩
  · exact step_engine_illegalThreadState hp ha (by simpa [legalThreadState] using hthread)
  · have stops := step_engine_unusedCode hp ha (legalThreadState_iff.2 hthread) hw
    exact ⟨fun hst => stops (by omega), fun hfn => stops (by bv_omega), fun hfn hst => stops (by bv_omega)⟩

/-- Settles O6: the four cases of the HOST's turn. -/
theorem hostTurn : Obligations.HostTurn := fun _ hp ha =>
  ⟨fun _ _ => step_host_begin hp ha, fun _ _ => step_host_alien hp ha, step_host_goOn hp ha, step_host_rest hp ha⟩

end Sys2Proof.Proofs

/-! PROOF. Lists of actions run to their end, and the transfer groups on their own (O47, O48). -/

namespace Sys2Proof.Machine

/-! ### Lists of actions run to their end -/

/-- The actions `w` take `s` to `t`: agent `a` performs at most `c` actions, whatever it has to do after them. -/
def Runs (a : Agent) (c : Nat) (s t : State) (w : List Task) : Prop :=
  ∃ d ≤ c, ∀ ts n, go a (n + d) (s.setWork a (w ++ ts)) = go a n (t.setWork a ts)

/-- One list of actions after another. -/
theorem Runs.append {a : Agent} {c d : Nat} {s t u : State} {v w : List Task} (hv : Runs a c s t v)
    (hw : Runs a d t u w) : Runs a (c + d) s u (v ++ w) := by
  obtain ⟨c', hc, hgo⟩ := hv
  obtain ⟨d', hd, hgo'⟩ := hw
  refine ⟨c' + d', Nat.add_le_add hc hd, fun ts n => ?_⟩
  rw [List.append_assoc, Nat.add_comm c', ← Nat.add_assoc, hgo, hgo']

theorem Runs.mono {a : Agent} {c d : Nat} {s t : State} {w : List Task} (h : Runs a c s t w) (hd : c ≤ d) :
    Runs a d s t w := by
  obtain ⟨e, he, hgo⟩ := h
  exact ⟨e, he.trans hd, hgo⟩

/-- An action that is done at once. -/
theorem Runs.done {a : Agent} {s t : State} {x : Task} (h : ∀ ts, act a x (s.setWork a ts) = .done (t.setWork a ts)) :
    Runs a 1 s t [x] :=
  ⟨1, le_rfl, fun ts n => go_done (h ts) n⟩

/-- An action that is done and puts others in its place. -/
theorem Runs.push {a : Agent} {c : Nat} {s t u : State} {x : Task} {w : List Task}
    (h : ∀ ts, act a x (s.setWork a ts) = .done (t.setWork a (w ++ ts))) (hw : Runs a c t u w) :
    Runs a (c + 1) s u [x] := by
  obtain ⟨d, hd, hgo⟩ := hw
  refine ⟨d + 1, Nat.succ_le_succ hd, fun ts n => ?_⟩
  rw [← Nat.add_assoc]
  exact (go_done (h ts) _).trans (hgo ts n)

/-- The group of an `emit` action (R96). -/
theorem Runs.emit {a : Agent} {s : State} (hm : s.mayDriveBus a = true) (hb : s.busReady) (g : Group) :
    Runs a (3 * (groupBytes s g).length + s.rxq.length + 5) s (s.sent (groupDc g) (groupBytes s g)) [.emit g] :=
  ⟨_, le_rfl, fun ts n => go_emit hm hb g ts n⟩

/-- With a budget that covers them, the actions come to their end. -/
theorem Runs.go_eq {a : Agent} {c n : Nat} {s t : State} {w : List Task} (h : Runs a c s t w) (hn : c ≤ n) :
    go a n (s.setWork a w) = .next (t.setWork a []) := by
  obtain ⟨d, hd, hgo⟩ := h
  have hrun := hgo [] (n - d)
  rwa [List.append_nil, Nat.sub_add_cancel (hd.trans hn), go_setWork_nil] at hrun

/-! ### A group on its own -/

theorem State.setWork_nil {s : State} {a : Agent} (h : s.work a = []) : s.setWork a [] = s := by
  rw [← h, State.setWork_work]

/-- A group begun on its own is put on the trace (R96). -/
theorem perform_emit {a : Agent} {s : State} (hw : s.work a = []) (hm : s.mayDriveBus a = true) (hb : s.busReady)
    {g : Group} (hn : s.groupBudget (groupBytes s g).length ≤ s.budget) :
    perform a [.emit g] s = .next (s.sent (groupDc g) (groupBytes s g)) := by
  have hsent : (s.sent (groupDc g) (groupBytes s g)).work a = [] := by
    cases a <;> exact hw
  rw [perform_rest hw, (Runs.emit hm hb g).go_eq (Nat.le_of_succ_le hn), State.setWork_nil hsent]

/-- Who owns the bus port (R38 (f), R163; log 29). -/
theorem State.busOwner_eq_engine_iff {s : State} :
    s.busOwner = .engine ↔
      s.threadState = 2#32 ∨ s.threadState = 3#32 ∨ (s.threadState = 1#32 ∧ s.stepCode ≠ 0#4) := by
  unfold State.busOwner
  split
  · next h => exact iff_of_true rfl h
  · next h => exact iff_of_false (by decide) h

/-- A group of the HOST's while it owns the port (R69, R70). -/
theorem performHost_group {s : State} (hw : s.hostWork = []) (ho : s.busOwner ≠ .engine) (hb : s.busReady) {g : Group}
    (hn : s.groupBudget (groupBytes s g).length ≤ s.budget) :
    performHost (hostGroup g s) s = .next (s.sent (groupDc g) (groupBytes s g)) := by
  have hhost : s.busOwner = .host := by
    cases h : s.busOwner with
    | host => rfl
    | engine => exact absurd h ho
  have hm : s.mayDriveBus .host = true := by
    simp [State.mayDriveBus, hhost]
  rw [hostGroup, if_pos hhost, ← perform_emit (a := .host) hw hm hb hn]
  simp only [performHost, hw]

/-- A group of the HOST's while the ENGINE owns the port (R180, R208; log 14). -/
theorem performHost_group_refused {s : State} (hw : s.hostWork = []) (ho : s.busOwner = .engine) (g : Group) :
    performHost (hostGroup g s) s = .refused .ownership := by
  simp [performHost, hw, hostGroup, ho]

end Sys2Proof.Machine

namespace Sys2Proof.Proofs

open Sys2Proof.Machine

/-- Settles O47: each is the one action that emits its group, by the ENGINE. -/
theorem engineGroups : Obligations.EngineGroups := by
  intro s hw hb
  have emits : ∀ g n, (groupBytes s g).length = n → s.groupBudget n ≤ s.budget →
      perform .engine [.emit g] s = .next (s.sent (groupDc g) (groupBytes s g)) :=
    fun g n hlen hn => perform_emit (a := .engine) hw rfl hb (hlen ▸ hn)
  exact ⟨fun hn => ⟨emits .park 4 rfl hn, emits .restore 4 rfl hn⟩,
    fun hn k => emits (.frame k) _ (Memory.length_bytes _ _) hn, fun hn k => emits (.contrast k) 2 rfl hn,
    fun hn => emits .inject _ (Memory.length_bytes _ _) hn⟩

/-- Settles O48: each is the one action that emits its group, by the HOST, if the port is its own. -/
theorem hostGroups : Obligations.HostGroups := by
  refine fun c s hw => ⟨fun hno hb => ?_, fun hown => ?_⟩
  · have emits : ∀ g n, (groupBytes s g).length = n → s.groupBudget n ≤ s.budget →
        performHost (hostGroup g s) s = .next (s.sent (groupDc g) (groupBytes s g)) :=
      fun g n hlen hn => performHost_group hw (mt State.busOwner_eq_engine_iff.1 hno) hb (hlen ▸ hn)
    exact ⟨emits .monoFrame _ (Memory.length_bytes _ _), emits (.directCmd c) _ rfl, emits .monoContrast 2 rfl,
      emits .modeGray _ rfl, emits .modeMono _ rfl, emits .init _ rfl⟩
  · have refused := performHost_group_refused hw (State.busOwner_eq_engine_iff.2 hown)
    exact ⟨refused .monoFrame, refused (.directCmd c), refused .monoContrast, refused .modeGray, refused .modeMono,
      refused .init⟩

end Sys2Proof.Proofs

/-! PROOF. An outer cycle of the running ENGINE: what SERVICE does, what each position's turn does, and the bus trace
of the whole (O59). -/

namespace Sys2Proof.Machine

/-! ### SERVICE (R130 to R133) -/

/-- What SERVICE leaves alone, and what it puts on the trace. -/
structure Serves (s t : State) (out : List BusEntry) : Prop where
  cfg : t.cfg = s.cfg
  threadState : t.threadState = s.threadState
  fn : t.fn = s.fn
  stepCode : t.stepCode = s.stepCode
  pcmd : t.pcmd = s.pcmd
  dl : t.dl = s.dl
  tick : t.tick = s.tick
  tnf : t.tnf = s.tnf
  bsy : t.bsy = s.bsy
  inputs : t.inputs = s.inputs
  rxq : s.rxq = [] → t.rxq = []
  trace : t.trace = s.trace ++ out

theorem Serves.trans {s t u : State} {x y : List BusEntry} (h : Serves s t x) (k : Serves t u y) :
    Serves s u (x ++ y) where
  cfg := k.cfg.trans h.cfg
  threadState := k.threadState.trans h.threadState
  fn := k.fn.trans h.fn
  stepCode := k.stepCode.trans h.stepCode
  pcmd := k.pcmd.trans h.pcmd
  dl := k.dl.trans h.dl
  tick := k.tick.trans h.tick
  tnf := k.tnf.trans h.tnf
  bsy := k.bsy.trans h.bsy
  inputs := k.inputs.trans h.inputs
  rxq := k.rxq ∘ h.rxq
  trace := by rw [k.trace, h.trace, List.append_assoc]

theorem Serves.acquire (s : State) (f : Flag) : Serves s (s.acquire f) [] := by
  constructor <;> simp

/-- Clearing a request flag. -/
theorem Runs.clearFlag {f : Flag} (hf : f ≠ .threadState) (s : State) :
    Runs .engine 1 s (s.writeFlag .engine f 0#32) [.flagWrite f 0#32] := by
  cases f with
  | threadState => exact absurd rfl hf
  | _ => exact Runs.done fun _ => rfl

theorem Serves.writeFlag {f : Flag} (hf : f ≠ .threadState) (s : State) (v : Word) :
    Serves s (s.writeFlag .engine f v) [] := by
  cases f with
  | threadState => exact absurd rfl hf
  | _ => constructor <;> simp [State.writeFlag, State.setFlag]

/-- A pass as a run of its actions (R88). -/
theorem Runs.pass (s : State) : Runs .engine (4 * s.cfg.planeWords + 2) s s.passDone [.pass] :=
  ⟨_, le_rfl, fun ts n => go_pass .engine s ts n⟩

theorem Serves.passDone (s : State) : Serves s s.passDone [] := by
  obtain ⟨w, x, y, m0, m1, m2, h⟩ := passDone_frame s
  rw [h]
  constructor <;> simp

/-- WCON <- PCON (R132). -/
theorem Runs.adopt (s : State) : Runs .engine 3 s { s with wcon := s.pcon } [.adopt 0, .adopt 1, .adopt 2] := by
  have one : ∀ (u : State) k, Runs .engine 1 u { u with wcon := tripleSet u.wcon k (tripleGet u.pcon k) } [.adopt k] :=
    fun _ _ => .done fun _ => rfl
  exact ((one _ 0).append (one _ 1)).append (one _ 2)

/-- A poll of a request flag: the service `w` when it is set, nothing when it is not (R130). -/
theorem Runs.poll {f : Flag} {x : Task} {w : List Task} {c : Nat} {s u : State}
    (hx : ∀ v, act .engine x v = if v.flag f = 0#32 then .done (v.acquire f) else .done ((v.acquire f).push .engine w))
    (hw : Runs .engine c (s.acquire f) u w) :
    Runs .engine (c + 1) s (if s.flag f = 0#32 then s.acquire f else u) [x] := by
  have hflag : ∀ ts, (s.setWork .engine ts).flag f = s.flag f := fun _ => by cases f <;> rfl
  split
  · next hclear =>
    refine (Runs.done fun ts => ?_).mono (Nat.le_add_left 1 c)
    rw [hx, hflag, if_pos hclear]
    rfl
  · next hset =>
    refine .push (fun ts => ?_) hw
    rw [hx, hflag, if_neg hset]
    rfl

/-- The poll of COPY_PENDING (R131). -/
theorem runs_pollPublish (s : State) : ∃ t, Runs .engine (4 * s.cfg.planeWords + 4) s t [.pollPublish] ∧
    Serves s t [] ∧ t.pendingCmd = s.pendingCmd ∧ t.contrastPending = s.contrastPending := by
  have hf : Flag.copyPending ≠ .threadState := by decide
  refine ⟨_, .poll (fun _ => rfl) ((Runs.pass (s.acquire .copyPending)).append (.clearFlag hf _)), ?_⟩
  split
  · exact ⟨.acquire s _, rfl, rfl⟩
  · refine ⟨((Serves.acquire s _).trans (.passDone _)).trans (.writeFlag hf _ _), ?_⟩
    obtain ⟨w, x, y, m0, m1, m2, h⟩ := passDone_frame (s.acquire .copyPending)
    rw [h]
    exact ⟨rfl, rfl⟩

/-- SVC.CONTRAST (R132). -/
theorem runs_svcContrast (s : State) : ∃ t, Runs .engine 4 s t svcContrastTasks ∧ Serves s t [] ∧
    t.pendingCmd = s.pendingCmd := by
  have hf : Flag.contrastPending ≠ .threadState := by decide
  refine ⟨_, (Runs.adopt s).append (.clearFlag hf _), Serves.trans (x := []) ?_ (.writeFlag hf _ _), rfl⟩
  constructor <;> simp

/-- The poll of CONTRAST_PENDING (R132). -/
theorem runs_pollContrast (s : State) : ∃ t, Runs .engine 5 s t [.pollContrast] ∧ Serves s t [] ∧
    t.pendingCmd = s.pendingCmd := by
  obtain ⟨u, hr, hu, hp⟩ := runs_svcContrast (s.acquire .contrastPending)
  refine ⟨_, .poll (fun _ => rfl) hr, ?_⟩
  split
  · exact ⟨.acquire s _, rfl⟩
  · exact ⟨(Serves.acquire s _).trans hu, hp⟩

/-- SVC.COMMAND (R133) with a ready transmitter and an empty receiver. -/
theorem runs_svcCommand {s : State} (hb : s.busReady) (hr : s.rxq = []) : ∃ t,
    Runs .engine (3 * s.cfg.pcmdLen + 6) s t svcCommandTasks ∧
    Serves s t (traceOf false (Memory.bytes s.pcmd s.cfg.pcmdLen)) := by
  have hf : Flag.pendingCmd ≠ .threadState := by decide
  have hemit := Runs.emit (a := .engine) rfl hb .inject
  simp only [groupBytes, Memory.length_bytes, hr, List.length_nil] at hemit
  refine ⟨_, hemit.append (.clearFlag hf _), ?_⟩
  rw [← List.append_nil (traceOf _ _)]
  refine Serves.trans ?_ (.writeFlag hf _ _)
  constructor <;> simp [State.sent, groupDc]

/-- The poll of PENDING_CMD (R133) with a ready transmitter and an empty receiver. -/
theorem runs_pollCommand {s : State} (hb : s.busReady) (hr : s.rxq = []) : ∃ t,
    Runs .engine (3 * s.cfg.pcmdLen + 7) s t [.pollCommand] ∧
    Serves s t (if s.pendingCmd = 0#32 then [] else traceOf false (Memory.bytes s.pcmd s.cfg.pcmdLen)) := by
  obtain ⟨u, hrun, hu⟩ := runs_svcCommand (s := s.acquire .pendingCmd) hb hr
  refine ⟨if s.pendingCmd = 0#32 then s.acquire .pendingCmd else u, .poll (fun _ => rfl) hrun, ?_⟩
  split
  · exact .acquire s _
  · exact (Serves.acquire s _).trans hu

/-- The branch of CONTRAST_OR_COMMAND: the command channel only when no contrast update is pending (R130). -/
theorem runs_pollContrastElseCommand {s : State} (hb : s.busReady) (hr : s.rxq = []) : ∃ t,
    Runs .engine (3 * s.cfg.pcmdLen + 8) s t [.pollContrastElseCommand] ∧
    Serves s t (if s.contrastPending = 0#32 ∧ s.pendingCmd ≠ 0#32 then
      traceOf false (Memory.bytes s.pcmd s.cfg.pcmdLen) else []) := by
  have hacq := Serves.acquire s .contrastPending
  by_cases hf : s.contrastPending = 0#32
  · obtain ⟨t, hrun, ht⟩ := runs_pollCommand (s := s.acquire .contrastPending) hb hr
    refine ⟨t, .push (fun ts => ?_) hrun, ?_⟩
    · simp [act, pollContrastElseCommandAct, hf, State.push_eq]
      rfl
    · have hserves := hacq.trans ht
      by_cases hp : s.pendingCmd = 0#32 <;> simpa [hf, hp] using hserves
  · obtain ⟨t, hrun, ht, -⟩ := runs_svcContrast (s.acquire .contrastPending)
    refine ⟨t, (Runs.push (fun ts => ?_) hrun).mono (by omega), ?_⟩
    · simp [act, pollContrastElseCommandAct, hf, State.push_eq]
      rfl
    · simpa [hf] using hacq.trans ht

/-- What the command channel adds to the trace at the boundary (R130, R133). -/
def State.injects (s : State) (out : List BusEntry) : Prop :=
  (s.commandServed → out = traceOf false (groupBytes s .inject)) ∧ (¬ s.commandServed → out = [])

/-- SERVICE under both policies (R130), with a ready transmitter and an empty receiver. -/
theorem runs_service {s : State} (hb : s.busReady) (hr : s.rxq = []) : ∃ t out,
    Runs .engine (4 * s.cfg.planeWords + 3 * s.cfg.pcmdLen + 16) s t (serviceTasks s.cfg.policy) ∧
    Serves s t out ∧ s.injects out := by
  obtain ⟨u, hrun, hu, hcmd, hcon⟩ := runs_pollPublish s
  have hub : u.busReady := ⟨hu.tnf.trans hb.1, hu.bsy.trans hb.2⟩
  cases hp : s.cfg.policy with
  | allInOrder =>
    obtain ⟨v, hrun', hv, hcmd'⟩ := runs_pollContrast u
    have hvb : v.busReady := ⟨hv.tnf.trans hub.1, hv.bsy.trans hub.2⟩
    obtain ⟨t, hrun'', ht⟩ := runs_pollCommand hvb (hv.rxq (hu.rxq hr))
    have huv := hu.trans hv
    refine ⟨t, _, ((hrun.append hrun').append hrun'').mono ?_, huv.trans ht, ?_⟩
    · rw [huv.cfg]
      omega
    · have hserved : s.commandServed ↔ s.pendingCmd ≠ 0#32 := by
        simp [State.commandServed, hp]
      rw [hcmd', hcmd, huv.pcmd, huv.cfg]
      exact ⟨fun h => if_neg (hserved.1 h), fun h => if_pos (not_not.1 (mt hserved.2 h))⟩
  | contrastOrCommand =>
    obtain ⟨t, hrun', ht⟩ := runs_pollContrastElseCommand hub (hu.rxq hr)
    refine ⟨t, _, (hrun.append hrun').mono ?_, hu.trans ht, ?_⟩
    · rw [hu.cfg]
      omega
    · have hserved : s.commandServed ↔ s.contrastPending = 0#32 ∧ s.pendingCmd ≠ 0#32 := by
        simp [State.commandServed, hp, and_comm]
      rw [hcmd, hcon, hu.pcmd, hu.cfg]
      exact ⟨fun h => if_pos (hserved.1 h), fun h => if_neg (mt hserved.2 h)⟩

/-! ### A position of the running ENGINE -/

@[simp] theorem groupBytes_inTurn (s : State) (g : Group) : groupBytes s.inTurn g = groupBytes s g := by
  cases g <;> simp [groupBytes, State.subframe]

@[simp] theorem fnBits_toNat (k : Fin 3) : (fnBits k).toNat = k.val := by
  fin_cases k <;> rfl

/-- The ENGINE runs and is at rest at position `p` of subframe `k`, the receiver empty, the turns `ts` to come. -/
structure State.standsAt (s : State) (k : Fin 3) (p : Pos) (ts : List Turn) : Prop where
  params : paramsOk s.cfg = true
  threadState : s.threadState = running
  fn : s.fn = fnBits k
  stepCode : s.stepCode = posCode p
  engWork : s.engWork = []
  rxq : s.rxq = []
  inputs : s.inputs = ts

/-- The deadline is `d` ticks away. -/
def State.due (s : State) (d : Nat) : Prop := s.dl = tickAdd s.cfg s.tick d

section
variable {s : State} {k : Fin 3} {p : Pos} {n ticks : Nat} {ts : List Turn}

theorem State.standsAt.nextTurn (h : s.standsAt k p (engineTurn n ticks :: ts)) :
    s.nextTurn = engineTurn n ticks := by
  simp [State.nextTurn, h.inputs]

theorem State.standsAt.inTurn_inputs (h : s.standsAt k p (engineTurn n ticks :: ts)) : s.inTurn.inputs = ts := by
  rw [State.inTurn_of_inputs h.inputs]

theorem State.standsAt.inTurn_rxq (h : s.standsAt k p (engineTurn n ticks :: ts)) : s.inTurn.rxq = [] := by
  simp [h.nextTurn, h.rxq, engineTurn]

theorem State.standsAt.inTurn_busReady (h : s.standsAt k p (engineTurn n ticks :: ts)) : s.inTurn.busReady := by
  simp [State.busReady, h.nextTurn, engineTurn]

/-- A turn of the ENGINE at a position performs the operation of that position (R26, R62). -/
theorem step_position {t : State} {i : Instr} {c : Nat} (h : s.standsAt k p (engineTurn n ticks :: ts))
    (hd : decodeSeq k.val (posCode p).toNat = .ok i) (hr : Runs .engine c s.inTurn t (engineTasks s.inTurn i))
    (hc : c ≤ n) : step s = .next (t.setWork .engine []) := by
  have hthread : legalThreadState s.threadState = true := by
    rw [h.threadState]
    decide
  have hwork : engineTurnWork s (engineTasks s.inTurn i) :=
    .inr ⟨h.engWork, i, by rw [h.fn, h.stepCode, fnBits_toNat, hd], rfl⟩
  rw [step_engine_run h.params (by rw [h.nextTurn]; rfl) hthread hwork, h.nextTurn]
  exact hr.go_eq hc

end

/-! ### Runs of the machine -/

/-- A run after another. -/
theorem run_append {M : Host.Core} {m l : Nat} {s t u : M.State} (h : M.run m s = .next t) (h' : M.run l t = .next u) :
    M.run (m + l) s = .next u := by
  induction m generalizing s with
  | zero =>
    cases h
    rwa [Nat.zero_add]
  | succ m ih =>
    rw [Nat.succ_add]
    simp only [Host.Core.run] at h ⊢
    cases hs : M.step s with
    | next v =>
      rw [hs] at h
      exact ih h
    | fault f =>
      rw [hs] at h
      cases h
    | refused r =>
      rw [hs] at h
      cases h

theorem run_one {M : Host.Core} {s t : M.State} (h : M.step s = .next t) : M.run 1 s = .next t := by
  simp only [Host.Core.run, h]

/-! ### What the loop keeps between two boundaries -/

/-- What the actions of a turn inside the loop leave alone, and what they put on the trace. -/
structure Keeps (s t : State) (out : List BusEntry) : Prop where
  cfg : t.cfg = s.cfg
  threadState : t.threadState = s.threadState
  groups : ∀ g, groupBytes t g = groupBytes s g
  pendingCmd : t.pendingCmd = s.pendingCmd
  contrastPending : t.contrastPending = s.contrastPending
  tick : t.tick = s.tick
  inputs : t.inputs = s.inputs
  rxq : s.rxq = [] → t.rxq = []
  trace : t.trace = s.trace ++ out

/-- The sequencer's own registers. -/
theorem Keeps.registers (s : State) (f : BitVec 2) (c : BitVec 4) (d : Nat) (l : List Race) :
    Keeps s { s with fn := f, stepCode := c, dl := d, races := l } [] := by
  refine ⟨rfl, rfl, fun g => ?_, rfl, rfl, rfl, rfl, id, (List.append_nil _).symm⟩
  cases g <;> rfl

/-- A transfer group and the position after it. -/
theorem Keeps.sent (s : State) (dc : Bool) (bs : List Byte) (c : BitVec 4) :
    Keeps s { s.sent dc bs with stepCode := c } (traceOf dc bs) := by
  refine ⟨rfl, rfl, fun g => ?_, rfl, rfl, rfl, rfl, fun _ => rfl, rfl⟩
  cases g <;> rfl

/-- `m` turns of the ENGINE inside the loop put `out` on the trace, and leave alone what groups are made of and which
channels are pending. -/
structure Moves (m : Nat) (s t : State) (out : List BusEntry) : Prop where
  run : core.run m s = .next t
  cfg : t.cfg = s.cfg
  groups : ∀ g, groupBytes t g = groupBytes s g
  pendingCmd : t.pendingCmd = s.pendingCmd
  contrastPending : t.contrastPending = s.contrastPending
  trace : t.trace = s.trace ++ out

theorem Moves.trans {m l : Nat} {s t u : State} {x y : List BusEntry} (h : Moves m s t x) (h' : Moves l t u y) :
    Moves (m + l) s u (x ++ y) where
  run := run_append h.run h'.run
  cfg := h'.cfg.trans h.cfg
  groups g := (h'.groups g).trans (h.groups g)
  pendingCmd := h'.pendingCmd.trans h.pendingCmd
  contrastPending := h'.contrastPending.trans h.contrastPending
  trace := by rw [h'.trace, h.trace, List.append_assoc]

section
variable {s t : State} {k j : Fin 3} {p q : Pos} {n ticks : Nat} {ts : List Turn} {i : Instr} {out : List BusEntry}

/-- A turn at a position, from what its actions do. -/
theorem moves_of_runs {c : Nat} (h : s.standsAt k p (engineTurn n ticks :: ts))
    (hd : decodeSeq k.val (posCode p).toNat = .ok i) (hr : Runs .engine c s.inTurn t (engineTasks s.inTurn i))
    (hc : c ≤ n) (hk : Keeps s.inTurn t out) (hfn : t.fn = fnBits j) (hst : t.stepCode = posCode q) :
    ∃ v, Moves 1 s v out ∧ v.standsAt j q ts ∧ v.dl = t.dl ∧ v.tick = tickAdd s.cfg s.tick ticks := by
  have hcfg : t.cfg = s.cfg := hk.cfg.trans s.inTurn_cfg
  refine ⟨t.setWork .engine [], ⟨run_one (step_position h hd hr hc), hcfg, fun g => ?_, ?_, ?_, ?_⟩,
    ⟨?_, ?_, hfn, hst, rfl, hk.rxq h.inTurn_rxq, hk.inputs.trans h.inTurn_inputs⟩, rfl, ?_⟩
  · rw [groupBytes_setWork, hk.groups, groupBytes_inTurn]
  · exact hk.pendingCmd.trans s.inTurn_pendingCmd
  · exact hk.contrastPending.trans s.inTurn_contrastPending
  · exact hk.trace.trans (congrArg (· ++ out) s.inTurn_trace)
  · exact (congrArg paramsOk hcfg).trans h.params
  · exact (hk.threadState.trans s.inTurn_threadState).trans h.threadState
  · rw [State.setWork_tick, hk.tick, State.inTurn_tick, h.nextTurn]
    rfl

theorem tickAdd_tickAdd_zero (p : Config.Params) (x d : Nat) : tickAdd p (tickAdd p x 0) d = tickAdd p x d := by
  simp [tickAdd]

/-- The deadline stays where it is in a turn in which no tick is counted. -/
theorem State.due.kept {d : Nat} (hcfg : t.cfg = s.cfg) (hdl : t.dl = s.dl) (htick : t.tick = tickAdd s.cfg s.tick 0)
    (h : s.due d) : t.due d := by
  rw [State.due, hcfg, hdl, htick, tickAdd_tickAdd_zero, h]

/-- A wait for a deadline that is reached in its turn ends (R99). -/
theorem deadlinePassed_self (p : Config.Params) (x : Nat) : deadlinePassed p x x = true := by
  simp [deadlinePassed, tickDiff]

/-- S1 and S6 set the deadline (R103, R108). -/
theorem step_setDeadline {d : Nat} (h : s.standsAt k p (engineTurn n 0 :: ts))
    (hd : decodeSeq k.val (posCode p).toNat = .ok i) (hw : engineTasks s.inTurn i = [.setDeadline d, .goto q])
    (hn : 2 ≤ n) : ∃ t, Moves 1 s t [] ∧ t.standsAt k q ts ∧ t.due d := by
  have hset : Runs .engine 1 s.inTurn { s.inTurn with dl := tickAdd s.inTurn.cfg s.inTurn.tick d } [.setDeadline d] :=
    .done fun _ => rfl
  have hrun : Runs .engine 2 s.inTurn { s.inTurn with
      dl := tickAdd s.inTurn.cfg s.inTurn.tick d, stepCode := posCode q } (engineTasks s.inTurn i) :=
    hw ▸ hset.append (.done fun _ => rfl)
  obtain ⟨t, hm, ht, hdl, htick⟩ :=
    moves_of_runs (j := k) (q := q) h hd hrun hn (.registers ..) (s.inTurn_fn.trans h.fn) rfl
  refine ⟨t, hm, ht, ?_⟩
  rw [State.due, hm.cfg, htick]
  refine hdl.trans ?_
  show tickAdd s.inTurn.cfg s.inTurn.tick d = _
  rw [State.inTurn_cfg, State.inTurn_tick, h.nextTurn]
  rfl

/-- S2, S3, S4, S7 and S8 send a transfer group (R104 to R106, R109, R110). -/
theorem step_group {g : Group} (h : s.standsAt k p (engineTurn n 0 :: ts))
    (hd : decodeSeq k.val (posCode p).toNat = .ok i) (hw : engineTasks s.inTurn i = [.emit g, .goto q])
    (hn : 3 * (groupBytes s g).length + 6 ≤ n) :
    ∃ t, Moves 1 s t (traceOf (groupDc g) (groupBytes s g)) ∧ t.standsAt k q ts ∧ ∀ d, s.due d → t.due d := by
  have hemit : Runs .engine _ _ _ [.emit g] := Runs.emit (a := .engine) rfl h.inTurn_busReady g
  rw [groupBytes_inTurn, h.inTurn_rxq] at hemit
  have hrun : Runs .engine (3 * (groupBytes s g).length + 6) s.inTurn
      { s.inTurn.sent (groupDc g) (groupBytes s g) with stepCode := posCode q } (engineTasks s.inTurn i) :=
    hw ▸ hemit.append (.done fun _ => rfl)
  obtain ⟨t, hm, ht, hdl, htick⟩ :=
    moves_of_runs (j := k) (q := q) h hd hrun hn (.sent ..) (s.inTurn_fn.trans h.fn) rfl
  exact ⟨t, hm, ht, fun d => State.due.kept hm.cfg (hdl.trans s.inTurn_dl) htick⟩

/-- S5 and S10 wait for the deadline, then do what ends them (R107, R112). -/
theorem runs_await {u : State} {d : Nat} {x : Task} (h : s.standsAt k p (engineTurn n d :: ts)) (hdue : s.due d)
    (hx : ∀ ts, act .engine x (s.inTurn.setWork .engine ts) = .done (u.setWork .engine ts)) :
    Runs .engine 2 s.inTurn u [.await s.inTurn.dl, x] := by
  have hpassed : deadlinePassed s.inTurn.cfg s.inTurn.tick s.inTurn.dl = true := by
    rw [State.inTurn_tick, State.inTurn_cfg, State.inTurn_dl, hdue, h.nextTurn]
    exact deadlinePassed_self ..
  have hawait : Runs .engine 1 s.inTurn s.inTurn [.await s.inTurn.dl] := .done fun ts => if_pos hpassed
  exact hawait.append (.done hx)

/-- S9 away from the boundary (R111). -/
theorem step_s9 (h : s.standsAt k .s9 (engineTurn n 0 :: ts)) (hk : k ≠ 2) (hn : 1 ≤ n) :
    ∃ t, Moves 1 s t [] ∧ t.standsAt k .s10 ts ∧ ∀ d, s.due d → t.due d := by
  have hrun : Runs .engine 1 s.inTurn { s.inTurn with stepCode := posCode .s10 } (engineTasks s.inTurn (.s9 k)) := by
    rw [engineTasks, if_neg hk]
    exact .done fun _ => rfl
  obtain ⟨t, hm, ht, hdl, htick⟩ :=
    moves_of_runs (j := k) (q := .s10) h (withSubframe_val k _) hrun hn (.registers ..) (s.inTurn_fn.trans h.fn) rfl
  exact ⟨t, hm, ht, fun d => State.due.kept hm.cfg (hdl.trans s.inTurn_dl) htick⟩

/-- S5 at its deadline (R107). -/
theorem step_s5 {d : Nat} (h : s.standsAt k .s5 (engineTurn n d :: ts)) (hdue : s.due d) (hn : 2 ≤ n) :
    ∃ t, Moves 1 s t [] ∧ t.standsAt k .s6 ts := by
  obtain ⟨t, hm, ht, -⟩ := moves_of_runs (j := k) (q := .s6) h (withSubframe_val k .s5)
    (runs_await (u := { s.inTurn with stepCode := posCode .s6 }) h hdue fun _ => rfl) hn (.registers ..)
    (s.inTurn_fn.trans h.fn) rfl
  exact ⟨t, hm, ht⟩

/-- The position after S10 (R112). -/
def afterS10 (k : Fin 3) : Pos := if k = 2 then .check else .s1

/-- S10 at its deadline: the next subframe, or after the last one ENG.CHECK (R112). -/
theorem step_s10 {d : Nat} (h : s.standsAt k .s10 (engineTurn n d :: ts)) (hdue : s.due d) (hn : 2 ≤ n) :
    ∃ t, Moves 1 s t [] ∧ t.standsAt (k + 1) (afterS10 k) ts := by
  have hnext : ∀ v, act .engine (.nextSubframe k) v =
      .done { v with fn := fnBits (k + 1), stepCode := posCode (afterS10 k) } := by
    fin_cases k <;> exact fun _ => rfl
  obtain ⟨t, hm, ht, -⟩ := moves_of_runs (j := k + 1) (q := afterS10 k) h (withSubframe_val k .s10)
    (runs_await h hdue fun _ => hnext _) hn (.registers ..) rfl rfl
  exact ⟨t, hm, ht⟩

/-- The branch of ENG.CHECK while Running (R102). -/
theorem act_testRun_running {a : Agent} (h : s.threadState = running) :
    act a .testRun s = .done { s.acquire .threadState with fn := 0#2, stepCode := posCode .s1 } := by
  have hl : legalThreadState s.threadState = true := by
    rw [h]
    decide
  rw [act, testRunAct, if_pos hl, if_pos h]

/-- ENG.CHECK while Running (R102). -/
theorem step_check (h : s.standsAt 0 .check (engineTurn n 0 :: ts)) (hn : 1 ≤ n) :
    ∃ t, Moves 1 s t [] ∧ t.standsAt 0 .s1 ts := by
  have hthread : s.inTurn.threadState = running := s.inTurn_threadState.trans h.threadState
  have hrun : Runs .engine 1 s.inTurn
      { s.inTurn.acquire .threadState with fn := 0#2, stepCode := posCode .s1 } (engineTasks s.inTurn .engCheck) :=
    .done fun ts => act_testRun_running hthread
  obtain ⟨t, hm, ht, -⟩ := moves_of_runs (j := 0) (q := .s1) h rfl hrun hn (.registers ..) rfl rfl
  exact ⟨t, hm, ht⟩

/-- A group that follows other turns, in the terms of the state they began in. -/
theorem Moves.then_group {l : Nat} {u : State} {g : Group} (m : Moves l u s out)
    (h : s.standsAt k p (engineTurn n 0 :: ts)) (hd : decodeSeq k.val (posCode p).toNat = .ok i)
    (hw : engineTasks s.inTurn i = [.emit g, .goto q]) (hn : 3 * (groupBytes u g).length + 6 ≤ n) :
    ∃ t, Moves (l + 1) u t (out ++ traceOf (groupDc g) (groupBytes u g)) ∧ t.standsAt k q ts ∧
      ∀ d, s.due d → t.due d := by
  rw [← m.groups] at hn ⊢
  obtain ⟨t, hm, ht⟩ := step_group h hd hw hn
  exact ⟨t, m.trans hm, ht⟩

end

/-! ### An outer cycle -/

/-- The turns of S1 to S8. -/
def scanTurns (p : Config.Params) (n : Nat) : List Turn := (iterationTurns p n).take 8

section
variable {s : State} {k : Fin 3} {n : Nat} {ts : List Turn}

/-- S1 to S8 put the iteration's groups on the trace (R78). -/
theorem run_scan (h : s.standsAt k .s1 (scanTurns s.cfg n ++ ts)) (hn : 3 * s.cfg.planeBytes + 18 ≤ n) :
    ∃ t, Moves 8 s t (iterationTrace s k) ∧ t.standsAt k .s9 ts ∧ t.due s.cfg.tPost := by
  have hpark : (groupBytes s .park).length = 4 := rfl
  have hframe : (groupBytes s (.frame k)).length = s.cfg.planeBytes := Memory.length_bytes _ _
  have hcontrast : (groupBytes s (.contrast k)).length = 2 := rfl
  have hrestore : (groupBytes s .restore).length = 4 := rfl
  obtain ⟨s2, m2, h2, d2⟩ := step_setDeadline (q := .s2) (d := s.cfg.tPre) h (withSubframe_val k .s1)
    (by rw [engineTasks, State.inTurn_cfg]) (by omega)
  obtain ⟨s3, m3, h3, d3⟩ := m2.then_group (g := .park) (q := .s3) h2 (withSubframe_val k .s2) rfl (by omega)
  obtain ⟨s4, m4, h4, d4⟩ := m3.then_group (g := .frame k) (q := .s4) h3 (withSubframe_val k .s3) rfl (by omega)
  obtain ⟨s5, m5, h5, d5⟩ := m4.then_group (g := .contrast k) (q := .s5) h4 (withSubframe_val k .s4) rfl (by omega)
  obtain ⟨s6, m6, h6⟩ := step_s5 h5 (d5 _ (d4 _ (d3 _ d2))) (by omega)
  have m56 := m5.trans m6
  obtain ⟨s7, m7, h7, d7⟩ := step_setDeadline (q := .s7) (d := s.cfg.tPost) h6 (withSubframe_val k .s6)
    (by rw [engineTasks, State.inTurn_cfg, m56.cfg]) (by omega)
  obtain ⟨s8, m8, h8, d8⟩ := (m56.trans m7).then_group (g := .restore) (q := .s8) h7 (withSubframe_val k .s7) rfl
    (by omega)
  obtain ⟨s9, m9, h9, d9⟩ := m8.then_group (g := .contrast k) (q := .s9) h8 (withSubframe_val k .s8) rfl (by omega)
  refine ⟨s9, ?_, h9, d9 _ (d8 _ d7)⟩
  simpa only [iterationTrace, groupDc, groupBytes, List.nil_append, List.append_nil] using m9

/-- An iteration away from the boundary (R114). -/
theorem run_iteration (h : s.standsAt k .s1 (iterationTurns s.cfg n ++ ts)) (hk : k ≠ 2)
    (hn : 3 * s.cfg.planeBytes + 18 ≤ n) :
    ∃ t, Moves 10 s t (iterationTrace s k) ∧ t.standsAt (k + 1) .s1 ts := by
  obtain ⟨s9, m9, h9, d9⟩ :=
    run_scan (ts := engineTurn n 0 :: engineTurn n s.cfg.tPost :: ts) h hn
  obtain ⟨s10, m10, h10, d10⟩ := step_s9 h9 hk (by omega)
  obtain ⟨t, m, ht⟩ := step_s10 h10 (d10 _ d9) (by omega)
  rw [afterS10, if_neg hk] at ht
  refine ⟨t, ?_, ht⟩
  simpa only [List.append_nil] using (m9.trans m10).trans m

theorem injects_congr {t : State} {out : List BusEntry} (hcfg : t.cfg = s.cfg) (hcmd : t.pendingCmd = s.pendingCmd)
    (hcon : t.contrastPending = s.contrastPending) (hg : ∀ g, groupBytes t g = groupBytes s g)
    (h : t.injects out) : s.injects out := by
  simpa only [State.injects, State.commandServed, hcfg, hcmd, hcon, hg] using h

/-- S9 of subframe 2, the boundary: SERVICE (R111, R130). -/
theorem step_boundary (h : s.standsAt 2 .s9 (engineTurn n 0 :: ts))
    (hn : 4 * s.cfg.planeWords + 3 * s.cfg.pcmdLen + 17 ≤ n) :
    ∃ t out, step s = .next t ∧ t.standsAt 2 .s10 ts ∧ (∀ d, s.due d → t.due d) ∧
      t.trace = s.trace ++ out ∧ s.injects out := by
  obtain ⟨u, out, hrun, hu, hout⟩ := runs_service h.inTurn_busReady h.inTurn_rxq
  have hgoto : Runs .engine 1 u { u with stepCode := posCode .s10 } [.goto .s10] := .done fun _ => rfl
  have hcfg : u.cfg = s.cfg := hu.cfg.trans s.inTurn_cfg
  refine ⟨_, out, step_position (i := .s9 2) h rfl (hrun.append hgoto) (by rwa [State.inTurn_cfg]),
    ⟨?_, ?_, ?_, rfl, rfl, hu.rxq h.inTurn_rxq, hu.inputs.trans h.inTurn_inputs⟩, fun d => ?_, ?_, ?_⟩
  · exact (congrArg paramsOk hcfg).trans h.params
  · exact (hu.threadState.trans s.inTurn_threadState).trans h.threadState
  · exact (hu.fn.trans s.inTurn_fn).trans h.fn
  · refine State.due.kept hcfg (hu.dl.trans s.inTurn_dl) (hu.tick.trans ?_)
    rw [State.inTurn_tick, h.nextTurn]
    rfl
  · exact hu.trace.trans (congrArg (· ++ out) s.inTurn_trace)
  · exact injects_congr s.inTurn_cfg s.inTurn_pendingCmd s.inTurn_contrastPending (groupBytes_inTurn s) hout

/-- The iteration of subframe 2, with the boundary (R114, R130). -/
theorem run_lastIteration (h : s.standsAt 2 .s1 (iterationTurns s.cfg n ++ ts))
    (hn : passBudget s.cfg + 3 * (s.cfg.planeBytes + s.cfg.pcmdLen) + 40 ≤ n) :
    ∃ t out, core.run 10 s = .next t ∧ t.standsAt 0 .check ts ∧ t.trace = s.trace ++ iterationTrace s 2 ++ out ∧
      s.injects out := by
  rw [passBudget] at hn
  obtain ⟨s9, m9, h9, d9⟩ :=
    run_scan (ts := engineTurn n 0 :: engineTurn n s.cfg.tPost :: ts) h (by omega)
  obtain ⟨s10, out, r10, h10, d10, t10, hout⟩ := step_boundary h9 (by rw [m9.cfg]; omega)
  obtain ⟨t, m, ht⟩ := step_s10 h10 (d10 _ d9) (by omega)
  refine ⟨t, out, run_append (run_append m9.run (run_one r10)) m.run, ht, ?_,
    injects_congr m9.cfg m9.pendingCmd m9.contrastPending m9.groups hout⟩
  rw [m.trace, t10, m9.trace, List.append_nil]

/-- What an iteration puts on the trace depends only on what the loop keeps. -/
theorem Moves.iterationTrace_eq {m : Nat} {t : State} {out : List BusEntry} (h : Moves m s t out) (j : Fin 3) :
    iterationTrace t j = iterationTrace s j := by
  simp only [iterationTrace, h.cfg, h.groups]

/-- An outer cycle from ENG.CHECK (R78, R114, R201). -/
theorem run_outerCycle (h : s.standsAt 0 .check (cycleTurns s.cfg n ++ ts))
    (hn : passBudget s.cfg + 3 * (s.cfg.planeBytes + s.cfg.pcmdLen) + 40 ≤ n) :
    ∃ t out, core.run 31 s = .next t ∧ t.standsAt 0 .check ts ∧ t.trace = s.trace ++ outerCycle s ++ out ∧
      s.injects out := by
  have hiter : 3 * s.cfg.planeBytes + 18 ≤ n := by
    omega
  rw [cycleTurns, List.cons_append, List.append_assoc, List.append_assoc] at h
  obtain ⟨s1, m1, h1⟩ := step_check h (by omega)
  rw [← m1.cfg] at h1 hiter hn
  obtain ⟨s2, m2, h2⟩ := run_iteration h1 (by decide) hiter
  rw [← m2.cfg] at h2 hiter hn
  obtain ⟨s3, m3, h3⟩ := run_iteration h2 (by decide) hiter
  rw [← m3.cfg] at h3 hn
  obtain ⟨t, out, r4, ht, t4, hout⟩ := run_lastIteration h3 hn
  have m := (m1.trans m2).trans m3
  refine ⟨t, out, run_append m.run r4, ht, ?_, injects_congr m.cfg m.pendingCmd m.contrastPending m.groups hout⟩
  rw [t4, m.trace, m.iterationTrace_eq, m1.iterationTrace_eq, (m1.trans m2).iterationTrace_eq]
  simp only [outerCycle, List.nil_append, List.append_assoc]
  rfl

end

end Sys2Proof.Machine

namespace Sys2Proof.Proofs

open Sys2Proof.Machine

/-- Settles O59: ENG.CHECK, two iterations that serve nothing, and the third with the boundary. -/
theorem outerCycleTrace : Obligations.OuterCycleTrace := by
  intro s n rest hp hthread hfn hst hwork hrxq hin hn
  obtain ⟨t, out, hrun, ht, htrace, hserved, hunserved⟩ :=
    run_outerCycle ⟨hp, hthread, hfn, hst, hwork, hrxq, hin⟩ hn
  refine ⟨t, hrun, ht.fn, ht.stepCode, ht.engWork, ht.inputs, fun h => ?_, fun h => ?_⟩
  · rw [htrace, hserved h]
    rfl
  · rw [htrace, hunserved h, List.append_nil]

end Sys2Proof.Proofs

/-! PROOF. The subframe generator: what SFG.WORD and SFG.PASS answer on their own, and which subframes light a pixel
(O24 to O27). -/

namespace Sys2Proof.Machine

/-! ### Words in memory (R44) -/

/-- A word is its four bytes, the first the least significant (R44). -/
theorem append_wordBytes (w : Word) : wordByte w 3 ++ wordByte w 2 ++ wordByte w 1 ++ wordByte w 0 = w := by
  unfold wordByte
  rw [BitVec.extractLsb'_append_extractLsb'_eq_extractLsb' (show 8 * 3 = 8 * 2 + 8 from rfl),
    BitVec.extractLsb'_append_extractLsb'_eq_extractLsb' (show 8 * 2 = 8 * 1 + 8 from rfl),
    BitVec.extractLsb'_append_extractLsb'_eq_extractLsb' (show 8 * 1 = 8 * 0 + 8 from rfl)]
  exact BitVec.extractLsb'_eq_self

theorem Memory.readWord_writeWord {m : Memory} (h : Memory.wf m = true) (a : Nat) (w : Word) :
    Memory.readWord (Memory.writeWord m a w) a = w := by
  simpa [Memory.readWord, Memory.read_writeWord h] using append_wordBytes w

/-- With no write of the HOST missed, the ENGINE sees the planes themselves (R51, U2). -/
theorem rewind_zero (p : Plane) (l : List Race) (m : Memory) : rewind p l 0 m = m := by
  induction l with
  | nil => rfl
  | cons r l ih =>
    cases r with
    | drew q off old => rfl
    | released f => exact ih

theorem planeView_of_age {s : State} (h : s.age = 0) (p : Plane) : s.planeView p = s.region (planeRegion p) := by
  rw [State.planeView, h, rewind_zero]

/-! ### SFG.WORD on its own (R85) -/

/-- SFG.WORD at a word of the planes comes to its end. -/
theorem exec_sfgWord {s : State} (hw : s.engWork = []) (hb : 3 ≤ s.budget) {wi : Nat}
    (hin : 4 * wi + 4 ≤ s.cfg.planeBytes) (mask : Word) :
    exec (.sfgWord wi mask) s = .next (s.wordDone wi mask) := by
  have hrun : Runs .engine 3 s (s.wordDone wi mask) (sfgWordTasks wi mask) :=
    ⟨3, le_rfl, fun ts n => go_word hin mask ts n⟩
  have hwork : (s.wordDone wi mask).work .engine = [] := hw
  show perform .engine (sfgWordTasks wi mask) s = _
  rw [perform_rest (a := .engine) hw, hrun.go_eq hb, State.setWork_nil hwork]

/-- SFG.WORD past the planes stops at its first read (R41). -/
theorem exec_sfgWord_outside {s : State} (hw : s.engWork = []) (hb : 1 ≤ s.budget) {wi : Nat}
    (hout : s.cfg.planeBytes < 4 * wi + 4) (mask : Word) :
    exec (.sfgWord wi mask) s = .fault (.outsideRegion .planeA (4 * wi)) := by
  have hload : act .engine (.loadV1 wi mask) (s.setWork .engine [.loadV2 wi, .storeSf wi]) =
      .fault (.outsideRegion .planeA (4 * wi)) := by
    simp [act, loadV1Act, inRegion, regionSize, hout]
  obtain ⟨n, hn⟩ := Nat.exists_eq_add_of_le' hb
  show perform .engine (sfgWordTasks wi mask) s = _
  rw [perform_rest (a := .engine) hw, hn]
  exact go_fault hload n

/-! ### SFG.PASS on its own (R88) -/

/-- What a pass changes, and nothing else (R88). -/
theorem passDone_eq (s : State) :
    s.passDone = { s with
      sf0 := s.passDone.sf0, sf1 := s.passDone.sf1, sf2 := s.passDone.sf2, wi := s.passDone.wi, mask := s.passDone.mask
      v1 := s.passDone.v1, v2 := s.passDone.v2, races := acquireRaces .invert s.races } := by
  obtain ⟨w, x, y, m0, m1, m2, h⟩ := passDone_frame s
  rw [h]

@[simp] theorem passDone_cfg (s : State) : s.passDone.cfg = s.cfg := by rw [passDone_eq]
@[simp] theorem passDone_invert (s : State) : s.passDone.invert = s.invert := by rw [passDone_eq]
@[simp] theorem passDone_planeA (s : State) : s.passDone.planeA = s.planeA := by rw [passDone_eq]
@[simp] theorem passDone_planeB (s : State) : s.passDone.planeB = s.planeB := by rw [passDone_eq]
@[simp] theorem passDone_engWork (s : State) : s.passDone.engWork = s.engWork := by rw [passDone_eq]
@[simp] theorem passDone_budget (s : State) : s.passDone.budget = s.budget := by rw [passDone_eq]
@[simp] theorem passDone_age (s : State) : s.passDone.age = s.age := by rw [passDone_eq]
@[simp] theorem passDone_races (s : State) : s.passDone.races = acquireRaces .invert s.races := by
  rw [passDone_eq]

/-- SFG.PASS comes to its end. -/
theorem exec_sfgPass {s : State} (hw : s.engWork = []) (hb : passBudget s.cfg ≤ s.budget) :
    exec .sfgPass s = .next s.passDone := by
  have hwork : s.passDone.work .engine = [] := (passDone_engWork s).trans hw
  have hn : 4 * s.cfg.planeWords + 2 ≤ s.budget := by
    rw [passBudget] at hb
    omega
  show perform .engine [.pass] s = _
  rw [perform_rest (a := .engine) hw, (Runs.pass s).go_eq hn, State.setWork_nil hwork]

/-- Every byte of the subframe buffers after a pass, the bytes past a plane too (R86). -/
theorem passDone_byteAt {s : State} (hwf : ∀ j, Memory.wf (s.region (.sf j)) = true)
    (hp : s.cfg.planeBytes % 4 = 0) (j : Fin 3) (i : Nat) :
    s.passDone.byteAt (.sf j) i =
      if i < s.cfg.planeBytes then
        sfByte j (Memory.read (s.seen .a) i ^^^ maskByte s.invert) (Memory.read (s.seen .b) i)
      else s.byteAt (.sf j) i := by
  have hrange : 4 * 0 ≤ i ∧ i < 4 * (0 + s.cfg.planeWords) ↔ i < s.cfg.planeBytes := by
    rw [Config.Params.planeWords]
    omega
  exact (wordsDone_byteAt s.cfg.planeWords (s := { s.acquire .invert with mask := maskOf s.invert }) hwf rfl 0 j i).trans
    (if_congr hrange rfl rfl)

theorem wordsDone_wf (c : Nat) {s : State} (hwf : ∀ j, Memory.wf (s.region (.sf j)) = true) (k : Nat) (j : Fin 3) :
    Memory.wf ((State.wordsDone c k s).region (.sf j)) = true := by
  induction c generalizing k s with
  | zero => exact hwf j
  | succ c ih => exact ih (wordDone_wf (s := { s with wi := BitVec.ofNat 32 k }) hwf k s.mask) (k + 1)

theorem passDone_wf {s : State} (hwf : ∀ j, Memory.wf (s.region (.sf j)) = true) (j : Fin 3) :
    Memory.wf (s.passDone.region (.sf j)) = true :=
  wordsDone_wf _ (s := { s.acquire .invert with mask := maskOf s.invert }) hwf 0 j

/-- A second read of a flag orders nothing more (R51 (c)). -/
theorem acquireRaces_acquireRaces (f : Flag) (l : List Race) : acquireRaces f (acquireRaces f l) = acquireRaces f l :=
  List.takeWhile_idem ..

/-- A pass after a pass sees the planes as the first did. -/
theorem seen_passDone (s : State) (p : Plane) : s.passDone.seen p = s.seen p := by
  cases p <;> simp [State.seen, State.planeView, State.acquire, acquireRaces_acquireRaces, State.region, planeRegion]

/-- R90: a second pass leaves every byte of the subframe buffers. -/
theorem passDone_passDone_byteAt {s : State} (hwf : ∀ j, Memory.wf (s.region (.sf j)) = true)
    (hp : s.cfg.planeBytes % 4 = 0) (j : Fin 3) (i : Nat) :
    s.passDone.passDone.byteAt (.sf j) i = s.passDone.byteAt (.sf j) i := by
  rw [passDone_byteAt (passDone_wf hwf) (by rwa [passDone_cfg]), seen_passDone, seen_passDone, passDone_cfg,
    passDone_invert]
  split
  · next hi => rw [passDone_byteAt hwf hp, if_pos hi]
  · rfl

/-! ### Pixels (R42, R87) -/

/-- A pixel on the screen has its byte in the planes (R42). -/
theorem pixelOffset_lt {p : Config.Params} {x y : Nat} (hx : x < p.width) (hy : y < Config.height) :
    pixelOffset p x y < p.planeBytes := by
  have hband : y / 8 + 1 ≤ Config.bands := by
    rw [Config.height] at hy
    rw [Config.bands, Config.height]
    omega
  calc y / 8 * p.width + x < (y / 8 + 1) * p.width := by rw [Nat.succ_mul]; omega
    _ ≤ Config.bands * p.width := Nat.mul_le_mul_right _ hband

theorem getLsbD_maskByte (inv : Word) {k : Nat} (hk : k < 8) : (maskByte inv).getLsbD k = decide (inv ≠ 0#32) := by
  unfold maskByte
  split
  · next h => simp [h]
  · next h =>
    rw [decide_eq_true h, show 0xFF#8 = BitVec.allOnes 8 from rfl, BitVec.getLsbD_allOnes, decide_eq_true hk]

/-- The subframes that light a pixel whose bits are `a` after inversion and `b` (R86), and their count. -/
def lit (a b : Bool) : List Bool × Nat :=
  ([a || b, a, a && (a ^^ b)], [a || b, a, a && (a ^^ b)].count true)

/-- R86, R87: with buffers consistent with the planes, a pixel is shown by its two bits and the inversion. -/
theorem shown_of_consistent {s : State} {x y : Nat} (h : consistentWith s s.planeA s.planeB s.invert)
    (hx : x < s.cfg.width) (hy : y < Config.height) :
    s.shown x y = lit (s.pixelBit .planeA x y ^^ decide (s.invert ≠ 0#32)) (s.pixelBit .planeB x y) := by
  obtain ⟨h0, h1, h2⟩ := h _ (pixelOffset_lt hx hy)
  have hk : y % 8 < 8 := Nat.mod_lt _ (by decide)
  simp only [State.shown, lit, State.pixelBit, h0, h1, h2, BitVec.getLsbD_or, BitVec.getLsbD_xor, BitVec.getLsbD_and,
    getLsbD_maskByte _ hk]
  rfl

end Sys2Proof.Machine

namespace Sys2Proof.Proofs

open Sys2Proof.Machine

/-- Settles O24: the state after SFG.WORD is `State.wordDone`, and its stores read back as they were written. -/
theorem wordTransform : Obligations.WordTransform := by
  refine fun wi mask s hw hm hb => ⟨fun hwi => ?_, fun hout => ?_, fun hage => ?_⟩
  · have hin : 4 * wi + 4 ≤ s.cfg.planeBytes := by
      rw [Config.Params.planeWords] at hwi
      omega
    have hwf : ∀ j, Memory.wf (s.region (.sf j)) = true := fun j => (hm _).1
    refine ⟨_, exec_sfgWord hw hb hin mask, rfl, rfl, Memory.readWord_writeWord (hwf 0) ..,
      Memory.readWord_writeWord (hwf 1) .., Memory.readWord_writeWord (hwf 2) .., fun k i hi => ?_, rfl⟩
    rw [wordDone_byteAt hwf, if_neg (by omega)]
  · exact exec_sfgWord_outside hw (by omega) hout mask
  · exact ⟨planeView_of_age hage .a, planeView_of_age hage .b⟩

/-- Settles O25: the state after SFG.PASS is `State.passDone`. -/
theorem passTransform : Obligations.PassTransform :=
  fun s hw hm hp hb => ⟨_, exec_sfgPass hw hb, passDone_consistent (fun _ => (hm _).1) hp, passDone_eq s⟩

/-- Settles O26: the colour gives the pixel's two bits, and these with the inversion the subframes. -/
theorem pixelTable : Obligations.PixelTable := by
  intro s x y hcons hx hy
  rw [shown_of_consistent hcons hx hy, State.colour]
  generalize s.pixelBit .planeA x y = a
  generalize s.pixelBit .planeB x y = b
  refine ⟨fun hinv => ?_, fun hinv => ?_⟩
  · rw [decide_eq_false (not_not.mpr hinv)]
    revert a b
    decide
  · rw [decide_eq_true hinv]
    revert a b
    decide

/-- Settles O27: the bytes after a pass are a function of the planes seen and INVERT, which a pass leaves alone. -/
theorem passIdempotent : Obligations.PassIdempotent := by
  intro s hw hm hp hb
  have hwf : ∀ j, Memory.wf (s.region (.sf j)) = true := fun j => (hm _).1
  refine ⟨_, exec_sfgPass hw hb, ⟨s.passDone.passDone, ?_, passDone_passDone_byteAt hwf hp⟩, ?_⟩
  · exact exec_sfgPass ((passDone_engWork s).trans hw) (by rwa [passDone_cfg, passDone_budget])
  · intro s' t' hw' hm' hb' hcfg hinv hA hB ht k i hi
    rw [exec_sfgPass hw' (by rwa [hcfg])] at ht
    cases ht
    rw [passDone_byteAt (fun j => (hm' _).1) (by rwa [hcfg]), passDone_byteAt hwf hp, hcfg, hinv, hA, hB, if_pos hi,
      if_pos hi]

end Sys2Proof.Proofs

/-! PROOF. The bus primitives, the wait, and the ENGINE's positions, each on its own (O8, O9, O11 to O18, O20 to
O23). -/

namespace Sys2Proof.Machine

/-! ### An operation begun by an agent at rest -/

/-- An operation whose actions the budget covers comes to its end. -/
theorem perform_runs {a : Agent} {c : Nat} {s t : State} {w : List Task} (hr : Runs a c s t w) (hw : s.work a = [])
    (ht : t.work a = []) (hn : c ≤ s.budget) : perform a w s = .next t := by
  rw [perform_rest hw, hr.go_eq hn, State.setWork_nil ht]

theorem perform_nothing {a : Agent} {s : State} (hw : s.work a = []) : perform a [] s = .next s := by
  rw [perform_rest hw, State.setWork_nil hw, go_rest hw]

/-- An operation that comes to a poll that fails waits there. -/
theorem Runs.go_wait_eq {a : Agent} {c n : Nat} {s t : State} {w : List Task} {x : Task} {ts : List Task}
    (hr : Runs a c s t w) (hx : act a x (t.setWork a ts) = .wait) (hn : c ≤ n) :
    go a n (s.setWork a (w ++ x :: ts)) = .next (t.setWork a (x :: ts)) := by
  obtain ⟨d, hd, hgo⟩ := hr
  have hrun := hgo (x :: ts) (n - d)
  rwa [Nat.sub_add_cancel (hd.trans hn), go_wait hx] at hrun

/-! ### BUS.BYTE and BUS.GROUP (R95, R96) -/

section
variable {a : Agent} {s : State}

theorem mayDriveBus_setWork (s : State) (a b : Agent) (ts : List Task) :
    (s.setWork b ts).mayDriveBus a = s.mayDriveBus a :=
  mayDriveBus_congr (s.setWork_threadState b ts) (s.setWork_stepCode b ts) a

/-- BUS.BYTE once TNF = 1 (R95). -/
theorem Runs.byte (hm : s.mayDriveBus a = true) (ht : s.tnf = true) (b : Byte) :
    Runs a (s.rxq.length + 2) s { s with trace := s.trace ++ [(s.dc, b)], rxq := [] } (busByteTasks b) :=
  ⟨_, le_rfl, fun ts n => go_byte hm ht b ts n⟩

/-- The drain of R95 and R96. -/
theorem Runs.drain (a : Agent) (s : State) : Runs a (s.rxq.length + 1) s { s with rxq := [] } [.drain] :=
  ⟨_, le_rfl, fun ts n => go_drain s.rxq rfl ts n⟩

/-- The wait for bus idle once BSY = 0 (R96). -/
theorem Runs.idle (a : Agent) (h : s.bsy = false) : Runs a 1 s s [.idle] :=
  .done fun ts => by simp [act, idleAct, h]

/-- DC driven (R96). -/
theorem act_drive (hm : s.mayDriveBus a = true) (dc : Bool) (ts : List Task) :
    act a (.drive dc) (s.setWork a ts) = .done ({ s with dc := dc }.setWork a ts) := by
  rw [act, driveAct, mayDriveBus_setWork, if_pos hm]
  cases a <;> rfl

/-- The state when the bytes of a group are out, before the wait for bus idle (R96). -/
def State.bytesOut (s : State) (dc : Bool) (bs : List Byte) : State :=
  { s with
    dc := dc
    bi := lastIndex bs.length s.bi
    trace := s.trace ++ traceOf dc bs
    rxq := if bs.length = 0 then s.rxq else [] }

/-- BUS.GROUP up to its wait for bus idle (R96); an empty group does not ask for TNF. -/
theorem Runs.bytesOut (hm : s.mayDriveBus a = true) (dc : Bool) {bs : List Byte} (ht : s.tnf = true ∨ bs = []) :
    Runs a (3 * bs.length + (if bs.length = 0 then 0 else s.rxq.length) + 2) s (s.bytesOut dc bs)
      [.drive dc, .bytes 0 bs] := by
  by_cases hbs : bs = []
  · subst hbs
    have hempty : s.bytesOut dc [] = { s with dc := dc } := by
      simp [State.bytesOut, lastIndex, traceOf]
    rw [hempty]
    exact ((Runs.done (act_drive hm dc)).append (.done fun _ => rfl)).mono (Nat.le_add_left ..)
  · refine ⟨_, le_rfl, fun ts n => ?_⟩
    have hrun := go_group_bytes hm (ht.resolve_right hbs) dc bs ts n
    simpa only [if_neg hbs, State.bytesOut, List.length_eq_zero_iff, List.cons_append, List.nil_append] using hrun

/-- BUS.GROUP once BSY = 0 (R96). -/
theorem perform_group (hw : s.work a = []) (hm : s.mayDriveBus a = true) (dc : Bool) {bs : List Byte}
    (ht : s.tnf = true ∨ bs = []) (hi : s.bsy = false) (hn : s.groupBudget bs.length ≤ s.budget) :
    perform a (busGroupTasks dc bs) s = .next (s.sent dc bs) := by
  have hrun := ((Runs.bytesOut hm dc ht).append (.idle a hi)).append (.drain a _)
  refine perform_runs hrun hw (by cases a <;> exact hw) (le_trans ?_ hn)
  simp only [State.bytesOut, State.groupBudget]
  split
  · omega
  · rw [List.length_nil]
    omega

/-- BUS.GROUP while BSY = 1: the bytes are out and the operation waits (R96). -/
theorem perform_group_busy (hw : s.work a = []) (hm : s.mayDriveBus a = true) (dc : Bool) {bs : List Byte}
    (ht : s.tnf = true ∨ bs = []) (hi : s.bsy = true) (hn : s.groupBudget bs.length ≤ s.budget) :
    perform a (busGroupTasks dc bs) s = .next ((s.bytesOut dc bs).setWork a [.idle, .drain]) := by
  have hwait : act a .idle ((s.bytesOut dc bs).setWork a [.drain]) = .wait := by
    simp [act, idleAct, State.bytesOut, hi]
  rw [perform_rest hw]
  refine (Runs.bytesOut hm dc ht).go_wait_eq hwait (le_trans ?_ hn)
  rw [State.groupBudget]
  split <;> omega

/-- BUS.GROUP while TNF = 0: DC is driven and the operation waits with its first byte (R95, R96). -/
theorem perform_group_full (hw : s.work a = []) (hm : s.mayDriveBus a = true) (ht : s.tnf = false) (dc : Bool)
    (b : Byte) (rest : List Byte) (hn : 2 ≤ s.budget) :
    perform a (busGroupTasks dc (b :: rest)) s =
      .next ({ s with dc := dc, bi := 0 }.setWork a [.send b, .drain, .bytes 1 rest, .idle, .drain]) := by
  have hfirst : act a (.bytes 0 (b :: rest)) ({ s with dc := dc }.setWork a [.idle, .drain]) =
      .done ({ s with dc := dc, bi := 0 }.setWork a [.send b, .drain, .bytes 1 rest, .idle, .drain]) := by
    cases a <;> rfl
  obtain ⟨n, hbudget⟩ := Nat.exists_eq_add_of_le' hn
  calc perform a (busGroupTasks dc (b :: rest)) s
    _ = go a (n + 2) (s.setWork a (busGroupTasks dc (b :: rest))) := by rw [← hbudget, perform_rest hw]
    _ = go a (n + 1) _ := go_done (act_drive hm dc _) _
    _ = go a n _ := go_done hfirst _
    _ = _ := go_send_blocked (s := { s with dc := dc, bi := 0 }) hm ht b _ n

end

/-! ### The deadline (R99, R118) -/

section
variable {s : State}

/-- R99, R118: the difference of two readings of the counter, wrapped, does not see the counter's wraps. -/
theorem tickDiff_tickAdd (p : Config.Params) (now e n : Nat) :
    tickDiff p (tickAdd p now e) (tickAdd p now n) = Int.bmod ((e : Int) - n) (2 ^ p.tickBits) := by
  have hdiff : ((now + e : Nat) : Int) - ((now + n : Nat) : Int) = e - n := by
    omega
  rw [tickDiff, tickAdd, tickAdd, Int.natCast_emod, Int.natCast_emod, Int.emod_sub_bmod, Int.sub_emod_bmod,
    hdiff]

/-- WAIT.UNTIL of a deadline that has passed, and the action after it (R99). -/
theorem perform_await_passed {d : Nat} {t : State} {x : Task} (hw : s.engWork = []) (hn : 2 ≤ s.budget)
    (hp : deadlinePassed s.cfg s.tick d = true)
    (hx : ∀ ts, act .engine x (s.setWork .engine ts) = .done (t.setWork .engine ts)) (ht : t.engWork = []) :
    perform .engine [.await d, x] s = .next t :=
  have hawait : Runs .engine 1 s s [.await d] := .done fun _ => if_pos hp
  perform_runs (hawait.append (.done hx)) hw ht hn

/-- WAIT.UNTIL of a deadline to come (R99). -/
theorem perform_await_pending {d : Nat} (hw : s.engWork = []) (hp : deadlinePassed s.cfg s.tick d = false)
    (ts : List Task) : perform .engine (.await d :: ts) s = .next { s with engWork := .await d :: ts } := by
  have hwait : act .engine (.await d) (s.setWork .engine ts) = .wait := if_neg (Bool.eq_false_iff.1 hp)
  rw [perform_rest (a := .engine) hw, go_wait hwait, State.setWork_engine]

/-! ### The ENGINE's positions (R100 to R113) -/

/-- S1 and S6: the deadline and the next position (R103, R108). -/
theorem perform_setDeadline (hw : s.engWork = []) (hn : 2 ≤ s.budget) (d : Nat) (p : Pos) :
    perform .engine [.setDeadline d, .goto p] s =
      .next { s with dl := tickAdd s.cfg s.tick d, stepCode := posCode p } := by
  have hset : Runs .engine 1 s { s with dl := tickAdd s.cfg s.tick d } [.setDeadline d] := .done fun _ => rfl
  exact perform_runs (hset.append (.done fun _ => rfl)) hw hw hn

/-- S2, S3, S4, S7 and S8: a transfer group and the next position (R104 to R106, R109, R110). -/
theorem perform_emit_goto (hw : s.engWork = []) (hb : s.busReady) (g : Group) (p : Pos)
    (hn : s.groupBudget (groupBytes s g).length ≤ s.budget) :
    perform .engine [.emit g, .goto p] s =
      .next { s.sent (groupDc g) (groupBytes s g) with stepCode := posCode p } :=
  perform_runs ((Runs.emit (a := .engine) rfl hb g).append (.done fun _ => rfl)) hw hw hn

/-- The branch of S10 (R112). -/
theorem act_nextSubframe (a : Agent) (k : Fin 3) (s : State) :
    act a (.nextSubframe k) s = .done { s with fn := fnBits (k + 1), stepCode := posCode (afterS10 k) } := by
  fin_cases k <;> rfl

/-- S10 once the deadline has passed (R112). -/
theorem exec_s10_passed (hw : s.engWork = []) (hn : 2 ≤ s.budget) (hp : deadlinePassed s.cfg s.tick s.dl = true)
    (k : Fin 3) : exec (.s10 k) s = .next { s with fn := fnBits (k + 1), stepCode := posCode (afterS10 k) } :=
  perform_await_passed hw hn hp (fun _ => act_nextSubframe .engine k _) hw

/-- The branch of ENG.CHECK while not Running (R102). -/
theorem act_testRun_not_running {a : Agent} (hr : s.threadState ≠ running) (hl : s.threadState.toNat ≤ 3) :
    act a .testRun s = .done { s.acquire .threadState with stepCode := posCode .exit } := by
  have hlegal : legalThreadState s.threadState = true := decide_eq_true hl
  rw [act, testRunAct, if_pos hlegal, if_neg hr]

/-- The announcement that ends ENG.START and ENG.EXIT (R101, R113). -/
theorem Runs.announce {v : Word} (hl : legalEdge .engine s.threadState v = true) (p : Pos) :
    Runs .engine 1 s { s.writeFlag .engine .threadState v with stepCode := posCode p } [.announce v p] :=
  .done fun _ => if_pos hl

@[simp] theorem passDone_threadState (s : State) : s.passDone.threadState = s.threadState := by rw [passDone_eq]

/-- The state after ENG.START (R101). -/
def State.started (s : State) : State :=
  { ({ s with fn := 0#2 } : State).passDone.writeFlag .engine .threadState running with stepCode := posCode .check }

/-- ENG.START in Starting (R101). -/
theorem exec_engStart (hw : s.engWork = []) (ht : s.threadState = starting) (hn : passBudget s.cfg ≤ s.budget) :
    exec .engStart s = .next s.started := by
  have hedge : legalEdge .engine ({ s with fn := 0#2 } : State).passDone.threadState running = true := by
    rw [passDone_threadState]
    show legalEdge .engine s.threadState running = true
    rw [ht]
    decide
  have hfn : Runs .engine 1 s { s with fn := 0#2 } [.setFn 0] := .done fun _ => rfl
  refine perform_runs ((hfn.append (.pass _)).append (.announce hedge .check)) hw ?_ (le_trans ?_ hn)
  · exact (passDone_engWork _).trans hw
  · show 1 + (4 * s.cfg.planeWords + 2) + 1 ≤ passBudget s.cfg
    rw [passBudget]
    omega

/-- The turn of an idle ENGINE (R100). -/
theorem step_idle (hp : paramsOk s.cfg = true) (ha : s.nextTurn.agent = .engine) (hl : s.threadState.toNat ≤ 3)
    (hw : s.engWork = []) (hfn : s.fn = 0#2) (hst : s.stepCode = 0#4) : step s = .next s.inTurn := by
  have hwork : engineTurnWork s [] := .inr ⟨hw, .engIdle, by rw [hfn, hst]; rfl, rfl⟩
  rw [step_engine_run hp ha (decide_eq_true hl) hwork, go_setWork_nil,
    State.setWork_nil (a := .engine) (s.inTurn_engWork.trans hw)]

end

end Sys2Proof.Machine

namespace Sys2Proof.Proofs

open Sys2Proof.Machine

/-- Settles O8: the byte and the drain run to their end, or the first poll fails. -/
theorem busByte : Obligations.BusByte := by
  intro b s hw
  have hm := s.mayDriveBus_owner
  refine ⟨fun ht hn => ?_, fun ht => ?_⟩
  · refine perform_runs (.byte hm ht b) hw ?_ hn
    generalize s.busOwner = a at hw ⊢
    cases a <;> exact hw
  · exact (perform_rest hw _).trans (go_send_blocked hm ht b _ _)

/-- Settles O9: the bytes go out once TNF = 1, or there are none; then the wait for BSY = 0 ends or not. -/
theorem busGroup : Obligations.BusGroup := by
  intro dc bs s hw
  have hm := s.mayDriveBus_owner
  refine ⟨fun ht hn => ⟨fun hi => ?_, fun hi => ?_⟩, ?_⟩
  · exact perform_group hw hm dc ht hi hn
  · exact perform_group_busy hw hm dc ht hi hn
  · rintro ht b rest rfl hn
    exact perform_group_full hw hm ht dc b rest hn

/-- Settles O11: D14's comparison is `deadlinePassed`. -/
theorem waitUntil : Obligations.WaitUntil := by
  refine fun d s hw hn => ⟨fun h => ?_, fun h => ?_⟩
  · exact perform_runs (.done fun _ => if_pos (decide_eq_true h)) hw hw hn
  · exact perform_await_pending hw (decide_eq_false (not_le.2 h)) []

/-- Settles O12: the wrapped difference of the two readings is e - n, which lies within half the range. -/
theorem deadlineWrapSafe : Obligations.DeadlineWrapSafe := by
  intro p now n e hbits hn he
  have hhalf : 2 ^ p.tickBits = 2 * 2 ^ (p.tickBits - 1) := by
    rw [← Nat.pow_succ', Nat.succ_eq_add_one, Nat.sub_add_cancel hbits]
  rw [deadlinePassed, tickDiff_tickAdd, hhalf, Int.bmod_eq_of_le (by omega) (by omega)]
  exact decide_eq_decide.2 (by omega)

/-- Settles O13: both steps are `perform_setDeadline`. -/
theorem deadlineSteps : Obligations.DeadlineSteps := fun _ _ hw hn =>
  ⟨perform_setDeadline hw hn _ .s2, perform_setDeadline hw hn _ .s7⟩

/-- Settles O14: the groups PARK and RESTORE. -/
theorem parkRestoreSteps : Obligations.ParkRestoreSteps := fun _ _ hw hb hn =>
  ⟨perform_emit_goto hw hb .park .s3 hn, perform_emit_goto hw hb .restore .s8 hn⟩

/-- Settles O15: the group FRAME. -/
theorem frameStep : Obligations.FrameStep := by
  intro k s hw hb hn
  have hlen : (groupBytes s (.frame k)).length = s.cfg.planeBytes := Memory.length_bytes _ _
  refine (perform_emit_goto hw hb (.frame k) .s4 (hlen.symm ▸ hn)).trans ?_
  rw [State.sent, hlen, groupBytes, traceOf, Memory.bytes, List.map_map]
  rfl

/-- Settles O16: the group CONTRAST, at S4 and at S8. -/
theorem contrastSteps : Obligations.ContrastSteps := fun k _ hw hb hn =>
  ⟨perform_emit_goto hw hb (.contrast k) .s5 hn, perform_emit_goto hw hb (.contrast k) .s9 hn⟩

/-- Settles O17: the wait for DL ends, or the poll fails. -/
theorem preFrameWait : Obligations.PreFrameWait := fun _ _ hw hn =>
  ⟨fun hp => perform_await_passed hw hn hp (fun _ => rfl) hw, fun hp => perform_await_pending hw hp _⟩

/-- Settles O18: away from the boundary S9 is its one change of position. -/
theorem noMidCycleService : Obligations.NoMidCycleService := by
  intro k s hk hw hn
  have hgoto : perform .engine [.goto .s10] s = .next { s with stepCode := 10#4 } :=
    perform_runs (.done fun _ => rfl) hw hw hn
  match k with
  | 0 => exact hgoto
  | 1 => exact hgoto
  | 2 => exact absurd rfl hk

/-- Settles O20: the wait for DL ends, with the next subframe or ENG.CHECK, or the poll fails. -/
theorem postFrameWait : Obligations.PostFrameWait := by
  refine fun s hw hn => ⟨fun hp => ?_, fun hp k => perform_await_pending hw hp _⟩
  exact ⟨exec_s10_passed hw hn hp 0, exec_s10_passed hw hn hp 1, exec_s10_passed hw hn hp 2⟩

/-- Settles O21: the two branches of ENG.CHECK. -/
theorem runFlagCheck : Obligations.RunFlagCheck := by
  refine fun s hw hn => ⟨fun hr => ?_, fun hr hl => ?_⟩
  · exact perform_runs (.done fun _ => act_testRun_running hr) hw hw hn
  · exact perform_runs (.done fun _ => act_testRun_not_running hr hl) hw hw hn

/-- Settles O22: the state after ENG.START is `State.started`, whose buffers are those of its pass. -/
theorem engineStart : Obligations.EngineStart := by
  intro s hw ht hm hp hn
  have hpass := passDone_consistent (s := { s with fn := 0#2 }) (fun _ => (hm _).1) hp
  refine ⟨_, exec_engStart hw ht hn, rfl, ?_, rfl, hpass, ?_⟩
  all_goals
    rw [State.started, passDone_eq]
    rfl

/-- Settles O23: ENG.EXIT is its announcement; ENG.IDLE has no action. -/
theorem engineExitIdle : Obligations.EngineExitIdle := by
  refine fun s hw => ⟨fun hn ht => ?_, ?_, fun hp hl ha hfn hst => step_idle hp ha hl hw hfn hst⟩
  · exact perform_runs (.announce (by rw [ht]; decide) .idle) hw hw hn
  · exact perform_nothing (a := .engine) hw

end Sys2Proof.Proofs

/-! PROOF. No rule uses a received value (O58): states that differ only in received bytes stay so under every action,
every operation and every turn. -/

namespace Sys2Proof.Machine

/-! ### States that differ in received bytes only -/

theorem sameButReceived_iff {s u : State} :
    sameButReceived s u ↔ ∃ q : List Byte, q.length = s.rxq.length ∧ u = { s with rxq := q } :=
  ⟨fun ⟨hu, hq⟩ => ⟨u.rxq, hq, hu⟩, fun ⟨_, hq, hu⟩ => hu ▸ ⟨rfl, hq⟩⟩

theorem sameButReceived.setWork {s u : State} (h : sameButReceived s u) (a : Agent) (ts : List Task) :
    sameButReceived (s.setWork a ts) (u.setWork a ts) := by
  obtain ⟨q, hq, rfl⟩ := sameButReceived_iff.1 h
  cases a <;> exact ⟨rfl, hq⟩

/-- What does not read the received bytes is the same of both. -/
theorem sameButReceived.apply_eq {α : Type} {f : State → α} {s u : State} (h : sameButReceived s u)
    (hf : ∀ q, f { s with rxq := q } = f s) : f u = f s := by
  rw [h.1, hf]

theorem sameButReceived.work_eq {s u : State} (h : sameButReceived s u) (a : Agent) : u.work a = s.work a :=
  h.apply_eq (f := (·.work a)) fun _ => by cases a <;> rfl

theorem sameButReceived.push {s u : State} (h : sameButReceived s u) (a : Agent) (ts : List Task) :
    sameButReceived (s.push a ts) (u.push a ts) := by
  rw [State.push_eq, State.push_eq, h.work_eq]
  exact h.setWork a _

/-- A turn brings the same bytes to both. -/
theorem sameButReceived.inTurn {s u : State} (h : sameButReceived s u) : sameButReceived s.inTurn u.inTurn := by
  obtain ⟨q, hq, rfl⟩ := sameButReceived_iff.1 h
  have hlen : (q ++ s.nextTurn.rx).length = (s.rxq ++ s.nextTurn.rx).length := by
    simp [hq]
  unfold State.inTurn State.takeTurn State.beginTurn
  cases hin : s.inputs
  all_goals
    simp only [State.nextTurn, hin] at hlen ⊢
    exact ⟨rfl, hlen⟩

/-! ### Actions -/

/-- What one action does in two such states: to both the same, and the states it leaves are such states again. -/
inductive ActsAlike : Act → Act → Prop
  | done {s u : State} (h : sameButReceived s u) : ActsAlike (.done s) (.done u)
  | wait : ActsAlike .wait .wait
  | fault (f : Fault) : ActsAlike (.fault f) (.fault f)
  | refuse (r : Refusal) : ActsAlike (.refuse r) (.refuse r)

/-- A branch on something other than the received bytes. -/
theorem rel_ite {α : Type} {R : α → α → Prop} {c : Prop} [Decidable c] {x y x' y' : α} (hx : R x x')
    (hy : R y y') : R (if c then x else y) (if c then x' else y') := by
  split
  · exact hx
  · exact hy

/-- The drain tells only whether there is a received byte, and discards it (R95, R96). -/
theorem drainAct_alike (a : Agent) {s u : State} (h : sameButReceived s u) :
    ActsAlike (drainAct a s) (drainAct a u) := by
  obtain ⟨q, hq, rfl⟩ := sameButReceived_iff.1 h
  unfold drainAct
  cases hs : s.rxq with
  | nil =>
    rw [hs] at hq
    rw [List.length_eq_zero_iff.1 hq]
    exact .done ⟨rfl, by rw [hs]⟩
  | cons b r =>
    rw [hs] at hq
    obtain ⟨c, q, rfl⟩ := List.exists_cons_of_length_eq_add_one hq
    exact .done (sameButReceived.push (s := { s with rxq := r }) ⟨rfl, Nat.succ.inj hq⟩ a _)

/-- R98 for the atomic actions: all but the drain branch on other things and leave the receiver alone. -/
theorem act_alike (a : Agent) (t : Task) {s u : State} (h : sameButReceived s u) :
    ActsAlike (act a t s) (act a t u) := by
  obtain ⟨q, hq, rfl⟩ := sameButReceived_iff.1 h
  have pushed : ∀ (v w : State) ts, sameButReceived v w → ActsAlike (.done (v.push a ts)) (.done (w.push a ts)) :=
    fun _ _ ts hvw => .done (hvw.push a ts)
  cases t with
  | drain => exact drainAct_alike a h
  | emit | pass => exact pushed _ _ _ ⟨rfl, hq⟩
  | setDeadline | setFn | goto | setBright | launch | ret => exact .done ⟨rfl, hq⟩
  | drive | derive => exact rel_ite (.done ⟨rfl, hq⟩) (.refuse _)
  | adopt => exact rel_ite (.refuse _) (.done ⟨rfl, hq⟩)
  | send => exact rel_ite (rel_ite (.done ⟨rfl, hq⟩) .wait) (.refuse _)
  | idle => exact rel_ite .wait (.done ⟨rfl, hq⟩)
  | await => exact rel_ite (.done ⟨rfl, hq⟩) .wait
  | announce | loadV1 | loadV2 | storeSf => exact rel_ite (.done ⟨rfl, hq⟩) (.fault _)
  | testRun => exact rel_ite (rel_ite (.done ⟨rfl, hq⟩) (.done ⟨rfl, hq⟩)) (.fault _)
  | words => exact rel_ite (pushed _ _ _ ⟨rfl, hq⟩) (.done ⟨rfl, hq⟩)
  | pollPublish | pollContrast | pollCommand => exact rel_ite (.done ⟨rfl, hq⟩) (pushed _ _ _ ⟨rfl, hq⟩)
  | pollContrastElseCommand => exact rel_ite (pushed _ _ _ ⟨rfl, hq⟩) (pushed _ _ _ ⟨rfl, hq⟩)
  | bytes k bs =>
    cases bs with
    | nil => exact .done h
    | cons b rest => exact pushed _ _ _ ⟨rfl, hq⟩
  | fillPcmd k bs =>
    cases bs with
    | nil => exact .done h
    | cons b rest => exact rel_ite (rel_ite (pushed _ _ _ ⟨rfl, hq⟩) (.fault _)) (.refuse _)
  | nextSubframe fn => fin_cases fn <;> exact .done ⟨rfl, hq⟩
  | flagWrite f v =>
    cases f with
    | threadState => exact rel_ite (.done ⟨rfl, hq⟩) (.fault _)
    | _ => exact .done ⟨rfl, hq⟩
  | spin f v =>
    cases f with
    | threadState => exact rel_ite (rel_ite (.done h) .wait) (.fault _)
    | _ => exact rel_ite (.done h) .wait
  | drawByte w =>
    refine rel_ite (.done ?_) (.fault _)
    cases w.plane <;> exact ⟨rfl, hq⟩

/-! ### Operations -/

theorem go_alike (a : Agent) (n : Nat) {s u : State} (h : sameButReceived s u) :
    outcomesButReceived (go a n s) (go a n u) := by
  induction n generalizing s u with
  | zero => exact h
  | succ n ih =>
    rw [go, go, h.work_eq]
    cases s.work a with
    | nil => exact h
    | cons t ts =>
      have hact := act_alike a t (h.setWork a ts)
      simp only
      generalize act a t (s.setWork a ts) = x, act a t (u.setWork a ts) = y at hact
      cases hact with
      | done h' => exact ih h'
      | wait => exact h
      | fault f => rfl
      | refuse r => rfl

theorem resume_alike (a : Agent) {s u : State} (h : sameButReceived s u) :
    outcomesButReceived (resume a s) (resume a u) := by
  obtain ⟨q, -, rfl⟩ := sameButReceived_iff.1 h
  exact go_alike a s.budget h

theorem perform_alike (a : Agent) (ts : List Task) {s u : State} (h : sameButReceived s u) :
    outcomesButReceived (perform a ts s) (perform a ts u) :=
  resume_alike a (h.push a ts)

theorem performHost_alike (p : Program) {s u : State} (h : sameButReceived s u) :
    outcomesButReceived (performHost p s) (performHost p u) := by
  have hw : u.hostWork = s.hostWork := h.work_eq .host
  unfold performHost
  rw [hw]
  cases s.hostWork with
  | cons t ts => rfl
  | nil =>
    cases p with
    | next ts => exact perform_alike .host ts h
    | fault f => rfl
    | refused r => rfl

/-- No operation looks at the received bytes to choose its actions. -/
theorem exec_alike (i : Instr) {s u : State} (h : sameButReceived s u) :
    outcomesButReceived (exec i s) (exec i u) := by
  obtain ⟨q, -, rfl⟩ := sameButReceived_iff.1 h
  cases i with
  | enable | disable | isActive | showSync | showAsync | sendCmd | brightness | monoFrame | directCmd | monoContrast
  | modeGray | modeMono | init => exact performHost_alike _ h
  | invert | draw => exact performHost_alike (.next _) h
  | s9 fn => fin_cases fn <;> exact perform_alike .engine _ h
  | _ => exact perform_alike _ _ h

/-! ### Turns -/

/-- What a turn comes to in two such states. -/
inductive FetchesAlike : Fetched → Fetched → Prop
  | goOn (a : Agent) {s u : State} (h : sameButReceived s u) : FetchesAlike (.goOn a s) (.goOn a u)
  | begin (i : Instr) {s u : State} (h : sameButReceived s u) : FetchesAlike (.begin i s) (.begin i u)
  | rest {s u : State} (h : sameButReceived s u) : FetchesAlike (.rest s) (.rest u)
  | fault (f : Fault) : FetchesAlike (.fault f) (.fault f)
  | refuse (r : Refusal) : FetchesAlike (.refuse r) (.refuse r)

theorem fetchEngine_alike {s u : State} (h : sameButReceived s u) : FetchesAlike (fetchEngine s) (fetchEngine u) := by
  have hw : u.engWork = s.engWork := h.work_eq .engine
  have hthread : u.threadState = s.threadState := h.apply_eq fun _ => rfl
  have hseq : u.seqByte = s.seqByte := h.apply_eq fun _ => rfl
  unfold fetchEngine
  rw [hw, hthread, hseq]
  refine rel_ite ?_ (.fault _)
  cases s.engWork with
  | cons t ts => exact .goOn .engine h
  | nil =>
    cases decode [s.seqByte] with
    | ok r => exact .begin r.1 h
    | error e => exact .fault _

theorem fetchHost_alike {s u : State} (h : sameButReceived s u) : FetchesAlike (fetchHost s) (fetchHost u) := by
  have hw : u.hostWork = s.hostWork := h.work_eq .host
  have hprog : u.hostProg = s.hostProg := h.apply_eq fun _ => rfl
  unfold fetchHost
  rw [hw, hprog]
  cases s.hostWork with
  | cons t ts => exact .goOn .host h
  | nil =>
    cases s.hostProg with
    | nil => exact .rest h
    | cons i rest =>
      obtain ⟨q, hq, rfl⟩ := sameButReceived_iff.1 h
      exact rel_ite (.begin i ⟨rfl, hq⟩) (.refuse _)

theorem fetch_alike {s u : State} (h : sameButReceived s u) : FetchesAlike (fetch s) (fetch u) := by
  have hcfg : u.cfg = s.cfg := h.apply_eq fun _ => rfl
  have hturn : u.nextTurn = s.nextTurn := h.apply_eq fun _ => rfl
  unfold fetch
  rw [hcfg, hturn]
  refine rel_ite ?_ (.refuse _)
  cases s.nextTurn.agent with
  | engine => exact fetchEngine_alike h.inTurn
  | host => exact fetchHost_alike h.inTurn

theorem step_alike {s u : State} (h : sameButReceived s u) : outcomesButReceived (step s) (step u) := by
  have hf := fetch_alike h
  unfold step
  generalize fetch s = x, fetch u = y at hf
  cases hf with
  | goOn a h' => exact resume_alike a h'
  | begin i h' => exact exec_alike i h'
  | rest h' => exact h'
  | fault f => rfl
  | refuse r => rfl

end Sys2Proof.Machine

namespace Sys2Proof.Proofs

open Sys2Proof.Machine

/-- Settles O58: every action, every operation and every turn is alike in the two states. -/
theorem receivedBytesUnused : Obligations.ReceivedBytesUnused := fun _ _ => step_alike

end Sys2Proof.Proofs

/-! PROOF. The calls of the HOST: when they are refused (O34), INVERT and ISACTIVE (O32), SHOW and SHOW_ASYNC (O29),
and SENDCMD (O30). -/

namespace Sys2Proof.Machine

/-! ### Calls that do not begin (D31, R134, U3, U4) -/

section
variable {s : State}

theorem performHost_refused (hw : s.hostWork = []) (r : Refusal) : performHost (.refused r) s = .refused r := by
  simp only [performHost, hw]

theorem performHost_fault (hw : s.hostWork = []) (f : Fault) : performHost (.fault f) s = .fault f := by
  simp only [performHost, hw]

/-- In Starting and in Stopping there is no path (R134, U4). -/
theorem choosePath_transitional (h : s.threadState = starting ∨ s.threadState = stopping) (x y : List Task) :
    choosePath s x y = .refused .transitionalState := by
  rcases h with h | h <;> rw [choosePath, h] <;> rfl

/-- A value above 3 is no state of the engine (R13). -/
theorem ne_of_illegalThreadState (h : legalThreadState s.threadState = false) {v : Word}
    (hv : legalThreadState v = true) : s.threadState ≠ v := by
  rintro rfl
  rw [hv] at h
  cases h

/-- Above 3 there is no path either (R13, U3). -/
theorem choosePath_illegal (h : legalThreadState s.threadState = false) (x y : List Task) :
    choosePath s x y = .fault (.illegalThreadState s.threadState) := by
  rw [choosePath, if_neg (ne_of_illegalThreadState h rfl), if_neg (ne_of_illegalThreadState h rfl), h]
  rfl

/-! ### Calls that run to their end, or to their wait -/

variable {t : State} {w : List Task} {c : Nat}

theorem Runs.nil (a : Agent) (s : State) : Runs a 0 s s [] := ⟨0, le_rfl, fun _ _ => rfl⟩

/-- FlagWrite of a word other than THREAD_STATE (R8). -/
theorem Runs.writeFlag {f : Flag} (hf : f ≠ .threadState) (a : Agent) (s : State) (v : Word) :
    Runs a 1 s (s.writeFlag a f v) [.flagWrite f v] := by
  refine .done fun ts => ?_
  cases f with
  | threadState => exact absurd rfl hf
  | _ => cases a <;> rfl

/-- The result handed to the caller. -/
theorem Runs.ret (s : State) (r : Result) : Runs .host 1 s { s with result := r } [.ret r] := .done fun _ => rfl

/-- A call that returns in the turn that begins it. -/
theorem performHost_returns (hw : s.hostWork = []) (hr : Runs .host c s t w) (ht : t.hostWork = [])
    (hn : c + 1 ≤ s.budget) (r : Result) :
    performHost (.next (w ++ [.ret r])) s = .next { t with result := r } := by
  have hrest : ({ t with result := r } : State).work .host = [] := ht
  rw [performHost_next hw, (hr.append (.ret t r)).go_eq hn, State.setWork_nil hrest]

/-- One poll of a word other than THREAD_STATE (R8). -/
theorem act_spin {f : Flag} (hf : f ≠ .threadState) (a : Agent) (v : Word) (s : State) :
    act a (.spin f v) s = if s.flag f = v then .done s else .wait := by
  cases f with
  | threadState => exact absurd rfl hf
  | _ => rfl

@[simp] theorem flag_setWork (s : State) (a : Agent) (ts : List Task) (f : Flag) :
    (s.setWork a ts).flag f = s.flag f := by
  cases f <;> simp [State.flag]

/-- A call that is one flag write, INVERT and SHOW_ASYNC (R126, R128). -/
theorem performHost_flagWrite {f : Flag} (hf : f ≠ .threadState) (hw : s.hostWork = []) (hn : 2 ≤ s.budget)
    (v : Word) :
    performHost (.next [.flagWrite f v, .ret .done]) s = .next { s.writeFlag .host f v with result := .done } :=
  performHost_returns hw (.writeFlag hf .host s v) ((s.writeFlag_hostWork .host f v).trans hw) hn .done

/-- A call that sets its request flag and then waits for the ENGINE to clear it (R129). -/
theorem performHost_request {f : Flag} (hf : f ≠ .threadState) (hw : s.hostWork = []) (hr : Runs .host c s t w)
    (hn : c + 1 ≤ s.budget) :
    performHost (.next (w ++ .flagWrite f 1#32 :: requestWait f)) s =
      .next ((t.writeFlag .host f 1#32).setWork .host (requestWait f)) := by
  have hwait : act .host (.spin f 0#32) ((t.writeFlag .host f 1#32).setWork .host [.ret .done]) = .wait := by
    rw [act_spin hf, flag_setWork, State.flag_writeFlag]
    rfl
  rw [performHost_next hw, List.append_cons]
  exact (hr.append (.writeFlag hf .host t 1#32)).go_wait_eq hwait hn

/-! ### The direct path, and SHOW (R125, R126, R134) -/

/-- The direct path: a group and the return, while Stopped (R134). -/
theorem performHost_direct (hw : s.hostWork = []) (ht : s.threadState = stopped) (hb : s.busReady) {g : Group}
    (hn : s.groupBudget (groupBytes s g).length ≤ s.budget) (x : List Task) (r : Result) :
    performHost (choosePath s x [.emit g, .ret r]) s =
      .next { s.sent (groupDc g) (groupBytes s g) with result := r } := by
  have hm : s.mayDriveBus .host = true := by
    rw [State.mayDriveBus, State.busOwner, ht]
    rfl
  rw [choosePath_stopped ht]
  exact performHost_returns hw (.emit hm hb g) hw hn r

/-- SHOW while Running sets COPY_PENDING and waits (R125). -/
theorem exec_show_running (hw : s.hostWork = []) (ht : s.threadState = running) (hn : 1 ≤ s.budget) :
    exec .showSync s =
      .next ((s.writeFlag .host .copyPending 1#32).setWork .host (requestWait .copyPending)) := by
  show performHost (choosePath s _ _) s = _
  rw [choosePath_running ht]
  exact performHost_request (by decide) hw (.nil .host s) hn

/-! ### The command buffer (R127) -/

/-- The bytes written from an offset on, ascending. -/
def Memory.fill : Memory → Nat → List Byte → Memory
  | m, _, [] => m
  | m, k, b :: bs => Memory.fill (Memory.write m k b) (k + 1) bs

/-- What every offset reads as after a fill. -/
theorem Memory.read_fill (bs : List Byte) {m : Memory} (h : Memory.wf m = true) (k i : Nat) :
    Memory.read (Memory.fill m k bs) i = if k ≤ i then bs.getD (i - k) (Memory.read m i) else Memory.read m i := by
  induction bs generalizing m k with
  | nil => simp [Memory.fill]
  | cons b bs ih =>
    rw [Memory.fill, ih (Memory.wf_write h k b), Memory.read_write h]
    rcases Nat.lt_trichotomy i k with hi | rfl | hi
    · rw [if_neg (by omega), if_neg (by omega), if_neg (by omega)]
    · simp
    · have hsub : i - k = i - (k + 1) + 1 := by omega
      rw [if_pos (Nat.succ_le_of_lt hi), if_neg hi.ne', if_pos hi.le, hsub, List.getD_cons_succ]

/-- A fill from the start reads back as the bytes written. -/
theorem Memory.bytes_fill {m : Memory} (h : Memory.wf m = true) (bs : List Byte) :
    Memory.bytes (Memory.fill m 0 bs) bs.length = bs := by
  refine List.ext_getElem (Memory.length_bytes _ _) fun i _ hi => ?_
  simp [Memory.bytes, Memory.read_fill bs h, hi]

/-- The two loops of R127, while PENDING_CMD is clear and as far as PCMD reaches. -/
theorem Runs.fillPcmd (a : Agent) (bs : List Byte) {s : State} (hc : s.pendingCmd = 0#32) {k : Nat}
    (hk : k + bs.length ≤ s.cfg.pcmdLen) :
    Runs a (bs.length + 1) s { s with pcmd := Memory.fill s.pcmd k bs } [.fillPcmd k bs] := by
  induction bs generalizing s k with
  | nil => exact .done fun _ => by cases a <;> rfl
  | cons b bs ih =>
    rw [List.length_cons] at hk
    refine .push (fun ts => ?_) (ih (s := { s with pcmd := Memory.write s.pcmd k b }) hc (by simp; omega))
    have hin : inRegion s.cfg .pcmd k 1 = true := decide_eq_true (by simp [regionSize]; omega)
    cases a <;> simp [act, fillPcmdAct, hc, hin, State.push_eq] <;> rfl

theorem length_paddedCommand {p : Config.Params} {c : List Byte} (h : c.length ≤ p.pcmdLen) :
    (paddedCommand p c).length = p.pcmdLen := by
  simp [paddedCommand, h]

/-- Byte i of the padded command (R68). -/
theorem getD_paddedCommand {p : Config.Params} (c : List Byte) {i : Nat} (h : i < p.pcmdLen) (x : Byte) :
    (paddedCommand p c).getD i x = c.getD i p.cmdNop := by
  rw [paddedCommand]
  rcases Nat.lt_or_ge i c.length with hi | hi
  · rw [List.getD_append _ _ _ _ hi, List.getD_eq_getElem _ _ hi, List.getD_eq_getElem _ _ hi]
  · rw [List.getD_append_right _ _ _ _ hi, List.getD_eq_default _ _ hi, List.getD_replicate _ (by omega)]

/-- The state when SENDCMD has filled PCMD. -/
def State.filled (s : State) (c : List Byte) : State :=
  { s with pcmd := Memory.fill s.pcmd 0 (paddedCommand s.cfg c) }

/-- SENDCMD of a command that fits, while Running with PENDING_CMD clear (R127). -/
theorem exec_sendCmd_running {c : List Byte} (hw : s.hostWork = []) (ht : s.threadState = running)
    (hc : c.length ≤ s.cfg.pcmdLen) (hp : s.pendingCmd = 0#32) (hn : s.cfg.pcmdLen + 2 ≤ s.budget) :
    exec (.sendCmd c) s =
      .next (((s.filled c).writeFlag .host .pendingCmd 1#32).setWork .host (requestWait .pendingCmd)) := by
  have hlen := length_paddedCommand hc
  have hfill := Runs.fillPcmd .host (paddedCommand s.cfg c) hp (k := 0) (by omega)
  show performHost (choosePath s (sendActiveTasks s.cfg c) _) s = _
  rw [choosePath_running ht, sendActiveTasks, if_neg (Nat.not_lt.2 hc)]
  exact performHost_request (by decide) hw hfill (by omega)

/-- SENDCMD while PENDING_CMD is set already: the HOST may not write PCMD (R54, R208; log 14). -/
theorem exec_sendCmd_refused {c : List Byte} (hw : s.hostWork = []) (ht : s.threadState = running)
    (hc : c.length ≤ s.cfg.pcmdLen) (hlen : 1 ≤ s.cfg.pcmdLen) (hp : s.pendingCmd ≠ 0#32) (hn : 1 ≤ s.budget) :
    exec (.sendCmd c) s = .refused .ownership := by
  obtain ⟨b, bs, hpad⟩ : ∃ b bs, paddedCommand s.cfg c = b :: bs := by
    refine List.exists_cons_of_length_pos ?_
    rwa [length_paddedCommand hc]
  have hfirst : ∀ ts, act .host (.fillPcmd 0 (b :: bs)) (s.setWork .host ts) = .refuse .ownership :=
    fun _ => if_neg hp
  obtain ⟨n, hbudget⟩ := Nat.exists_eq_add_of_le' hn
  show performHost (choosePath s (sendActiveTasks s.cfg c) _) s = _
  rw [choosePath_running ht, sendActiveTasks, if_neg (Nat.not_lt.2 hc), performHost_next hw, hpad, hbudget]
  exact go_refuse (hfirst _) n

end

end Sys2Proof.Machine

namespace Sys2Proof.Proofs

open Sys2Proof.Machine

/-- Settles O34: the HOST is busy, or the choice of a path fails. -/
theorem hostRefusals : Obligations.HostRefusals := by
  refine fun s => ⟨fun hw i hi => ?_, fun hw ht => ?_, fun hw ht => ?_⟩
  · rw [exec_hostCall hi, performHost_busy hw]
  · have refused : ∀ x y, performHost (choosePath s x y) s = .refused .transitionalState := fun x y => by
      rw [choosePath_transitional ht, performHost_refused hw]
    exact ⟨refused _ _, refused _ _, refused _ _, fun _ => refused _ _, fun _ => refused _ _⟩
  · have hl : legalThreadState s.threadState = false := by
      simpa [legalThreadState] using ht
    have faults : ∀ p : Program, p = .fault (.illegalThreadState s.threadState) →
        performHost p s = .fault (.illegalThreadState s.threadState) := fun p hp => by
      rw [hp, performHost_fault hw]
    have noPath := fun x y => faults _ (choosePath_illegal hl x y)
    refine ⟨noPath _ _, faults _ ?_, faults _ ?_, noPath _ _, noPath _ _, fun _ => noPath _ _, fun _ => noPath _ _⟩
    · rw [if_neg (ne_of_illegalThreadState hl rfl), hl]
      rfl
    · rw [hl]
      rfl

/-- Settles O32: INVERT is its flag write, and ISACTIVE its answer. -/
theorem invertIsActive : Obligations.InvertIsActive := by
  refine fun v s hw hn => ⟨?_, fun hl => ?_⟩
  · exact performHost_flagWrite (f := .invert) (by decide) hw hn _
  · have hlegal := legalThreadState_iff.2 hl
    show performHost (if legalThreadState s.threadState = true then _ else _) s = _
    rw [if_pos hlegal]
    exact performHost_returns hw (.nil .host s) hw (Nat.le_of_succ_le hn) _

/-- Settles O29: the request while Running, the group MONOFRAME while Stopped. -/
theorem showPaths : Obligations.ShowPaths := by
  refine fun s hw => ⟨fun ht hn => ⟨?_, ?_⟩, fun ht hb hn => ?_⟩
  · show performHost (choosePath s _ _) s = _
    rw [choosePath_running ht]
    exact performHost_flagWrite (f := .copyPending) (by decide) hw hn _
  · exact exec_show_running hw ht (Nat.le_of_succ_le hn)
  · have hlen : (groupBytes s .monoFrame).length = s.cfg.planeBytes := Memory.length_bytes _ _
    rw [← hlen] at hn
    exact ⟨performHost_direct hw ht hb hn _ _, performHost_direct hw ht hb hn _ _⟩

/-- Settles O30: the fill and the request, the group DIRECTCMD, or the refusal of the fill's first write. -/
theorem sendCmdPaths : Obligations.SendCmdPaths := by
  refine fun c s hw => ⟨fun ht hc hp hm hn => ?_, fun ht hb hn => ?_, fun ht hc hlen hp hn => ?_⟩
  · refine ⟨_, exec_sendCmd_running hw ht hc hp (Nat.le_of_succ_le hn), fun i hi => ?_, rfl⟩
    have hread := Memory.read_fill (paddedCommand s.cfg c) (hm .pcmd).1 0 i
    rwa [if_pos (Nat.zero_le i), Nat.sub_zero, getD_paddedCommand c hi] at hread
  · exact performHost_direct hw ht hb (g := .directCmd c) hn _ _
  · exact exec_sendCmd_refused hw ht hc hlen hp hn

end Sys2Proof.Proofs

/-! PROOF. The channels on the ENGINE's side: each served on its own (O35, O36), and SERVICE as a whole (O19). -/

namespace Sys2Proof.Machine

/-! ### A channel served (R131 to R133) -/

/-- The state after SVC.PUBLISH. -/
def State.published (s : State) : State := s.passDone.writeFlag .engine .copyPending 0#32

/-- The state after SVC.CONTRAST. -/
def State.adopted (s : State) : State :=
  ({ s with wcon := s.pcon } : State).writeFlag .engine .contrastPending 0#32

/-- The state after SVC.COMMAND. -/
def State.injected (s : State) : State :=
  (s.sent false (groupBytes s .inject)).writeFlag .engine .pendingCmd 0#32

theorem Runs.publish (s : State) : Runs .engine (4 * s.cfg.planeWords + 3) s s.published svcPublishTasks :=
  (Runs.pass s).append (.clearFlag (by decide) _)

theorem Runs.contrast (s : State) : Runs .engine 4 s s.adopted svcContrastTasks :=
  (Runs.adopt s).append (.clearFlag (by decide) _)

theorem Runs.command {s : State} (hb : s.busReady) :
    Runs .engine (3 * s.cfg.pcmdLen + s.rxq.length + 6) s s.injected svcCommandTasks := by
  have hemit := Runs.emit (a := .engine) rfl hb .inject
  rw [groupBytes, Memory.length_bytes] at hemit
  exact hemit.append (.clearFlag (by decide) _)

/-- What SVC.PUBLISH changes, and nothing else (R131). -/
theorem published_eq (s : State) :
    s.published = { s with
      copyPending := 0#32, sf0 := s.published.sf0, sf1 := s.published.sf1, sf2 := s.published.sf2
      wi := s.published.wi, mask := s.published.mask, v1 := s.published.v1, v2 := s.published.v2
      races := s.published.races } := by
  rw [State.published, passDone_eq]
  rfl

/-- The buffers after SVC.PUBLISH are the transform of the planes seen (R86). -/
theorem published_consistent {s : State} (hwf : ∀ j, Memory.wf (s.region (.sf j)) = true)
    (hp : s.cfg.planeBytes % 4 = 0) : consistentWith s.published (s.seen .a) (s.seen .b) s.invert :=
  passDone_consistent hwf hp

/-! ### A channel polled (R130) -/

/-- The state after a poll of a request flag that the ENGINE answers by `serve`. -/
def State.polled (s : State) (f : Flag) (serve : State → State) : State :=
  if s.flag f = 0#32 then s.acquire f else serve (s.acquire f)

/-- The state after the poll of COPY_PENDING. -/
def State.publishPolled (s : State) : State := s.polled .copyPending State.published

/-- The state after the poll of CONTRAST_PENDING. -/
def State.contrastPolled (s : State) : State := s.polled .contrastPending State.adopted

/-- The state after the poll of PENDING_CMD. -/
def State.commandPolled (s : State) : State := s.polled .pendingCmd State.injected

theorem Runs.publishPolled (s : State) :
    Runs .engine (4 * s.cfg.planeWords + 4) s s.publishPolled [.pollPublish] :=
  .poll (fun _ => rfl) (.publish (s.acquire .copyPending))

theorem Runs.contrastPolled (s : State) : Runs .engine 5 s s.contrastPolled [.pollContrast] :=
  .poll (fun _ => rfl) (.contrast (s.acquire .contrastPending))

theorem Runs.commandPolled {s : State} (hb : s.busReady) :
    Runs .engine (3 * s.cfg.pcmdLen + s.rxq.length + 7) s s.commandPolled [.pollCommand] :=
  .poll (fun _ => rfl) (.command (s := s.acquire .pendingCmd) hb)

section
variable {s : State}

theorem polled_of_clear {f : Flag} (h : s.flag f = 0#32) (serve : State → State) :
    s.polled f serve = s.acquire f := if_pos h

theorem polled_of_set {f : Flag} (h : s.flag f ≠ 0#32) (serve : State → State) :
    s.polled f serve = serve (s.acquire f) := if_neg h

theorem publishPolled_of_clear (h : s.copyPending = 0#32) : s.publishPolled = s.acquire .copyPending :=
  polled_of_clear (f := .copyPending) h _

theorem publishPolled_of_set (h : s.copyPending ≠ 0#32) : s.publishPolled = (s.acquire .copyPending).published :=
  polled_of_set (f := .copyPending) h _

theorem contrastPolled_of_clear (h : s.contrastPending = 0#32) : s.contrastPolled = s.acquire .contrastPending :=
  polled_of_clear (f := .contrastPending) h _

theorem contrastPolled_of_set (h : s.contrastPending ≠ 0#32) :
    s.contrastPolled = (s.acquire .contrastPending).adopted :=
  polled_of_set (f := .contrastPending) h _

theorem commandPolled_of_clear (h : s.pendingCmd = 0#32) : s.commandPolled = s.acquire .pendingCmd :=
  polled_of_clear (f := .pendingCmd) h _

/-- The poll of PENDING_CMD, set: PCMD goes out and the flag is cleared (R133). -/
theorem commandPolled_of_set (h : s.pendingCmd ≠ 0#32) :
    s.commandPolled = { s.sent false (Memory.bytes s.pcmd s.cfg.pcmdLen) with
      pendingCmd := 0#32, races := s.commandPolled.races } := by
  have hpolled : s.commandPolled = (s.acquire .pendingCmd).injected := polled_of_set (f := .pendingCmd) h _
  rw [hpolled]
  rfl

/-- What the poll of COPY_PENDING changes, and nothing else. -/
theorem publishPolled_eq (s : State) :
    s.publishPolled = { s with
      copyPending := 0#32, sf0 := s.publishPolled.sf0, sf1 := s.publishPolled.sf1, sf2 := s.publishPolled.sf2
      wi := s.publishPolled.wi, mask := s.publishPolled.mask, v1 := s.publishPolled.v1, v2 := s.publishPolled.v2
      races := s.publishPolled.races } := by
  by_cases h : s.copyPending = 0#32
  · rw [publishPolled_of_clear h, ← h]
    rfl
  · rw [publishPolled_of_set h, published_eq]
    rfl

/-- What the poll of CONTRAST_PENDING changes, and nothing else. -/
theorem contrastPolled_eq (s : State) :
    s.contrastPolled = { s with
      contrastPending := 0#32, wcon := if s.contrastPending = 0#32 then s.wcon else s.pcon
      races := s.contrastPolled.races } := by
  by_cases h : s.contrastPending = 0#32
  · rw [contrastPolled_of_clear h, if_pos h, ← h]
    rfl
  · rw [contrastPolled_of_set h, if_neg h]
    rfl

/-! ### SERVICE (R130) -/

/-- The state after the polls of COPY_PENDING and CONTRAST_PENDING. -/
def State.displayPolled (s : State) : State := s.publishPolled.contrastPolled

/-- The state after SERVICE: under CONTRAST_OR_COMMAND a pending contrast update puts the command off. -/
def State.serviced (s : State) : State :=
  if s.cfg.policy = .contrastOrCommand ∧ s.contrastPending ≠ 0#32 then s.displayPolled
  else s.displayPolled.commandPolled

/-- What the two polls change, and nothing else. -/
theorem displayPolled_eq (s : State) :
    s.displayPolled = { s with
      copyPending := 0#32, sf0 := s.publishPolled.sf0, sf1 := s.publishPolled.sf1, sf2 := s.publishPolled.sf2
      wi := s.publishPolled.wi, mask := s.publishPolled.mask, v1 := s.publishPolled.v1, v2 := s.publishPolled.v2
      contrastPending := 0#32, wcon := if s.contrastPending = 0#32 then s.wcon else s.pcon
      races := s.displayPolled.races } := by
  rw [State.displayPolled, contrastPolled_eq, publishPolled_eq]

/-- The branch of CONTRAST_OR_COMMAND (R130). -/
theorem Runs.contrastElseCommand (hb : s.busReady) :
    Runs .engine (3 * s.cfg.pcmdLen + s.rxq.length + 8) s
      (if s.contrastPending = 0#32 then s.contrastPolled.commandPolled else s.contrastPolled)
      [.pollContrastElseCommand] := by
  split
  · next h =>
    rw [contrastPolled_of_clear h]
    refine .push (fun _ => ?_) (.commandPolled (s := s.acquire .contrastPending) hb)
    exact if_pos h
  · next h =>
    rw [contrastPolled_of_set h]
    refine (Runs.push (fun _ => ?_) (.contrast (s.acquire .contrastPending))).mono (by omega)
    exact if_neg h

/-- SERVICE under both policies (R130), with a ready transmitter. -/
theorem Runs.service (hb : s.busReady) :
    Runs .engine (4 * s.cfg.planeWords + 3 * s.cfg.pcmdLen + s.rxq.length + 16) s s.serviced
      (serviceTasks s.cfg.policy) := by
  have hpublish := Runs.publishPolled s
  have hcfg : s.publishPolled.cfg = s.cfg := by rw [publishPolled_eq]
  have hrxq : s.publishPolled.rxq = s.rxq := by rw [publishPolled_eq]
  have hready : s.publishPolled.busReady := by rwa [publishPolled_eq]
  cases hp : s.cfg.policy with
  | allInOrder =>
    have hready' : s.displayPolled.busReady := by rwa [displayPolled_eq]
    have hcommand := Runs.commandPolled hready'
    have hcfg' : s.displayPolled.cfg = s.cfg := by rw [displayPolled_eq]
    have hrxq' : s.displayPolled.rxq = s.rxq := by rw [displayPolled_eq]
    rw [hcfg', hrxq'] at hcommand
    rw [State.serviced, if_neg (by simp [hp])]
    exact ((hpublish.append (.contrastPolled _)).append hcommand).mono (by omega)
  | contrastOrCommand =>
    have hbranch := Runs.contrastElseCommand hready
    have hcon : s.publishPolled.contrastPending = s.contrastPending := by rw [publishPolled_eq]
    have hstate : s.serviced = if s.contrastPending = 0#32 then s.displayPolled.commandPolled else s.displayPolled := by
      simp only [State.serviced, hp, true_and, ite_not]
    rw [hcfg, hrxq, hcon] at hbranch
    rw [hstate]
    exact (hpublish.append hbranch).mono (by omega)

/-- With the command served, its bytes go out after the other two channels' service (R130, R133). -/
theorem serviced_of_commandServed (h : s.commandServed) :
    s.serviced = { s.displayPolled.sent false (Memory.bytes s.pcmd s.cfg.pcmdLen) with
      pendingCmd := 0#32, races := s.serviced.races } := by
  obtain ⟨hset, hpolicy⟩ := h
  have hset' : s.displayPolled.pendingCmd ≠ 0#32 := by rwa [displayPolled_eq]
  have hcfg : s.displayPolled.cfg = s.cfg := by rw [displayPolled_eq]
  have hpcmd : s.displayPolled.pcmd = s.pcmd := by rw [displayPolled_eq]
  rw [State.serviced, if_neg hpolicy, commandPolled_of_set hset', hpcmd, hcfg]

/-- Without the command, SERVICE is the other two channels' (R130). -/
theorem serviced_of_not_commandServed (h : ¬ s.commandServed) :
    s.serviced = { s.displayPolled with races := s.serviced.races } := by
  rw [State.serviced]
  split
  · rfl
  · next hpolicy =>
    have hclear : s.displayPolled.pendingCmd = 0#32 := by
      rw [displayPolled_eq]
      exact not_not.1 fun hset => h ⟨hset, hpolicy⟩
    rw [commandPolled_of_clear hclear]
    rfl

/-- What SERVICE changes, and nothing else (R130). -/
theorem serviced_eq (s : State) :
    s.serviced = { s with
      copyPending := 0#32, sf0 := s.publishPolled.sf0, sf1 := s.publishPolled.sf1, sf2 := s.publishPolled.sf2
      wi := s.publishPolled.wi, mask := s.publishPolled.mask, v1 := s.publishPolled.v1, v2 := s.publishPolled.v2
      contrastPending := 0#32, wcon := if s.contrastPending = 0#32 then s.wcon else s.pcon
      pendingCmd := s.serviced.pendingCmd, dc := s.serviced.dc, bi := s.serviced.bi, trace := s.serviced.trace
      rxq := s.serviced.rxq, races := s.serviced.races } := by
  by_cases h : s.commandServed
  · rw [serviced_of_commandServed h, displayPolled_eq]
    rfl
  · rw [serviced_of_not_commandServed h, displayPolled_eq]

@[simp] theorem serviced_cfg (s : State) : s.serviced.cfg = s.cfg := by rw [serviced_eq]
@[simp] theorem serviced_copyPending (s : State) : s.serviced.copyPending = 0#32 := by rw [serviced_eq]
@[simp] theorem serviced_contrastPending (s : State) : s.serviced.contrastPending = 0#32 := by rw [serviced_eq]
@[simp] theorem serviced_planeA (s : State) : s.serviced.planeA = s.planeA := by rw [serviced_eq]
@[simp] theorem serviced_planeB (s : State) : s.serviced.planeB = s.planeB := by rw [serviced_eq]
@[simp] theorem serviced_bright (s : State) : s.serviced.bright = s.bright := by rw [serviced_eq]
@[simp] theorem serviced_pcon (s : State) : s.serviced.pcon = s.pcon := by rw [serviced_eq]
@[simp] theorem serviced_wcon (s : State) :
    s.serviced.wcon = if s.contrastPending = 0#32 then s.wcon else s.pcon := by rw [serviced_eq]
@[simp] theorem serviced_engWork (s : State) : s.serviced.engWork = s.engWork := by rw [serviced_eq]
@[simp] theorem serviced_hostWork (s : State) : s.serviced.hostWork = s.hostWork := by rw [serviced_eq]
@[simp] theorem serviced_inputs (s : State) : s.serviced.inputs = s.inputs := by rw [serviced_eq]

/-- What a served command does to its flag, the bus and the receiver (R133). -/
theorem serviced_command (h : s.commandServed) :
    s.serviced.pendingCmd = 0#32 ∧ s.serviced.dc = false ∧ s.serviced.rxq = [] ∧
      s.serviced.trace = s.trace ++ traceOf false (Memory.bytes s.pcmd s.cfg.pcmdLen) := by
  rw [serviced_of_commandServed h, displayPolled_eq]
  exact ⟨rfl, rfl, rfl, rfl⟩

/-- Without one they are left alone. -/
theorem serviced_noCommand (h : ¬ s.commandServed) :
    s.serviced.pendingCmd = s.pendingCmd ∧ s.serviced.trace = s.trace ∧ s.serviced.dc = s.dc ∧
      s.serviced.bi = s.bi ∧ s.serviced.rxq = s.rxq := by
  rw [serviced_of_not_commandServed h, displayPolled_eq]
  exact ⟨rfl, rfl, rfl, rfl, rfl⟩

/-- The transform is a matter of the subframe buffers alone (R86). -/
theorem consistentWith_congr {t : State} {ma mb : Memory} {inv : Word} (hc : t.cfg = s.cfg)
    (hr : ∀ k, t.region (.sf k) = s.region (.sf k)) (h : consistentWith s ma mb inv) : consistentWith t ma mb inv := by
  simpa only [consistentWith, State.byteAt, hc, hr] using h

/-- A publish served leaves the transform of the planes seen after the read of COPY_PENDING (R86, R131). -/
theorem serviced_consistent (hwf : ∀ j, Memory.wf (s.region (.sf j)) = true) (hp : s.cfg.planeBytes % 4 = 0)
    (h : s.copyPending ≠ 0#32) :
    consistentWith s.serviced ((s.acquire .copyPending).seen .a) ((s.acquire .copyPending).seen .b) s.invert := by
  refine consistentWith_congr ?_ (fun k => ?_) (published_consistent (s := s.acquire .copyPending) hwf hp)
  · rw [← publishPolled_of_set h, serviced_cfg, publishPolled_eq]
  · rw [← publishPolled_of_set h, serviced_eq]
    fin_cases k <;> rfl

/-- Without one the buffers and the temporaries of the pass are left alone. -/
theorem serviced_noPublish (h : s.copyPending = 0#32) :
    s.serviced.sf0 = s.sf0 ∧ s.serviced.sf1 = s.sf1 ∧ s.serviced.sf2 = s.sf2 ∧
      s.serviced.wi = s.wi ∧ s.serviced.mask = s.mask ∧ s.serviced.v1 = s.v1 ∧ s.serviced.v2 = s.v2 := by
  rw [serviced_eq, publishPolled_of_clear h]
  exact ⟨rfl, rfl, rfl, rfl, rfl, rfl, rfl⟩

/-- S9 of subframe 2 is SERVICE and the next position (R111). -/
theorem exec_boundary (hw : s.engWork = []) (hb : s.busReady)
    (hn : 4 * s.cfg.planeWords + 3 * s.cfg.pcmdLen + s.rxq.length + 17 ≤ s.budget) :
    exec (.s9 2) s = .next { s.serviced with stepCode := 10#4 } :=
  perform_runs ((Runs.service hb).append (.done fun _ => rfl)) hw ((serviced_engWork s).trans hw) hn

end

end Sys2Proof.Machine

namespace Sys2Proof.Proofs

open Sys2Proof.Machine

/-- Settles O35: the state after SVC.PUBLISH is `State.published`. -/
theorem servePublish : Obligations.ServePublish := by
  intro s hw hm hp hn
  have hwork : s.published.work .engine = [] := (passDone_engWork s).trans hw
  rw [passBudget] at hn
  exact ⟨_, perform_runs (.publish s) hw hwork (by omega), rfl, published_consistent (fun _ => (hm _).1) hp,
    published_eq s⟩

/-- Settles O36: the states after the two are `State.adopted` and `State.injected`. -/
theorem serveContrastCommand : Obligations.ServeContrastCommand := by
  refine fun s hw => ⟨fun hn => ?_, fun hb hn => ?_⟩
  · exact perform_runs (.contrast s) hw hw hn
  · exact perform_runs (.command hb) hw hw hn

/-- Settles O19: the state after S9 is `State.serviced` at the next position. -/
theorem boundaryService : Obligations.BoundaryService := by
  intro s hw hb hm hp hn
  rw [passBudget, State.groupBudget] at hn
  refine ⟨_, exec_boundary hw hb (by omega), rfl, serviced_copyPending s, serviced_contrastPending s,
    serviced_consistent (fun _ => (hm _).1) hp, serviced_noPublish, fun h => ?_, fun h => ?_, serviced_command,
    serviced_noCommand, ?_⟩
  · exact (serviced_wcon s).trans (if_neg h)
  · exact (serviced_wcon s).trans (if_pos h)
  · rw [serviced_eq]

end Sys2Proof.Proofs

/-! PROOF. A request made just before the boundary: the HOST calls, the ENGINE serves, the HOST returns (O37 to
O39). -/

namespace Sys2Proof.Machine

/-- A plane is whole words (R45, R214). -/
theorem planeBytes_of_paramsOk {p : Config.Params} (h : paramsOk p = true) : p.planeBytes % 4 = 0 := by
  simp only [paramsOk, Bool.and_eq_true, beq_iff_eq] at h
  obtain ⟨⟨⟨hwords, -⟩, -⟩, -⟩ := h
  exact hwords

/-! ### The three turns (R137) -/

section
variable {s u : State} {f : Flag} {i : Instr} {h e r : Turn} {rest : List Turn} {prog : List Instr}

/-- The ENGINE runs and is about to begin S9 of subframe 2, the HOST about to call `i`, the turns of a request to
come. -/
structure State.aboutToCall (s : State) (i : Instr) (prog : List Instr) (h e r : Turn) (rest : List Turn) : Prop where
  params : paramsOk s.cfg = true
  threadState : s.threadState = running
  fn : s.fn = 2#2
  stepCode : s.stepCode = 9#4
  rxq : s.rxq = []
  engWork : s.engWork = []
  hostWork : s.hostWork = []
  hostProg : s.hostProg = i :: prog
  inputs : s.inputs = h :: e :: r :: rest
  turns : servedTurns s.cfg h e r

/-- The state in which the HOST's turn performs the call, `prog` being the calls after it. -/
def State.calling (s : State) (prog : List Instr) : State := { s.inTurn with hostProg := prog }

theorem State.aboutToCall.calling_hostWork (hs : s.aboutToCall i prog h e r rest) : (s.calling prog).hostWork = [] :=
  s.inTurn_hostWork.trans hs.hostWork

theorem State.aboutToCall.calling_threadState (hs : s.aboutToCall i prog h e r rest) :
    (s.calling prog).threadState = running :=
  s.inTurn_threadState.trans hs.threadState

theorem State.aboutToCall.calling_budget (hs : s.aboutToCall i prog h e r rest) :
    s.cfg.pcmdLen + 8 ≤ (s.calling prog).budget := by
  obtain ⟨-, hbudget, -⟩ := hs.turns
  show _ ≤ s.nextTurn.budget
  rwa [State.nextTurn, hs.inputs]

/-- `u` is `s` waiting for the request `f`, but for what a request may write. -/
def State.requested (u s : State) (f : Flag) : Prop :=
  u = { s with
    pcmd := u.pcmd, pcon := u.pcon, bright := u.bright, copyPending := u.copyPending, pendingCmd := u.pendingCmd
    contrastPending := u.contrastPending, races := u.races, hostWork := requestWait f }

/-- The state after the ENGINE's turn at the boundary and the HOST's return. -/
def State.returned (u : State) : State :=
  { ({ u.inTurn.serviced with stepCode := 10#4 } : State).inTurn with hostWork := [], result := .done }

/-- The HOST's turn that finds its request served returns (R129). -/
theorem step_return (hf : f ≠ .threadState) (hp : paramsOk u.cfg = true) (ha : u.nextTurn.agent = .host)
    (hn : 2 ≤ u.nextTurn.budget) (hw : u.hostWork = requestWait f) (hserved : u.flag f = 0#32) :
    step u = .next { u.inTurn with hostWork := [], result := .done } := by
  have hspin : Runs .host 1 u.inTurn u.inTurn [.spin f 0#32] :=
    .done fun ts => by rw [act_spin hf, flag_setWork, State.inTurn_flag, if_pos hserved]
  have hwork : u.inTurn = u.inTurn.setWork .host (requestWait f) := by
    rw [← hw, ← State.inTurn_hostWork, ← State.work_host, State.setWork_work]
  rw [step_host_goOn hp ha (by rw [hw]; exact List.cons_ne_nil _ _), hwork]
  exact (hspin.append (.ret u.inTurn .done)).go_eq hn

/-- The ENGINE's turn at the boundary (R26, R111). -/
theorem step_service (hp : paramsOk u.cfg = true) (ha : u.nextTurn.agent = .engine) (ht : u.threadState = running)
    (hfn : u.fn = 2#2) (hst : u.stepCode = 9#4) (hw : u.engWork = []) (hb : u.inTurn.busReady)
    (hn : 4 * u.cfg.planeWords + 3 * u.cfg.pcmdLen + u.inTurn.rxq.length + 17 ≤ u.nextTurn.budget) :
    step u = .next { u.inTurn.serviced with stepCode := 10#4 } := by
  have hl : legalThreadState u.threadState = true := by rw [ht]; rfl
  have hd : decode [u.seqByte] = .ok (.s9 2, []) := by
    rw [decode_seqByte, hfn, hst]
    rfl
  rw [step_engine_begin hp ha hl hw hd]
  exact exec_boundary (by rwa [State.inTurn_engWork]) hb (by rwa [State.inTurn_cfg])

/-- The three turns, when the boundary serves the request the call has made (R137). -/
theorem run_request (hf : f ≠ .threadState) (hs : s.aboutToCall i prog h e r rest) (hi : isHostCall i = true)
    (hcall : exec i (s.calling prog) = .next u) (hu : u.requested (s.calling prog) f)
    (hserved : u.inTurn.serviced.flag f = 0#32) : core.run 3 s = .next u.returned := by
  obtain ⟨hagent, -, eagent, etnf, ebsy, ebudget, ragent, rbudget⟩ := hs.turns
  have hcalling := State.inTurn_of_inputs hs.inputs
  have hcfg : u.cfg = s.cfg := by rw [hu]; exact s.inTurn_cfg
  have hin : u.inputs = e :: r :: rest := by rw [hu, State.calling, hcalling]
  have hrxq : u.rxq = h.rx := by rw [hu, State.calling, hcalling, hs.rxq]; rfl
  have hturn : u.nextTurn = e := by rw [State.nextTurn, hin]
  have hafter : ({ u.inTurn.serviced with stepCode := 10#4 } : State).nextTurn = r := by
    rw [State.nextTurn, serviced_inputs, State.inTurn_of_inputs hin]
  have hparams : paramsOk u.cfg = true := by rw [hcfg]; exact hs.params
  have first : step s = .next u := by
    rw [step_host_begin hs.params (by rwa [State.nextTurn, hs.inputs]) hs.hostWork hs.hostProg hi]
    exact hcall
  have second : step u = .next { u.inTurn.serviced with stepCode := 10#4 } := by
    refine step_service hparams (by rwa [hturn]) ?_ ?_ ?_ ?_ ⟨?_, ?_⟩ ?_
    · rw [hu]; exact s.inTurn_threadState.trans hs.threadState
    · rw [hu]; exact s.inTurn_fn.trans hs.fn
    · rw [hu]; exact s.inTurn_stepCode.trans hs.stepCode
    · rw [hu]; exact s.inTurn_engWork.trans hs.engWork
    · rwa [State.inTurn_tnf, hturn]
    · rwa [State.inTurn_bsy, hturn]
    · rw [State.inTurn_rxq, hturn, hrxq, hcfg, List.length_append]
      rw [passBudget] at ebudget
      omega
  have third : step { u.inTurn.serviced with stepCode := 10#4 } = .next u.returned := by
    refine step_return hf ?_ (by rwa [hafter]) (by rwa [hafter]) ?_ ?_
    · rwa [serviced_cfg, State.inTurn_cfg]
    · rw [serviced_hostWork, State.inTurn_hostWork, hu]
    · cases f <;> exact hserved
  exact run_append (run_one first) (run_append (run_one second) (run_one third))

end

/-! ### What the boundary has done when the call returns -/

section
variable (u : State)

@[simp] theorem returned_cfg : u.returned.cfg = u.inTurn.serviced.cfg := State.inTurn_cfg _
@[simp] theorem returned_copyPending : u.returned.copyPending = u.inTurn.serviced.copyPending :=
  State.inTurn_copyPending _
@[simp] theorem returned_contrastPending : u.returned.contrastPending = u.inTurn.serviced.contrastPending :=
  State.inTurn_contrastPending _
@[simp] theorem returned_pendingCmd : u.returned.pendingCmd = u.inTurn.serviced.pendingCmd := State.inTurn_pendingCmd _
@[simp] theorem returned_planeA : u.returned.planeA = u.inTurn.serviced.planeA := State.inTurn_planeA _
@[simp] theorem returned_planeB : u.returned.planeB = u.inTurn.serviced.planeB := State.inTurn_planeB _
@[simp] theorem returned_bright : u.returned.bright = u.inTurn.serviced.bright := State.inTurn_bright _
@[simp] theorem returned_pcon : u.returned.pcon = u.inTurn.serviced.pcon := State.inTurn_pcon _
@[simp] theorem returned_wcon : u.returned.wcon = u.inTurn.serviced.wcon := State.inTurn_wcon _
@[simp] theorem returned_trace : u.returned.trace = u.inTurn.serviced.trace := State.inTurn_trace _
@[simp] theorem returned_stepCode : u.returned.stepCode = 10#4 := State.inTurn_stepCode _
@[simp] theorem returned_region (q : Region) : u.returned.region q = u.inTurn.serviced.region q := by
  have hturn : u.returned.region q = ({ u.inTurn.serviced with stepCode := 10#4 } : State).inTurn.region q := by
    cases q <;> rfl
  rw [hturn, State.inTurn_region]
  cases q <;> rfl

end

/-! ### What a request leaves alone -/

section
variable {s u : State} {f : Flag} {prog : List Instr}

theorem State.requested.cfg (hu : u.requested (s.calling prog) f) : u.inTurn.cfg = s.cfg := by
  rw [State.inTurn_cfg, hu]
  exact s.inTurn_cfg

theorem State.requested.invert (hu : u.requested (s.calling prog) f) : u.inTurn.invert = s.invert := by
  rw [State.inTurn_invert, hu]
  exact s.inTurn_invert

theorem State.requested.wcon (hu : u.requested (s.calling prog) f) : u.inTurn.wcon = s.wcon := by
  rw [State.inTurn_wcon, hu]
  exact s.inTurn_wcon

theorem State.requested.trace (hu : u.requested (s.calling prog) f) : u.inTurn.trace = s.trace := by
  rw [State.inTurn_trace, hu]
  exact s.inTurn_trace

theorem State.requested.region (hu : u.requested (s.calling prog) f) {q : Region} (hq : q ≠ .pcmd) :
    u.inTurn.region q = s.region q := by
  rw [State.inTurn_region, hu, ← s.inTurn_region q]
  cases q with
  | pcmd => exact absurd rfl hq
  | sf k => fin_cases k <;> rfl
  | _ => rfl

end

/-! ### The requests made by SHOW, SENDCMD and BRIGHTNESS (R125, R127, R145) -/

section
variable {s : State}

/-- SHOW while Running. -/
theorem show_requests (hw : s.hostWork = []) (ht : s.threadState = running) (hn : 1 ≤ s.budget) :
    ∃ u, exec .showSync s = .next u ∧ u.requested s .copyPending ∧ u.copyPending = 1#32 ∧
      u.races = .released .copyPending :: s.races :=
  ⟨_, exec_show_running hw ht hn, rfl, rfl, rfl⟩

/-- SENDCMD of a command that fits, while Running with PENDING_CMD clear. -/
theorem sendCmd_requests {c : List Byte} (hw : s.hostWork = []) (ht : s.threadState = running)
    (hc : c.length ≤ s.cfg.pcmdLen) (hp : s.pendingCmd = 0#32) (hn : s.cfg.pcmdLen + 2 ≤ s.budget) :
    ∃ u, exec (.sendCmd c) s = .next u ∧ u.requested s .pendingCmd ∧ u.pendingCmd = 1#32 ∧
      u.contrastPending = s.contrastPending ∧ u.pcmd = Memory.fill s.pcmd 0 (paddedCommand s.cfg c) :=
  ⟨_, exec_sendCmd_running hw ht hc hp hn, rfl, rfl, rfl, rfl⟩

/-- A read that meets the HOST's release first leaves no write to miss (R51 (c), R52). -/
theorem seen_acquire_released {s : State} {f : Flag} {l : List Race} (h : s.races = .released f :: l) (p : Plane) :
    (s.acquire f).seen p = s.region (planeRegion p) := by
  have hnone : acquireRaces f s.races = [] := by simp [h, acquireRaces]
  rw [State.seen, State.planeView, State.acquire, State.acquire, hnone]
  rfl

/-- PCON <- DERIVE(BRIGHT) while CONTRAST_PENDING is clear (R145). -/
theorem Runs.derive (hc : s.contrastPending = 0#32) :
    Runs .host 3 s { s with pcon := deriveTriple s.bright } deriveTasks := by
  have one : ∀ (u : State) k, u.contrastPending = 0#32 →
      Runs .host 1 u { u with pcon := tripleSet u.pcon k (tripleGet (deriveTriple u.bright) k) } [.derive k] :=
    fun _ _ hu => .done fun _ => if_pos hu
  exact ((one s 0 hc).append (one _ 1 hc)).append (one _ 2 hc)

/-- The state when BRIGHTNESS has written BRIGHT and PCON. -/
def State.dimmed (s : State) (v : Int) : State :=
  { s with bright := clampBrightness v, pcon := deriveTriple (clampBrightness v) }

/-- BRIGHTNESS while Running with CONTRAST_PENDING clear (R145). -/
theorem exec_brightness_running (hw : s.hostWork = []) (ht : s.threadState = running)
    (hc : s.contrastPending = 0#32) (hn : 5 ≤ s.budget) (v : Int) :
    exec (.brightness v) s =
      .next (((s.dimmed v).writeFlag .host .contrastPending 1#32).setWork .host (requestWait .contrastPending)) := by
  have hbright : Runs .host 1 s { s with bright := clampBrightness v } [.setBright (clampBrightness v)] :=
    .done fun _ => rfl
  have hdim : Runs .host 4 s (s.dimmed v) ([.setBright (clampBrightness v)] ++ deriveTasks) :=
    hbright.append (.derive (s := { s with bright := clampBrightness v }) hc)
  show performHost (choosePath s _ _) s = _
  rw [choosePath_running ht]
  exact performHost_request (by decide) hw hdim hn

/-- BRIGHTNESS while Running with CONTRAST_PENDING clear. -/
theorem brightness_requests (hw : s.hostWork = []) (ht : s.threadState = running) (hc : s.contrastPending = 0#32)
    (hn : 5 ≤ s.budget) (v : Int) :
    ∃ u, exec (.brightness v) s = .next u ∧ u.requested s .contrastPending ∧ u.contrastPending = 1#32 ∧
      u.pendingCmd = s.pendingCmd ∧ u.bright = clampBrightness v ∧ u.pcon = deriveTriple (clampBrightness v) :=
  ⟨_, exec_brightness_running hw ht hc hn v, rfl, rfl, rfl, rfl, rfl⟩

end

end Sys2Proof.Machine

namespace Sys2Proof.Proofs

open Sys2Proof.Machine

/-- Settles O37: the boundary's read of COPY_PENDING meets the release of the call. -/
theorem showReturns : Obligations.ShowReturns := by
  intro s h e r rest prog hp hm ht hfn hst hrxq hew hhw hprog hin hturns
  have hs : s.aboutToCall .showSync prog h e r rest := ⟨hp, ht, hfn, hst, hrxq, hew, hhw, hprog, hin, hturns⟩
  obtain ⟨u, hcall, hu, hset, hraces⟩ := show_requests hs.calling_hostWork hs.calling_threadState
    ((Nat.le_add_left 1 _).trans hs.calling_budget)
  have hrun := run_request (f := .copyPending) (by decide) hs rfl hcall hu (serviced_copyPending _)
  have hwf : ∀ j, Memory.wf (u.inTurn.region (.sf j)) = true := fun j => by
    rw [hu.region (by simp)]
    exact (hm _).1
  have hwords : u.inTurn.cfg.planeBytes % 4 = 0 := by
    rw [hu.cfg]
    exact planeBytes_of_paramsOk hp
  have hcons := serviced_consistent hwf hwords (by simp [hset])
  have hA := hu.region (q := .planeA) (by simp)
  have hB := hu.region (q := .planeB) (by simp)
  have hreleased := seen_acquire_released ((State.inTurn_races u).trans hraces)
  rw [(hreleased .a).trans hA, (hreleased .b).trans hB, hu.invert] at hcons
  refine ⟨_, hrun, rfl, rfl, by simp, returned_stepCode u, ?_, ?_, ?_⟩
  · exact consistentWith_congr (returned_cfg u) (fun k => returned_region u _) hcons
  · exact ((returned_planeA u).trans (serviced_planeA _)).trans hA
  · exact ((returned_planeB u).trans (serviced_planeB _)).trans hB

/-- Settles O38: the boundary serves the command, no contrast update being pending. -/
theorem sendCmdReturns : Obligations.SendCmdReturns := by
  intro s c h e r rest prog hp hm ht hfn hst hrxq hew hhw hprog hin hturns hc hclear hcon
  have hs : s.aboutToCall (.sendCmd c) prog h e r rest := ⟨hp, ht, hfn, hst, hrxq, hew, hhw, hprog, hin, hturns⟩
  have hcfg : (s.calling prog).cfg = s.cfg := s.inTurn_cfg
  have hbudget := hs.calling_budget
  obtain ⟨u, hcall, hu, hset, hcon', hpcmd⟩ := sendCmd_requests hs.calling_hostWork hs.calling_threadState
    (by rwa [hcfg]) (s.inTurn_pendingCmd.trans hclear) (by rw [hcfg]; omega)
  have hserved : u.inTurn.commandServed := by
    refine ⟨by simp [hset], fun hdeferred => hdeferred.2 ?_⟩
    rw [State.inTurn_contrastPending, hcon']
    exact s.inTurn_contrastPending.trans hcon
  obtain ⟨hcmd, -, -, htrace⟩ := serviced_command hserved
  have hbytes : Memory.bytes u.inTurn.pcmd u.inTurn.cfg.pcmdLen = paddedCommand s.cfg c := by
    have hwf : Memory.wf (s.calling prog).pcmd = true := by
      rw [State.calling, State.inTurn_pcmd]
      exact (hm .pcmd).1
    rw [State.inTurn_pcmd, hpcmd, hu.cfg, ← length_paddedCommand hc, hcfg]
    exact Memory.bytes_fill hwf _
  have hrun := run_request (f := .pendingCmd) (by decide) hs rfl hcall hu hcmd
  refine ⟨_, hrun, rfl, rfl, (returned_pendingCmd u).trans hcmd, ?_⟩
  rw [returned_trace, htrace, hu.trace, hbytes]
  rfl

/-- Settles O39: the boundary copies PCON, and no command is served. -/
theorem brightnessReturns : Obligations.BrightnessReturns := by
  intro s v h e r rest prog hp hm ht hfn hst hrxq hew hhw hprog hin hturns hclear hcon
  have hs : s.aboutToCall (.brightness v) prog h e r rest := ⟨hp, ht, hfn, hst, hrxq, hew, hhw, hprog, hin, hturns⟩
  obtain ⟨u, hcall, hu, hset, hclear', hbright, hpcon⟩ := brightness_requests hs.calling_hostWork
    hs.calling_threadState (s.inTurn_contrastPending.trans hcon) (le_trans (by omega) hs.calling_budget) v
  have hunserved : ¬ u.inTurn.commandServed := fun hserved => by
    refine hserved.1 ?_
    rw [State.inTurn_pendingCmd, hclear']
    exact s.inTurn_pendingCmd.trans hclear
  obtain ⟨-, htrace, -⟩ := serviced_noCommand hunserved
  have hrun := run_request (f := .contrastPending) (by decide) hs rfl hcall hu (serviced_contrastPending _)
  refine ⟨_, hrun, rfl, rfl, by simp, by simp [hbright], by simp [hpcon], by simp [hset], ?_⟩
  rw [returned_trace, htrace, hu.trace]

end Sys2Proof.Proofs

/-! PROOF. The arithmetic of the Brightness Modulator: the square root, the clamp and the configuration key (O41, O43),
and the derived bytes (O42). -/

namespace Sys2Proof.Machine

/-! ### The square root (R147) -/

/-- R147: isqrt is the floor square root. -/
theorem isqrt_eq_sqrt (n : Nat) : isqrt n = Nat.sqrt n := by
  have hlog : n < 2 ^ (Nat.log2 n + 1) := Nat.lt_log2_self
  have hbits : 2 ^ (Nat.log2 n + 1) ≤ 2 ^ (Nat.log2 n / 2 + 1) * 2 ^ (Nat.log2 n / 2 + 1) := by
    rw [← Nat.pow_add]
    exact Nat.pow_le_pow_right (by decide) (by omega)
  refine Nat.eq_sqrt.2 (isqrtBits_spec _ n 0 (Nat.zero_le n) ?_)
  rw [Nat.zero_add]
  exact hlog.trans_le hbits

/-! ### The derived bytes (R146) -/

theorem deriveRoot_mono {b c : Nat} (h : b ≤ c) : deriveRoot b ≤ deriveRoot c := by
  rw [deriveRoot, deriveRoot, isqrt_eq_sqrt, isqrt_eq_sqrt]
  exact Nat.sqrt_le_sqrt (Nat.mul_le_mul_right _ h)

/-- A brightness of seven bits has a root of twelve (R149). -/
theorem deriveRoot_lt {b : Nat} (h : b < 128) : deriveRoot b < 4096 := by
  rw [deriveRoot, isqrt_eq_sqrt, Nat.sqrt_lt]
  omega

/-- R146, R149: no byte of the triple is cut off when it is stored. -/
theorem deriveTriple_toNat {b : Nat} (h : b < 128) :
    (deriveTriple b).b0.toNat = deriveRaw0 b ∧ (deriveTriple b).b1.toNat = deriveRaw1 b ∧
      (deriveTriple b).b2.toNat = min 255 (deriveRaw2 b) := by
  have hroot := deriveRoot_lt h
  rw [deriveTriple, BitVec.toNat_ofNat, BitVec.toNat_ofNat, BitVec.toNat_ofNat]
  refine ⟨Nat.mod_eq_of_lt ?_, Nat.mod_eq_of_lt ?_, Nat.mod_eq_of_lt ?_⟩
  · rw [deriveRaw0]
    omega
  · rw [deriveRaw1]
    omega
  · omega

/-! ### The key (R153) -/

/-- The digits of the key's line. -/
theorem configLevel_eq_some_iff {d : Char} {b : Nat} :
    configLevel d = some b ↔ (d = '0' ∧ b = 0) ∨ (d = '1' ∧ b = 28) ∨ (d = '2' ∧ b = 127) := by
  unfold configLevel
  split <;> simp_all [eq_comm]

/-- A well-formed key is the text of R153 and one digit. -/
theorem parseKey_eq_some_iff {line : List Char} {b : Nat} :
    parseKey line = some b ↔ ∃ d, line = keyPrefix ++ [d] ∧ configLevel d = some b := by
  constructor
  · intro h
    unfold parseKey at h
    split at h
    · next d hdrop =>
      split at h
      · next htake =>
        refine ⟨d, ?_, h⟩
        calc line
          _ = line.take keyPrefix.length ++ line.drop keyPrefix.length := (List.take_append_drop _ _).symm
          _ = keyPrefix ++ [d] := by rw [htake, hdrop]
      · cases h
    · cases h
  · rintro ⟨d, rfl, h⟩
    exact h

/-- A well-formed key gives its digit's level. -/
theorem keyBrightness_line {d : Char} {b : Nat} (h : configLevel d = some b) :
    keyBrightness (some (keyPrefix ++ [d])) = b := by
  simp only [keyBrightness, parseKey_eq_some_iff.2 ⟨d, rfl, h⟩]

/-- A key that gives neither of the first two levels gives the third, or is not well formed (R172). -/
theorem keyBrightness_other {line : List Char} (h0 : line ≠ keyPrefix ++ ['0']) (h1 : line ≠ keyPrefix ++ ['1']) :
    keyBrightness (some line) = 127 := by
  cases hparse : parseKey line with
  | none => simp only [keyBrightness, hparse]
  | some b =>
    obtain ⟨d, rfl, hlevel⟩ := parseKey_eq_some_iff.1 hparse
    rw [keyBrightness_line hlevel]
    obtain ⟨rfl, -⟩ | ⟨rfl, -⟩ | ⟨-, hb⟩ := configLevel_eq_some_iff.1 hlevel
    · exact absurd rfl h0
    · exact absurd rfl h1
    · exact hb

end Sys2Proof.Machine

namespace Sys2Proof.Proofs

open Sys2Proof.Machine

/-- Settles O41: isqrt is the square root of the library; the clamp has three branches. -/
theorem squareRootClamp : Obligations.SquareRootClamp := by
  refine ⟨fun n => ?_, fun v => ?_⟩
  · rw [isqrt_eq_sqrt]
    exact ⟨Nat.sqrt_le n, Nat.lt_succ_sqrt n⟩
  · rw [clampBrightness, Config.brightMax]
    split_ifs <;> omega

/-- Settles O42: no byte is cut off, and the root grows with the brightness and stays below 2^12. -/
theorem derivedBytes : Obligations.DerivedBytes := by
  refine ⟨fun b => ?_, fun b c hbc => ?_, by decide, by decide, by decide⟩
  · obtain ⟨h0, h1, h2⟩ := deriveTriple_toNat b.isLt
    have hroot := deriveRoot_lt b.isLt
    refine ⟨h0, h1, h2, ?_, ?_⟩
    · rw [BitVec.lt_def, h0, h1, deriveRaw0, deriveRaw1]
      omega
    · rw [BitVec.lt_def, h1, h2, deriveRaw1, deriveRaw2]
      omega
  · obtain ⟨h0, h1, h2⟩ := deriveTriple_toNat b.isLt
    obtain ⟨k0, k1, k2⟩ := deriveTriple_toNat c.isLt
    have grows : ∀ k a, deriveRoot b * k / 2 ^ 12 + a ≤ deriveRoot c * k / 2 ^ 12 + a := fun k a =>
      Nat.add_le_add_right (Nat.div_le_div_right (Nat.mul_le_mul_right k (deriveRoot_mono hbc))) a
    rw [BitVec.le_def, BitVec.le_def, BitVec.le_def, h0, h1, h2, k0, k1, k2]
    exact ⟨grows 30 6, grows 72 14, min_le_min_left 255 (grows 340 20)⟩

/-- Settles O43: a text with a level is the text of R153 and one of three digits. -/
theorem configurationKey : Obligations.ConfigurationKey := by
  have hline0 : "brightness,0".toList = keyPrefix ++ ['0'] := String.toList_ofList
  have hline1 : "brightness,1".toList = keyPrefix ++ ['1'] := String.toList_ofList
  refine ⟨rfl, fun line => ⟨fun h => ?_, fun h => ?_, fun h0 h1 => ?_⟩⟩
  · rw [h, hline0, keyBrightness_line rfl]
  · rw [h, hline1, keyBrightness_line rfl]
  · exact keyBrightness_other (hline0 ▸ h0) (hline1 ▸ h1)

end Sys2Proof.Proofs

/-! PROOF. BRIGHTNESS as a call of the HOST (O40). -/

namespace Sys2Proof.Machine

section
variable {s : State}

/-- While Stopped the HOST owns the bus port (R38 (f)). -/
theorem mayDriveBus_of_stopped (ht : s.threadState = stopped) (a : Agent) : s.mayDriveBus a = true := by
  cases a with
  | engine => rfl
  | host =>
    rw [State.mayDriveBus, State.busOwner, ht]
    rfl

/-- WCON <- PCON by the HOST, while the engine is not Running (R145, R208). -/
theorem Runs.adoptHost (ht : s.threadState ≠ running) :
    Runs .host 3 s { s with wcon := s.pcon } [.adopt 0, .adopt 1, .adopt 2] := by
  have one : ∀ (u : State) k, u.threadState ≠ running →
      Runs .host 1 u { u with wcon := tripleSet u.wcon k (tripleGet u.pcon k) } [.adopt k] :=
    fun _ _ hu => .done fun _ => if_neg fun h => hu h.2
  exact ((one s 0 ht).append (one _ 1 ht)).append (one _ 2 ht)

/-- The state when PCON and WCON hold the derived bytes `t` and the contrast command of BRIGHT is out. -/
def State.contrastSent (s : State) (t : Triple) : State :=
  { s.sent false (groupBytes s .monoContrast) with pcon := t, wcon := t }

/-- What that changes, and nothing else. -/
theorem contrastSent_eq (s : State) (t : Triple) :
    s.contrastSent t = { s with
      dc := false, bi := 1, rxq := [], pcon := t, wcon := t
      trace := s.trace ++ traceOf false (groupBytes s .monoContrast) } := rfl

variable {t : Triple}

/-- What BRIGHTNESS and DISABLE do while Stopped (R145, R158). The derived bytes have a name, `t`, of their own: no
comparison of two states then computes them. -/
theorem Runs.directContrast (ht : s.threadState = stopped) (hc : s.contrastPending = 0#32) (hb : s.busReady)
    (hd : deriveTriple s.bright = t) :
    Runs .host (s.rxq.length + 17) s (s.contrastSent t) (deriveTasks ++ directContrastTasks) := by
  have hderive := Runs.derive hc
  rw [hd] at hderive
  have hadopt : Runs .host 3 { s with pcon := t } { s with pcon := t, wcon := t } [.adopt 0, .adopt 1, .adopt 2] :=
    .adoptHost (by rw [ht]; decide)
  have hm : ({ s with pcon := t, wcon := t } : State).mayDriveBus .host = true := mayDriveBus_of_stopped ht .host
  refine (hderive.append (hadopt.append (.emit hm hb .monoContrast))).mono ?_
  show 3 + (3 + (3 * 2 + s.rxq.length + 5)) ≤ s.rxq.length + 17
  omega

/-- BRIGHTNESS while Stopped with CONTRAST_PENDING clear (R145). -/
theorem exec_brightness_stopped (hw : s.hostWork = []) (ht : s.threadState = stopped) (hc : s.contrastPending = 0#32)
    (hb : s.busReady) (hn : s.rxq.length + 19 ≤ s.budget) {v : Int} (hd : deriveTriple (clampBrightness v) = t) :
    exec (.brightness v) s =
      .next { ({ s with bright := clampBrightness v } : State).contrastSent t with result := .done } := by
  have hbright : Runs .host 1 s { s with bright := clampBrightness v } [.setBright (clampBrightness v)] :=
    .done fun _ => rfl
  have hdirect := Runs.directContrast (s := { s with bright := clampBrightness v }) ht hc hb hd
  show performHost (choosePath s _ _) s = _
  rw [choosePath_stopped ht]
  refine performHost_returns hw (hbright.append hdirect) hw ?_ .done
  show 1 + (s.rxq.length + 17) + 1 ≤ s.budget
  omega

/-- While CONTRAST_PENDING is set the HOST may not write PCON (R54, R208; log 14). -/
theorem performHost_derive_refused (hw : s.hostWork = []) (hc : s.contrastPending ≠ 0#32) (hn : 2 ≤ s.budget) (b : Nat)
    (k : Fin 3) (ts : List Task) : performHost (.next (.setBright b :: .derive k :: ts)) s = .refused .ownership := by
  have hbright : act .host (.setBright b) (s.setWork .host (.derive k :: ts)) =
      .done ({ s with bright := b }.setWork .host (.derive k :: ts)) := rfl
  have hderive : act .host (.derive k) ({ s with bright := b }.setWork .host ts) = .refuse .ownership := if_neg hc
  obtain ⟨n, hbudget⟩ := Nat.exists_eq_add_of_le' hn
  rw [performHost_next hw, hbudget]
  exact (go_done hbright (n + 1)).trans (go_refuse hderive n)

/-- BRIGHTNESS begun with CONTRAST_PENDING set, on either path. -/
theorem exec_brightness_refused (hw : s.hostWork = []) (ht : s.threadState = running ∨ s.threadState = stopped)
    (hc : s.contrastPending ≠ 0#32) (hn : 2 ≤ s.budget) (v : Int) : exec (.brightness v) s = .refused .ownership := by
  show performHost (choosePath s _ _) s = _
  rcases ht with ht | ht
  · rw [choosePath_running ht]
    exact performHost_derive_refused hw hc hn _ 0 _
  · rw [choosePath_stopped ht]
    exact performHost_derive_refused hw hc hn _ 0 _

end

end Sys2Proof.Machine

namespace Sys2Proof.Proofs

open Sys2Proof.Machine

/-- Settles O40: the request while Running, the direct path while Stopped, or the refusal of the first write of PCON. -/
theorem brightnessPaths : Obligations.BrightnessPaths := by
  intro v s hw
  generalize hd : deriveTriple (clampBrightness v) = t
  refine ⟨fun ht hc hn => ?_, fun ht hc hb hn => ?_, fun ht hc hn => ?_⟩
  · have hrun := exec_brightness_running hw ht hc (Nat.le_of_succ_le hn) v
    rwa [State.dimmed, hd] at hrun
  · rw [State.groupBudget] at hn
    exact exec_brightness_stopped hw ht hc hb (by omega) hd
  · exact exec_brightness_refused hw ht hc hn v

end Sys2Proof.Proofs

/-! PROOF. ENABLE and DISABLE, and the one right after the other (O46). -/

namespace Sys2Proof.Machine

/-! ### ENABLE and DISABLE (R155, R158) -/

section
variable {s : State}

theorem setWork_eq_self {a : Agent} {w : List Task} (hw : s.work a = w) : s.setWork a w = s := by
  rw [← hw, State.setWork_work]

/-- A write of THREAD_STATE along an edge of R160. -/
theorem Runs.writeThreadState {a : Agent} {v : Word} (hl : legalEdge a s.threadState v = true) :
    Runs a 1 s (s.writeFlag a .threadState v) [.flagWrite .threadState v] := by
  refine .done fun ts => ?_
  rw [act, flagWriteAct, State.setWork_threadState, if_pos hl]
  cases a <;> rfl

/-- A poll of THREAD_STATE (R8, R13). -/
theorem act_spin_threadState (hl : legalThreadState s.threadState = true) (a : Agent) (v : Word) :
    act a (.spin .threadState v) s = if s.threadState = v then .done s else .wait := if_pos hl

/-- A poll of THREAD_STATE that succeeds. -/
theorem Runs.spinThreadState {v : Word} (hl : legalThreadState v = true) (hv : s.threadState = v) (a : Agent) :
    Runs a 1 s s [.spin .threadState v] := by
  refine .done fun ts => ?_
  have hthread : (s.setWork a ts).threadState = v := (s.setWork_threadState a ts).trans hv
  rw [act_spin_threadState (hthread ▸ hl), if_pos hthread]

/-- The state when ENABLE has launched the ENGINE. -/
def State.launched (s : State) : State :=
  { s.sent false s.cfg.modeGray with
    threadState := starting, fn := 0#2, stepCode := posCode .start, races := [] }

/-- ENABLE while Stopped, with an idle engine (R155). -/
theorem exec_enable_stopped (hw : s.hostWork = []) (ht : s.threadState = stopped) (hst : s.stepCode = posCode .idle)
    (hb : s.busReady) (hn : 3 * s.cfg.modeGray.length + s.rxq.length + 7 ≤ s.budget) :
    exec .enable s = .next (s.launched.setWork .host enableWait) := by
  have hwrite : Runs .host 1 s (s.writeFlag .host .threadState starting) [.flagWrite .threadState starting] :=
    .writeThreadState (by rw [ht]; decide)
  have hm : (s.writeFlag .host .threadState starting).mayDriveBus .host = true := by
    rw [State.mayDriveBus, State.busOwner, if_neg]
    · rfl
    · show ¬(starting = 2#32 ∨ starting = 3#32 ∨ starting = 1#32 ∧ s.stepCode ≠ posCode .idle)
      rw [hst]
      decide
  have hgray := Runs.emit hm hb .modeGray
  have hlaunch : Runs .host 1 ((s.writeFlag .host .threadState starting).sent false s.cfg.modeGray) s.launched
      [.launch] := .done fun _ => rfl
  have hwait : act .host (.spin .threadState running) (s.launched.setWork .host [.ret .done]) = .wait := rfl
  show performHost (choosePath s _ _) s = _
  rw [choosePath_stopped ht, performHost_next hw]
  refine (hwrite.append (hgray.append hlaunch)).go_wait_eq hwait ?_
  show 1 + (3 * s.cfg.modeGray.length + s.rxq.length + 5 + 1) ≤ s.budget
  omega

/-- DISABLE while Running asks the ENGINE to stop and waits (R158). -/
theorem exec_disable_running (hw : s.hostWork = []) (ht : s.threadState = running) (hn : 1 ≤ s.budget) :
    exec .disable s = .next ((s.writeFlag .host .threadState stopping).setWork .host disableWait) := by
  have hwrite : Runs .host 1 s (s.writeFlag .host .threadState stopping) [.flagWrite .threadState stopping] :=
    .writeThreadState (by rw [ht]; decide)
  have hwait : ∀ ts, act .host (.spin .threadState stopped)
      ((s.writeFlag .host .threadState stopping).setWork .host ts) = .wait := fun _ => rfl
  show performHost (if s.threadState = running then _ else _) s = _
  rw [if_pos ht, performHost_next hw]
  exact hwrite.go_wait_eq (hwait _) hn

/-- A transfer group leaves the bytes of the other groups alone. -/
@[simp] theorem groupBytes_sent (s : State) (dc : Bool) (bs : List Byte) (g : Group) :
    groupBytes (s.sent dc bs) g = groupBytes s g := by
  cases g with
  | frame k => fin_cases k <;> rfl
  | _ => rfl

/-- The state when DISABLE has found the engine Stopped and has finished, `t` being the derived bytes of BRIGHT. -/
def State.disabled (s : State) (t : Triple) : State :=
  { ((s.sent false s.cfg.modeMono).sent true (groupBytes s .monoFrame)).contrastSent t with
    result := .done, hostWork := [] }

variable {t : Triple}

/-- What the end of DISABLE changes, and nothing else. -/
theorem disabled_eq (s : State) (t : Triple) :
    s.disabled t = { s with
      dc := false, bi := 1, rxq := [], pcon := t, wcon := t, result := .done, hostWork := []
      trace := s.trace ++ traceOf false s.cfg.modeMono ++ traceOf true (groupBytes s .monoFrame) ++
        traceOf false (groupBytes s .monoContrast) } := by
  rw [State.disabled, contrastSent_eq, groupBytes_sent, groupBytes_sent]
  rfl

/-- DISABLE once Stopped is announced, CONTRAST_PENDING being clear (R158). -/
theorem go_disableWait (hw : s.hostWork = disableWait) (ht : s.threadState = stopped) (hc : s.contrastPending = 0#32)
    (hb : s.busReady) (hd : deriveTriple s.bright = t) {n : Nat}
    (hn : 3 * (s.cfg.modeMono.length + s.cfg.planeBytes) + s.rxq.length + 29 ≤ n) :
    go .host n s = .next (s.disabled t) := by
  have hspin : Runs .host 1 s s [.spin .threadState stopped] := .spinThreadState (by decide) ht .host
  have hmono := Runs.emit (mayDriveBus_of_stopped ht .host) hb .modeMono
  have hframe := Runs.emit (s := s.sent false s.cfg.modeMono) (mayDriveBus_of_stopped (s := s.sent _ _) ht .host) hb
    .monoFrame
  have hcontrast := Runs.directContrast (s := (s.sent false s.cfg.modeMono).sent true (groupBytes s .monoFrame)) ht hc
    hb hd
  have hrun := hspin.append (hmono.append (hframe.append (hcontrast.append (.ret _ .done))))
  have hlen : (groupBytes s .monoFrame).length = s.cfg.planeBytes := Memory.length_bytes _ _
  rw [← setWork_eq_self (a := .host) hw]
  refine hrun.go_eq ?_
  show 1 + (3 * s.cfg.modeMono.length + s.rxq.length + 5 + (3 * (groupBytes s .monoFrame).length + 0 + 5 + 18)) ≤ n
  omega

end

/-! ### A script of turns (R154) -/

/-- A turn of the script: every poll succeeds. -/
def scriptTurn (a : Agent) (n : Nat) : Turn := { engineTurn n 0 with agent := a }

/-- Where a script of ENABLE and DISABLE begun in `s₀` has come to, with `out` put on the trace: THREAD_STATE, the
ENGINE's position, the HOST's work, its calls and the turns to come. -/
structure State.scripted (s₀ : State) (out : List BusEntry) (v : Word) (p : Pos) (w : List Task) (prog : List Instr)
    (ts : List Turn) (s : State) : Prop where
  cfg : s.cfg = s₀.cfg
  planeA : s.planeA = s₀.planeA
  bright : s.bright = s₀.bright
  copyPending : s.copyPending = s₀.copyPending
  pendingCmd : s.pendingCmd = s₀.pendingCmd
  contrastPending : s.contrastPending = s₀.contrastPending
  trace : s.trace = s₀.trace ++ out
  rxq : s.rxq = []
  threadState : s.threadState = v
  fn : s.fn = 0#2
  stepCode : s.stepCode = posCode p
  engWork : s.engWork = []
  hostWork : s.hostWork = w
  hostProg : s.hostProg = prog
  inputs : s.inputs = ts

section
variable {s₀ s : State} {out : List BusEntry} {v : Word} {p : Pos} {w : List Task} {prog : List Instr} {ts : List Turn}
  {a : Agent} {i : Instr} {n : Nat}

theorem State.scripted.nextTurn (h : s₀.scripted out v p w prog (scriptTurn a n :: ts) s) :
    s.nextTurn = scriptTurn a n := by
  rw [State.nextTurn, h.inputs]

/-- What a turn of the script brings. -/
theorem State.scripted.inTurn (h : s₀.scripted out v p w prog (scriptTurn a n :: ts) s) :
    s₀.scripted out v p w prog ts s.inTurn ∧ s.inTurn.busReady ∧ s.inTurn.budget = n := by
  rw [State.inTurn_of_inputs h.inputs]
  exact ⟨{ h with rxq := (List.append_nil _).trans h.rxq, inputs := rfl }, ⟨rfl, rfl⟩, rfl⟩

/-- The HOST's turn that begins a call. -/
theorem State.scripted.step_call (hp : paramsOk s₀.cfg = true) (hi : isHostCall i = true)
    (h : s₀.scripted out v p [] (i :: prog) (scriptTurn .host n :: ts) s) :
    ∃ u, step s = exec i u ∧ s₀.scripted out v p [] prog ts u ∧ u.busReady ∧ u.budget = n := by
  obtain ⟨hin, hready⟩ := h.inTurn
  exact ⟨s.calling prog, step_host_begin (by rwa [h.cfg]) (by rw [h.nextTurn]; rfl) h.hostWork h.hostProg hi,
    { hin with hostProg := rfl }, hready⟩

/-- The HOST's turn that goes on with a call. -/
theorem State.scripted.step_goOn (hp : paramsOk s₀.cfg = true) (hw : w ≠ [])
    (h : s₀.scripted out v p w prog (scriptTurn .host n :: ts) s) :
    ∃ u, step s = go .host n u ∧ s₀.scripted out v p w prog ts u ∧ u.busReady := by
  obtain ⟨hin, hready, -⟩ := h.inTurn
  refine ⟨s.inTurn, ?_, hin, hready⟩
  rw [step_host_goOn (by rwa [h.cfg]) (by rw [h.nextTurn]; rfl) (by rwa [h.hostWork]), h.nextTurn]
  rfl

/-- The ENGINE's turn that begins a position of subframe 0. -/
theorem State.scripted.step_position (hp : paramsOk s₀.cfg = true) (hv : legalThreadState v = true)
    (hd : decodeSeq 0 (posCode p).toNat = .ok i) (h : s₀.scripted out v p w prog (scriptTurn .engine n :: ts) s) :
    ∃ u, step s = exec i u ∧ s₀.scripted out v p w prog ts u ∧ u.budget = n := by
  have hseq : decodeSeq s.fn.toNat s.stepCode.toNat = .ok i := by
    rwa [h.fn, h.stepCode]
  have hcode : decode [s.seqByte] = .ok (i, []) := by
    rw [decode_seqByte, hseq]
  obtain ⟨hin, -, hbudget⟩ := h.inTurn
  exact ⟨s.inTurn, step_engine_begin (by rwa [h.cfg]) (by rw [h.nextTurn]; rfl) (by rwa [h.threadState]) h.engWork
    hcode, hin, hbudget⟩

/-! ### The seven turns (R154, R155, R158) -/

/-- ENABLE launches the ENGINE. -/
theorem State.scripted.enable (hp : paramsOk s₀.cfg = true) (hn : 3 * s₀.cfg.modeGray.length + 7 ≤ n)
    (h : s₀.scripted out stopped .idle [] (.enable :: prog) (scriptTurn .host n :: ts) s) :
    ∃ t, step s = .next t ∧
      s₀.scripted (out ++ traceOf false s₀.cfg.modeGray) starting .start enableWait prog ts t := by
  obtain ⟨u, hstep, hu, hready, hbudget⟩ := h.step_call hp rfl
  refine ⟨_, hstep.trans (exec_enable_stopped hu.hostWork hu.threadState hu.stepCode hready ?_),
    { hu with trace := ?_, rxq := rfl, threadState := rfl, fn := rfl, stepCode := rfl, hostWork := rfl }⟩
  · rwa [hu.cfg, hu.rxq, hbudget]
  · show u.trace ++ traceOf false u.cfg.modeGray = _
    rw [hu.trace, hu.cfg, List.append_assoc]

/-- The ENGINE starts. -/
theorem State.scripted.start (hp : paramsOk s₀.cfg = true) (hn : passBudget s₀.cfg ≤ n)
    (h : s₀.scripted out starting .start w prog (scriptTurn .engine n :: ts) s) :
    ∃ t, step s = .next t ∧ s₀.scripted out running .check w prog ts t := by
  obtain ⟨u, hstep, hu, hbudget⟩ := h.step_position (i := .engStart) hp rfl rfl
  refine ⟨_, hstep.trans (exec_engStart hu.engWork hu.threadState ?_), ?_⟩
  · rwa [hu.cfg, hbudget]
  · rw [State.started, passDone_eq]
    exact { hu with threadState := rfl, fn := rfl, stepCode := rfl }

/-- ENABLE finds the engine Running and returns. -/
theorem State.scripted.enabled (hp : paramsOk s₀.cfg = true) (hn : 2 ≤ n)
    (h : s₀.scripted out running p enableWait prog (scriptTurn .host n :: ts) s) :
    ∃ t, step s = .next t ∧ s₀.scripted out running p [] prog ts t := by
  obtain ⟨u, hstep, hu, -⟩ := h.step_goOn hp (by decide)
  have hspin : Runs .host 1 u u [.spin .threadState running] :=
    .spinThreadState (by decide) hu.threadState .host
  have hrun : go .host n (u.setWork .host enableWait) = _ := (hspin.append (.ret _ .done)).go_eq hn
  rw [setWork_eq_self (a := .host) hu.hostWork] at hrun
  exact ⟨_, hstep.trans hrun, { hu with hostWork := rfl }⟩

/-- DISABLE asks the ENGINE to stop. -/
theorem State.scripted.disable (hp : paramsOk s₀.cfg = true) (hn : 1 ≤ n)
    (h : s₀.scripted out running p [] (.disable :: prog) (scriptTurn .host n :: ts) s) :
    ∃ t, step s = .next t ∧ s₀.scripted out stopping p disableWait prog ts t := by
  obtain ⟨u, hstep, hu, -, hbudget⟩ := h.step_call hp rfl
  exact ⟨_, hstep.trans (exec_disable_running hu.hostWork hu.threadState (by rwa [hbudget])),
    { hu with threadState := rfl, hostWork := rfl }⟩

/-- The ENGINE finds itself asked to stop. -/
theorem State.scripted.check (hp : paramsOk s₀.cfg = true) (hn : 1 ≤ n)
    (h : s₀.scripted out stopping .check w prog (scriptTurn .engine n :: ts) s) :
    ∃ t, step s = .next t ∧ s₀.scripted out stopping .exit w prog ts t := by
  obtain ⟨u, hstep, hu, hbudget⟩ := h.step_position (i := .engCheck) hp rfl rfl
  have hr : u.threadState ≠ running := by rw [hu.threadState]; decide
  have hl : u.threadState.toNat ≤ 3 := by rw [hu.threadState]; decide
  have htest : Runs .engine 1 u { u.acquire .threadState with stepCode := posCode .exit } [.testRun] :=
    .done fun _ => act_testRun_not_running hr hl
  exact ⟨_, hstep.trans (perform_runs htest hu.engWork hu.engWork (by rwa [hbudget])), { hu with stepCode := rfl }⟩

/-- The ENGINE announces Stopped and is idle. -/
theorem State.scripted.exit (hp : paramsOk s₀.cfg = true) (hn : 1 ≤ n)
    (h : s₀.scripted out stopping .exit w prog (scriptTurn .engine n :: ts) s) :
    ∃ t, step s = .next t ∧ s₀.scripted out stopped .idle w prog ts t := by
  obtain ⟨u, hstep, hu, hbudget⟩ := h.step_position (i := .engExit) hp rfl rfl
  have hannounce := Runs.announce (s := u) (v := stopped) (by rw [hu.threadState]; decide) .idle
  exact ⟨_, hstep.trans (perform_runs hannounce hu.engWork hu.engWork (by rwa [hbudget])),
    { hu with threadState := rfl, stepCode := rfl }⟩

/-- DISABLE finds the engine Stopped, restores the monochrome mode and the brightness, and returns. -/
theorem State.scripted.disabled (hp : paramsOk s₀.cfg = true) (hc : s₀.contrastPending = 0#32)
    (hn : 3 * (s₀.cfg.modeMono.length + s₀.cfg.planeBytes) + 29 ≤ n)
    (h : s₀.scripted out stopped p disableWait prog (scriptTurn .host n :: ts) s) :
    ∃ t, step s = .next t ∧ t.pcon = deriveTriple s₀.bright ∧ t.wcon = deriveTriple s₀.bright ∧
      s₀.scripted (out ++ traceOf false s₀.cfg.modeMono ++ traceOf true (groupBytes s₀ .monoFrame) ++
        traceOf false (groupBytes s₀ .monoContrast)) stopped p [] prog ts t := by
  obtain ⟨u, hstep, hu, hready⟩ := h.step_goOn hp (List.cons_ne_nil _ _)
  generalize hd : deriveTriple s₀.bright = d
  have hrun := go_disableWait (t := d) hu.hostWork hu.threadState (hu.contrastPending.trans hc) hready
    (by rw [hu.bright, hd]) (n := n) (by rwa [hu.cfg, hu.rxq])
  rw [disabled_eq] at hrun
  refine ⟨_, hstep.trans hrun, rfl, rfl, { hu with trace := ?_, rxq := rfl, hostWork := rfl }⟩
  simp only [groupBytes, hu.trace, hu.cfg, hu.planeA, hu.bright, List.append_assoc]

/-- ENABLE and DISABLE one right after the other (R154). -/
theorem State.scripted.enableThenDisable (hp : paramsOk s₀.cfg = true) (hc : s₀.contrastPending = 0#32)
    (hn : passBudget s₀.cfg + 3 * (s₀.cfg.modeGray.length + s₀.cfg.modeMono.length + s₀.cfg.planeBytes) + 40 ≤ n)
    (h : s₀.scripted [] stopped .idle [] (.enable :: .disable :: prog) (enableDisableTurns n ++ ts) s₀) :
    ∃ t, core.run 7 s₀ = .next t ∧ t.pcon = deriveTriple s₀.bright ∧ t.wcon = deriveTriple s₀.bright ∧
      s₀.scripted (traceOf false s₀.cfg.modeGray ++ traceOf false s₀.cfg.modeMono ++
        traceOf true (groupBytes s₀ .monoFrame) ++ traceOf false (groupBytes s₀ .monoContrast)) stopped .idle [] prog
        ts t := by
  obtain ⟨s₁, step₁, h₁⟩ := h.enable hp (by omega)
  obtain ⟨s₂, step₂, h₂⟩ := h₁.start hp (by omega)
  obtain ⟨s₃, step₃, h₃⟩ := h₂.enabled hp (by omega)
  obtain ⟨s₄, step₄, h₄⟩ := h₃.disable hp (by omega)
  obtain ⟨s₅, step₅, h₅⟩ := h₄.check hp (by omega)
  obtain ⟨s₆, step₆, h₆⟩ := h₅.exit hp (by omega)
  obtain ⟨t, step₇, hpcon, hwcon, h₇⟩ := h₆.disabled hp hc (by omega)
  exact ⟨t, run_append (run_one step₁) <| run_append (run_one step₂) <| run_append (run_one step₃) <|
    run_append (run_one step₄) <| run_append (run_one step₅) <| run_append (run_one step₆) (run_one step₇),
    hpcon, hwcon, h₇⟩

end

end Sys2Proof.Machine

namespace Sys2Proof.Proofs

open Sys2Proof.Machine

/-- Settles O46: each of the seven turns takes the script one position further, and the last derives PCON and WCON. -/
theorem enableThenDisable : Obligations.EnableThenDisable := by
  intro s n rest prog hp ht hfn hst hew hhw hrxq hc hpcon hwcon hprog hin hn
  obtain ⟨t, hrun, hpcon', hwcon', h⟩ := State.scripted.enableThenDisable hp hc hn
    ⟨rfl, rfl, rfl, rfl, rfl, rfl, (List.append_nil _).symm, hrxq, ht, hfn, hst, hew, hhw, hprog, hin⟩
  refine ⟨t, hrun, h.threadState, h.fn, h.stepCode, h.engWork, h.hostWork, h.hostProg, h.bright,
    hpcon'.trans hpcon.symm, hwcon'.trans hwcon.symm, h.copyPending, h.pendingCmd, ?_⟩
  simpa only [List.append_assoc, groupBytes] using h.trace

end Sys2Proof.Proofs

/-! PROOF. ENABLE and DISABLE, each on its own (O44, O45), and the cycle of THREAD_STATE (O54). -/

namespace Sys2Proof.Machine

section
variable {s t : State}

/-! ### The calls that do nothing (R155, R158) -/

/-- A call with nothing to do returns at once. -/
theorem performHost_ret (hw : s.hostWork = []) (hn : 1 ≤ s.budget) (r : Result) :
    performHost (.next [.ret r]) s = .next { s with result := r } :=
  performHost_returns hw (.nil .host s) hw hn r

/-- ENABLE while Running (R155). -/
theorem exec_enable_running (hw : s.hostWork = []) (ht : s.threadState = running) (hn : 1 ≤ s.budget) :
    exec .enable s = .next { s with result := .done } := by
  show performHost (choosePath s _ _) s = _
  rw [choosePath_running ht, performHost_ret hw hn]

/-- DISABLE while not Running (R158). -/
theorem exec_disable_notRunning (hw : s.hostWork = []) (ht : s.threadState ≠ running) (hl : s.threadState.toNat ≤ 3)
    (hn : 1 ≤ s.budget) : exec .disable s = .next { s with result := .done } := by
  show performHost (if s.threadState = running then _ else _) s = _
  rw [if_neg ht, if_pos (legalThreadState_iff.2 hl), performHost_ret hw hn]

/-! ### The edges of THREAD_STATE (R160) -/

theorem hostEdge_iff {old new : Word} :
    legalEdge .host old new = true ↔ (old = stopped ∧ new = starting) ∨ (old = running ∧ new = stopping) := by
  simp [legalEdge]

theorem engineEdge_iff {old new : Word} :
    legalEdge .engine old new = true ↔ (old = starting ∧ new = running) ∨ (old = stopping ∧ new = stopped) := by
  simp [legalEdge]

/-- The edges of the cycle are the two agents' in turn: none of an agent's edges begins where another of its own
ends. -/
theorem legalEdge_after_own {a : Agent} {u v : Word} (h : legalEdge a u v = true) (w : Word) :
    legalEdge a v w = false := by
  cases a with
  | host => rcases end_of_hostEdge h with rfl | rfl <;> rfl
  | engine => rcases end_of_engineEdge h with rfl | rfl <;> rfl

/-- An agent's actions, any number of them, leave THREAD_STATE alone or take it along one of the agent's edges. -/
theorem go_threadState_edge {a : Agent} {n : Nat} (h : go a n s = .next t) :
    t.threadState = s.threadState ∨ legalEdge a s.threadState t.threadState = true := by
  refine go_keeps (P := fun u => u.threadState = s.threadState ∨ legalEdge a s.threadState u.threadState = true)
    ?_ n s t (.inl rfl) h
  intro u u' x ts _ hu hact
  have hx := act_threadState hact
  rw [State.setWork_threadState] at hx
  rcases hx with same | edge
  · rwa [same]
  · rcases hu with start | gone
    · exact .inr (start ▸ edge)
    · rw [legalEdge_after_own gone] at edge
      cases edge

/-- A step leaves THREAD_STATE alone or takes it along one edge of the agent whose turn it is. -/
theorem step_threadState (h : step s = .next t) :
    t.threadState = s.threadState ∨ legalEdge s.nextTurn.agent s.threadState t.threadState = true := by
  obtain ⟨-, ⟨ha, -, w, -, hg⟩ | ⟨ha, prog, w, -, hg⟩⟩ := step_cases h
  · rw [ha]
    simpa using go_threadState_edge hg
  · have hts : (s.hostTurn prog w).threadState = s.threadState := s.inTurn_threadState
    rw [ha, ← hts]
    exact go_threadState_edge hg

/-! ### The bus port at the end of an edge (R163) -/

theorem busOwner_of_running (h : s.threadState = running) : s.busOwner = .engine := if_pos (.inl h)

theorem busOwner_of_stopping (h : s.threadState = stopping) : s.busOwner = .engine := if_pos (.inr (.inl h))

theorem busOwner_of_stopped (h : s.threadState = stopped) : s.busOwner = .host := by
  simp [State.busOwner, h, stopped]

/-- In Starting the HOST owns the port until the launch (log 29). -/
theorem busOwner_of_starting (h : s.threadState = starting) (hidle : s.stepCode = posCode .idle) :
    s.busOwner = .host := by
  simp [State.busOwner, h, hidle, starting]

end

end Sys2Proof.Machine

namespace Sys2Proof.Proofs

open Sys2Proof.Machine

/-- Settles O44: the return while Running, or the launch and the wait for Running. -/
theorem enablePaths : Obligations.EnablePaths := by
  refine fun s hw => ⟨exec_enable_running hw, fun ht hst hb hn => ?_⟩
  rw [State.groupBudget] at hn
  exact exec_enable_stopped hw ht hst hb (by omega)

/-- Settles O45: the request while Running, the return elsewhere, and what follows the wait for Stopped. -/
theorem disablePaths : Obligations.DisablePaths := by
  refine fun s => ⟨fun hw hn ht => exec_disable_running hw ht (Nat.le_of_succ_le hn),
    fun hw hn ht hl => exec_disable_notRunning hw ht hl hn, fun hw ht hc hb hn => ?_⟩
  rw [State.groupBudget] at hn
  -- the derived bytes under a name: no comparison of two states then computes them
  generalize hd : deriveTriple s.bright = t
  rw [go_disableWait hw ht hc hb hd (by omega), disabled_eq]
  rfl

/-- Settles O54: a turn takes at most one edge of its agent, and the port's owner follows from where the edge ends. -/
theorem threadStateCycle : Obligations.ThreadStateCycle := by
  intro s t h
  rcases step_threadState h with same | edge
  · exact .inl same
  · cases ha : s.nextTurn.agent with
    | host =>
      rw [ha, hostEdge_iff] at edge
      rcases edge with ⟨old, new⟩ | ⟨old, new⟩
      · exact .inr (.inl ⟨old, new, rfl, busOwner_of_starting new⟩)
      · exact .inr (.inr (.inr (.inl ⟨old, new, rfl, busOwner_of_stopping new⟩)))
    | engine =>
      rw [ha, engineEdge_iff] at edge
      rcases edge with ⟨old, new⟩ | ⟨old, new⟩
      · exact .inr (.inr (.inl ⟨old, new, rfl, busOwner_of_running new⟩))
      · exact .inr (.inr (.inr (.inr ⟨old, new, rfl, busOwner_of_stopped new⟩)))

end Sys2Proof.Proofs

/-! PROOF. A poll that fails ends the turn with nothing done (O10), and what a call can hand to its caller (O31). -/

namespace Sys2Proof.Machine

section
variable {a : Agent} {s t : State} {x : Task} {ts : List Task}

/-! ### A poll that fails (R95, R96, R99, R173) -/

/-- An agent whose next action waits does nothing, whatever its budget (R173). -/
theorem go_eq_self_of_wait (hw : s.work a = x :: ts) (hx : act a x (s.setWork a ts) = .wait) (n : Nat) :
    go a n s = .next s := by
  have hrun := go_wait hx n
  rwa [setWork_eq_self hw] at hrun

theorem act_send_wait (hm : s.mayDriveBus a = true) (ht : s.tnf = false) (b : Byte) : act a (.send b) s = .wait := by
  simp [act, sendAct, hm, ht]

theorem act_idle_wait (hb : s.bsy = true) : act a .idle s = .wait := if_pos hb

theorem act_await_wait {d : Nat} (hd : tickDiff s.cfg s.tick d < 0) : act a (.await d) s = .wait := by
  simp [act, awaitAct, deadlinePassed, hd]

theorem act_spin_wait {f : Flag} {v : Word} (hl : legalThreadState s.threadState = true) (hv : s.flag f ≠ v) :
    act a (.spin f v) s = .wait := by
  by_cases hf : f = .threadState
  · subst hf
    exact (act_spin_threadState hl a v).trans (if_neg hv)
  · exact (act_spin hf a v s).trans (if_neg hv)

/-- A turn of the ENGINE whose first action waits only brings what the turn brings (U8). -/
theorem step_engine_wait (hp : paramsOk s.cfg = true) (ha : s.nextTurn.agent = .engine)
    (hl : legalThreadState s.threadState = true) (hw : s.engWork = x :: ts)
    (hx : act .engine x (s.inTurn.setWork .engine ts) = .wait) : step s = .next s.inTurn := by
  rw [step_engine_goOn hp ha hl (hw ▸ List.cons_ne_nil x ts)]
  exact go_eq_self_of_wait (a := .engine) (s.inTurn_engWork.trans hw) hx _

/-- A turn of the HOST whose first action waits only brings what the turn brings (U8). -/
theorem step_host_wait (hp : paramsOk s.cfg = true) (ha : s.nextTurn.agent = .host) (hw : s.hostWork = x :: ts)
    (hx : act .host x (s.inTurn.setWork .host ts) = .wait) : step s = .next s.inTurn := by
  rw [step_host_goOn hp ha (hw ▸ List.cons_ne_nil x ts)]
  exact go_eq_self_of_wait (a := .host) (s.inTurn_hostWork.trans hw) hx _

/-! ### What the caller can be handed (R171) -/

/-- The result r has been handed to the caller, or the agent's work holds the action that hands it over. -/
def State.mayReturn (s : State) (a : Agent) (r : Result) : Prop := s.result = r ∨ .ret r ∈ s.work a

/-- A FlagWrite that takes place writes its flag, be it THREAD_STATE or another (R8). -/
theorem eq_of_act_flagWrite {f : Flag} {v : Word} (h : act a (.flagWrite f v) s = .done t) : t = s.writeFlag a f v := by
  cases f with
  | threadState =>
    simp only [act, flagWriteAct] at h
    split at h
    · exact (Act.done.inj h).symm
    · cases h
  | _ => exact (Act.done.inj h).symm

/-- Only the hand-over of r makes r a result: no action puts another hand-over into the work. -/
theorem act_mayReturn {r : Result} (h : act a x s = .done t) (ht : t.mayReturn a r) :
    x = .ret r ∨ s.mayReturn a r := by
  cases x with
  | ret q =>
    cases h
    rcases ht with hq | hr
    · exact .inl (congrArg Task.ret hq)
    · exact .inr (.inr (by cases a <;> exact hr))
  | flagWrite f v =>
    rw [eq_of_act_flagWrite h] at ht
    right
    cases a <;> simpa [State.mayReturn] using ht
  | _ =>
    right
    simp only [act, emitAct, driveAct, bytesAct, sendAct, drainAct, idleAct, awaitAct, setDeadlineAct, setFnAct, gotoAct,
      announceAct, testRunAct, nextSubframeAct, spinAct, passAct, wordsAct, loadV1Act, loadV2Act, storeSfAct,
      pollPublishAct, pollContrastAct, pollCommandAct, pollContrastElseCommandAct, adoptAct, deriveAct, setBrightAct,
      fillPcmdAct, launchAct, drawByteAct] at h
    repeat' split at h
    all_goals cases h
    all_goals cases a
    all_goals
      simpa [State.mayReturn, State.push, State.setWork, busGroupTasks, busByteTasks, sfgWordTasks, svcPublishTasks,
        svcContrastTasks, svcCommandTasks] using ht

/-- After any number of an agent's actions the result is the one before, or one its work was to hand over. -/
theorem go_result {n : Nat} (h : go a n s = .next t) : t.result = s.result ∨ .ret t.result ∈ s.work a := by
  have keeps : ∀ r, t.mayReturn a r → s.mayReturn a r := by
    refine go_keeps (P := fun u => ∀ r, u.mayReturn a r → s.mayReturn a r) ?_ n s t (fun _ => id) h
    intro u u' y us hw hu hact r hr
    refine hu r ?_
    rcases act_mayReturn hact hr with rfl | hres | hmem
    · exact .inr (hw ▸ List.mem_cons_self)
    · exact .inl ((u.setWork_result a us).symm.trans hres)
    · rw [State.work_setWork] at hmem
      exact .inr (hw ▸ List.mem_cons_of_mem y hmem)
  exact (keeps _ (.inl rfl)).imp_left Eq.symm

/-- A call that answers has a list of actions, and returns what that list hands over or nothing new. -/
theorem performHost_result {p : Program} (hw : s.hostWork = []) (h : performHost p s = .next t) :
    ∃ w, p = .next w ∧ (t.result = s.result ∨ .ret t.result ∈ w) := by
  cases p with
  | next w =>
    rw [performHost_next hw] at h
    exact ⟨w, rfl, by simpa [-State.work_host] using go_result h⟩
  | fault f => cases (performHost_fault hw f).symm.trans h
  | refused r => cases (performHost_refused hw r).symm.trans h

/-- A path is chosen in two states only: the active one in Running, the direct one in Stopped (R129). -/
theorem choosePath_next {u v w : List Task} (h : choosePath s u v = .next w) :
    (s.threadState = running ∧ w = u) ∨ (s.threadState = stopped ∧ w = v) := by
  unfold choosePath at h
  split_ifs at h with hr hs <;> cases h
  · exact .inl ⟨hr, rfl⟩
  · exact .inr ⟨hs, rfl⟩

/-- The one error SENDCMD's active path hands over is that of a command too long for PCMD (R170, R171). -/
theorem error_of_mem_sendActiveTasks {p : Config.Params} {c : List Byte} {e : ErrorCause} {n : Nat}
    (h : .ret (.error e n) ∈ sendActiveTasks p c) : p.pcmdLen < c.length ∧ e = .contractViolation ∧ n = c.length := by
  unfold sendActiveTasks at h
  split_ifs at h with hc
  · simp only [raiseTasks, List.mem_singleton, Task.ret.injEq, Result.error.injEq] at h
    exact ⟨hc, h⟩
  · simp at h

/-- SENDCMD of a command too long for PCMD, while Running (R170, R171). -/
theorem exec_sendCmd_oversized {c : List Byte} (hw : s.hostWork = []) (ht : s.threadState = running)
    (hc : s.cfg.pcmdLen < c.length) (hn : 1 ≤ s.budget) :
    exec (.sendCmd c) s = .next { s with result := .error .contractViolation c.length } := by
  show performHost (choosePath s (sendActiveTasks s.cfg c) _) s = _
  rw [choosePath_running ht, sendActiveTasks, if_pos hc]
  exact performHost_ret hw hn _

end

end Sys2Proof.Machine

namespace Sys2Proof.Proofs

open Sys2Proof.Machine

/-- Settles O10: each of the six polls fails, and a turn that begins with a failed poll does nothing. -/
theorem spinsHaveNoExit : Obligations.SpinsHaveNoExit := by
  intro s ts hp hthread
  have hl := legalThreadState_iff.2 hthread
  refine ⟨fun b ha hw ht => step_engine_wait hp ha hl hw (act_send_wait rfl ht b),
    fun ha hw hb => step_engine_wait hp ha hl hw (act_idle_wait hb),
    fun b ha hw ho ht => step_host_wait hp ha hw (act_send_wait ?_ ht b),
    fun ha hw hb => step_host_wait hp ha hw (act_idle_wait hb),
    fun d ha hw hd => step_engine_wait hp ha hl hw (act_await_wait ?_),
    fun f v ha hw hv => step_host_wait hp ha hw (act_spin_wait ?_ ?_)⟩
  · simp [State.mayDriveBus, ho]
  · simpa [tickAdd] using hd
  · simpa using hl
  · simpa using hv

/-- Settles O31: the oversized command, and the only hand-over of an error there is. -/
theorem contractViolation : Obligations.ContractViolation := by
  refine fun c s hw => ⟨exec_sendCmd_oversized hw, fun t e n hdone h herr => ?_⟩
  obtain ⟨w, hpath, hres⟩ := performHost_result hw h
  have hret : .ret (.error e n) ∈ w := by simpa [herr, hdone] using hres
  rcases choosePath_next hpath with ⟨ht, rfl⟩ | ⟨-, rfl⟩
  · exact ⟨ht, error_of_mem_sendActiveTasks hret⟩
  · simp at hret

end Sys2Proof.Proofs

/-! PROOF. A step from a safe state keeps the data bytes sent and in progress whole frames (O60). -/

namespace Sys2Proof.Machine

/-- The work `w` is `v` gone on with, or, where `v` is none, an operation that sends whole frames. -/
def beginsWhole (p : Config.Params) (dc : Bool) (v w : List Task) : Prop :=
  w = v ∨ (v = [] ∧ groupFirst w = true ∧ pendingData p dc w % p.planeBytes = 0)

section
variable {s t u : State} {p : Config.Params} {dc : Bool} {v w : List Task}

theorem beginsWhole.groupFirst_work (h : beginsWhole p dc v w) (hv : groupFirst v = true) : groupFirst w = true := by
  rcases h with rfl | ⟨-, hw, -⟩
  · exact hv
  · exact hw

/-- An operation that begins adds no part of a frame. -/
theorem beginsWhole.pendingData_modEq (h : beginsWhole p dc v w) :
    pendingData p dc w ≡ pendingData p dc v [MOD p.planeBytes] := by
  rcases h with rfl | ⟨rfl, -, hw⟩
  · rfl
  · exact hw.trans (Nat.zero_mod _).symm

/-- `framesWhole` is kept when the agents go on or begin operations that send whole frames. -/
theorem framesWhole_of_begins (hf : s.framesWhole) (hcfg : u.cfg = s.cfg) (htrace : u.trace = s.trace)
    (hdc : u.dc = s.dc) (hhost : beginsWhole s.cfg s.dc s.hostWork u.hostWork)
    (hengine : beginsWhole s.cfg s.dc s.engWork u.engWork) : u.framesWhole := by
  obtain ⟨hfirst, efirst, hsum⟩ := hf
  refine ⟨hhost.groupFirst_work hfirst, hengine.groupFirst_work efirst, ?_⟩
  rw [hcfg, htrace, hdc]
  exact Eq.trans ((hhost.pendingData_modEq.add_left _).add hengine.pendingData_modEq) hsum

/-- What the ENGINE works on in its turn sends whole frames, if it is begun there. -/
theorem engineTurnWork_begins (hw : engineTurnWork s w) : beginsWhole s.cfg dc s.engWork w := by
  rcases hw with ⟨-, rfl⟩ | ⟨hnil, i, hd, rfl⟩
  · exact .inl rfl
  · obtain ⟨hfirst, hwhole⟩ := engineTasks_wholeFrames s.inTurn hd dc
    rw [State.inTurn_cfg] at hwhole
    exact .inr ⟨hnil, hfirst, hwhole⟩

/-- What the HOST works on in its turn sends whole frames, if it is begun there: the calls to come are ordinary. -/
theorem hostTurnWork_begins {prog : List Instr} (hs : s.safe) (hw : hostTurnWork s prog w) :
    beginsWhole s.cfg dc s.hostWork w := by
  rcases hw with ⟨-, -, rfl⟩ | ⟨hnil, -, -, rfl⟩ | ⟨hnil, i, hprog, -, ht⟩
  · exact .inl rfl
  · exact .inl hnil.symm
  · have hcall : ordinaryCall s.cfg i = true := by
      have hin := hs.2.2
      simp only [State.inRange, hprog, List.all_cons, Bool.and_eq_true] at hin
      exact hin.2.1
    obtain ⟨hfirst, hwhole⟩ := hostTasks_wholeFrames (by rwa [State.inTurn_cfg]) ht dc
    rw [State.inTurn_cfg] at hwhole
    exact .inr ⟨hnil, hfirst, hwhole⟩

/-- R206: a step from a safe state keeps the data bytes sent and in progress whole frames. -/
theorem step_framesWhole (hs : s.safe) (hf : s.framesWhole) (h : step s = .next t) : t.framesWhole := by
  obtain ⟨-, ⟨-, -, w, hw, hgo⟩ | ⟨-, prog, w, hw, hgo⟩⟩ := step_cases h
  · have hstart : (s.inTurn.setWork .engine w).framesWhole :=
      framesWhole_of_begins hf (by simp) (by simp) (by simp) (.inl s.inTurn_hostWork) (engineTurnWork_begins hw)
    exact go_engine_framesWhole _ _ _ (safe_engineTurn hs hw) hstart hgo
  · have hstart : (s.hostTurn prog w).framesWhole :=
      framesWhole_of_begins hf s.inTurn_cfg s.inTurn_trace s.inTurn_dc (hostTurnWork_begins hs hw)
        (.inl s.inTurn_engWork)
    exact go_host_framesWhole _ _ _ (safe_hostTurn hs hw) hstart hgo

/-- Between operations the GDRAM write position is at the start of its window. -/
theorem gdramPosition_of_framesWhole (hf : s.framesWhole) (hhost : s.hostWork = []) (hengine : s.engWork = []) :
    gdramPosition s.cfg s.trace = 0 := by
  obtain ⟨-, -, hsum⟩ := hf
  rwa [hhost, hengine] at hsum

end

end Sys2Proof.Machine

namespace Sys2Proof.Proofs

open Sys2Proof.Machine

/-- Settles O60: what a step begins sends whole frames, and each action keeps what stands in an agent's work. -/
theorem wholeFrames : Obligations.WholeFrames :=
  ⟨fun _ _ => step_framesWhole, fun _ => gdramPosition_of_framesWhole⟩

end Sys2Proof.Proofs

/-! PROOF. Which refusals a step can end with: that of its parameters, and those of the calls and ownership rights
(O7). -/

namespace Sys2Proof.Machine

/-! ### The parameters (R214) -/

theorem intervalOk_iff {p : Config.Params} {n : Nat} : intervalOk p n = true ↔ 0 < n ∧ n < 2 ^ (p.tickBits - 1) := by
  simp [intervalOk]

theorem paramsOk_iff {p : Config.Params} :
    paramsOk p = true ↔ p.planeBytes % 4 = 0 ∧ 1 ≤ p.pcmdLen ∧
      0 < p.tPre ∧ p.tPre < 2 ^ (p.tickBits - 1) ∧ 0 < p.tPost ∧ p.tPost < 2 ^ (p.tickBits - 1) := by
  simp only [paramsOk, Bool.and_eq_true, intervalOk_iff, beq_iff_eq, decide_eq_true_eq, and_assoc, Nat.succ_le_iff]

theorem step_of_badParameters {s : State} (hp : paramsOk s.cfg ≠ true) : step s = .refused .badParameters := by
  simp [step, fetch, hp]

/-! ### The other refusals (R134, R180, R208, D31) -/

section
variable {s : State} {r : Refusal}

/-- The one refusal of an action is that of a HOST that breaks an ownership right (log 14). -/
theorem refusal_of_act {a : Agent} {x : Task} (h : act a x s = .refuse r) : r = .ownership := by
  cases x with
  | drive | send | adopt | derive =>
    simp only [act, driveAct, sendAct, adoptAct, deriveAct] at h
    split_ifs at h
    cases h
    rfl
  | fillPcmd k bs =>
    cases bs with
    | nil => cases h
    | cons b bs =>
      simp only [act, fillPcmdAct] at h
      split_ifs at h
      cases h
      rfl
  | emit | setDeadline | setFn | goto | pass | setBright | launch | ret => cases h
  | bytes k bs => cases bs <;> cases h
  | nextSubframe k => fin_cases k <;> cases h
  | drain =>
    simp only [act, drainAct] at h
    split at h <;> cases h
  | flagWrite f v =>
    cases f with
    | threadState =>
      simp only [act, flagWriteAct] at h
      split_ifs at h
    | _ => cases h
  | spin f v => cases f <;> simp only [act, spinAct] at h <;> split_ifs at h
  | _ =>
    simp only [act, idleAct, awaitAct, announceAct, testRunAct, wordsAct, loadV1Act, loadV2Act, storeSfAct,
      pollPublishAct, pollContrastAct, pollCommandAct, pollContrastElseCommandAct, drawByteAct] at h
    split_ifs at h

theorem refusal_of_go {a : Agent} {n : Nat} (h : go a n s = .refused r) : r = .ownership := by
  induction n generalizing s with
  | zero => cases h
  | succ n ih =>
    rw [go] at h
    cases hw : s.work a with
    | nil => simp [hw] at h
    | cons x ts =>
      simp only [hw] at h
      cases hx : act a x (s.setWork a ts) with
      | done u => exact ih (by simpa only [hx] using h)
      | wait => simp [hx] at h
      | fault f => simp [hx] at h
      | refuse q =>
        simp only [hx, Host.Outcome.refused.injEq] at h
        exact h ▸ refusal_of_act hx

theorem refusal_of_choosePath {v w : List Task} (h : choosePath s v w = .refused r) : r = .transitionalState := by
  unfold choosePath at h
  split_ifs at h
  cases h
  rfl

theorem refusal_of_hostGroup {g : Group} (h : hostGroup g s = .refused r) : r = .ownership := by
  unfold hostGroup at h
  split_ifs at h
  cases h
  rfl

/-- A call that cannot begin is one in Starting or Stopping, or a group of a HOST that does not own the port. -/
theorem refusal_of_hostTasks {i : Instr} (h : hostTasks s i = .refused r) :
    r = .transitionalState ∨ r = .ownership := by
  cases i with
  | enable | showSync | showAsync | sendCmd | brightness => exact .inl (refusal_of_choosePath h)
  | init | modeMono => exact .inr (refusal_of_hostGroup h)
  | disable | isActive =>
    simp only [hostTasks] at h
    split_ifs at h
  | _ => cases h

/-- A HOST that begins an operation is refused because it is busy, because the operation cannot begin, or by one of
its actions. -/
theorem refusal_of_performHost {p : Program} (h : performHost p s = .refused r) :
    r = .hostBusy ∨ p = .refused r ∨ r = .ownership := by
  by_cases hw : s.hostWork = []
  · cases p with
    | next w => exact .inr (.inr (refusal_of_go ((performHost_next hw w).symm.trans h)))
    | fault f => simp [performHost, hw] at h
    | refused q =>
      rw [performHost_refused hw] at h
      cases h
      exact .inr (.inl rfl)
  · rw [performHost_busy hw] at h
    cases h
    exact .inl rfl

/-- A call of the HOST is never refused for the parameters. -/
theorem exec_hostCall_ne_badParameters {i : Instr} (hi : isHostCall i = true) :
    exec i s ≠ .refused .badParameters := by
  intro h
  rw [exec_hostCall hi] at h
  obtain hbusy | hbegin | hact := refusal_of_performHost h
  · cases hbusy
  · obtain htrans | hown := refusal_of_hostTasks hbegin
    · cases htrans
    · cases hown
  · cases hact

theorem go_ne_badParameters (a : Agent) (n : Nat) : go a n s ≠ .refused .badParameters := fun h =>
  nomatch refusal_of_go h

/-- An engine turn faults or acts. -/
theorem step_engine_ne_badParameters (hp : paramsOk s.cfg = true) (ha : s.nextTurn.agent = .engine) :
    step s ≠ .refused .badParameters := by
  cases hl : legalThreadState s.threadState with
  | false => simp [step_engine_illegalThreadState hp ha hl]
  | true =>
    by_cases hw : s.engWork = []
    · cases hd : decodeSeq s.fn.toNat s.stepCode.toNat with
      | ok i =>
        rw [step_engine_run hp ha hl (.inr ⟨hw, i, hd, rfl⟩)]
        exact go_ne_badParameters _ _
      | error e => simp [step_engine_illegalSequencer hp ha hl hw hd]
    · rw [step_engine_goOn hp ha hl hw]
      exact go_ne_badParameters _ _

/-- A HOST turn goes on, rests, begins a call or is refused one that is not its own. -/
theorem step_host_ne_badParameters (hp : paramsOk s.cfg = true) (ha : s.nextTurn.agent = .host) :
    step s ≠ .refused .badParameters := by
  by_cases hw : s.hostWork = []
  · cases hprog : s.hostProg with
    | nil => simp [step_host_rest hp ha hw hprog]
    | cons i prog =>
      cases hi : isHostCall i with
      | false => simp [step_host_alien hp ha hw hprog hi]
      | true =>
        rw [step_host_begin hp ha hw hprog hi]
        exact exec_hostCall_ne_badParameters hi
  · rw [step_host_goOn hp ha hw]
    exact go_ne_badParameters _ _

/-- R214: with parameters that meet the constraints no step is refused for them. -/
theorem step_ne_badParameters (hp : paramsOk s.cfg = true) : step s ≠ .refused .badParameters := by
  cases ha : s.nextTurn.agent with
  | engine => exact step_engine_ne_badParameters hp ha
  | host => exact step_host_ne_badParameters hp ha

end

end Sys2Proof.Machine

namespace Sys2Proof.Proofs

open Sys2Proof.Machine

/-- Settles O7: parameters that break a constraint are looked at first, and no other path refuses a step for them. -/
theorem parameterRefusal : Obligations.ParameterRefusal := by
  intro s
  rw [← paramsOk_iff]
  exact ⟨fun h hp => step_ne_badParameters hp h, step_of_badParameters⟩

end Sys2Proof.Proofs

/-! PROOF. The HOST's start-up from reset: INIT, MODE_MONO and BRIGHTNESS of the persisted key, one call a
turn (O50). -/

namespace Sys2Proof.Machine

/-- R145, R153: the start-up brightness is in range, so the clamp leaves it. -/
theorem clampBrightness_keyBrightness (key : Option (List Char)) :
    clampBrightness (keyBrightness key) = keyBrightness key := by
  have hle := keyBrightness_le key
  rw [clampBrightness, if_neg (by omega), if_neg (by omega), Int.toNat_natCast]

section
variable {s₀ s : State} {out : List BusEntry} {p : Pos} {prog : List Instr} {ts : List Turn} {i : Instr} {n : Nat}

/-- A call that is one group of the HOST's, while Stopped (R70, R196). -/
theorem State.scripted.group {g : Group} (hi : isHostCall i = true)
    (hexec : ∀ u, exec i u = performHost (hostGroup g u) u) (hp : paramsOk s₀.cfg = true)
    (hbytes : ∀ u : State, u.cfg = s₀.cfg → groupBytes u g = groupBytes s₀ g)
    (hn : 3 * (groupBytes s₀ g).length + 6 ≤ n)
    (h : s₀.scripted out stopped p [] (i :: prog) (scriptTurn .host n :: ts) s) :
    ∃ t, step s = .next t ∧
      s₀.scripted (out ++ traceOf (groupDc g) (groupBytes s₀ g)) stopped p [] prog ts t := by
  obtain ⟨u, hstep, hu, hready, hbudget⟩ := h.step_call hp hi
  have howner : u.busOwner ≠ .engine := by
    rw [busOwner_of_stopped hu.threadState]
    decide
  have hb : groupBytes u g = groupBytes s₀ g := hbytes u hu.cfg
  have hrun := performHost_group (g := g) hu.hostWork howner hready (by rwa [State.groupBudget, hb, hu.rxq, hbudget])
  rw [← hexec, hb] at hrun
  refine ⟨_, hstep.trans hrun, { hu with trace := ?_, rxq := rfl }⟩
  show u.trace ++ _ = _
  rw [hu.trace, List.append_assoc]

/-- BRIGHTNESS of the value BRIGHT has, while Stopped (R145, R197). -/
theorem State.scripted.brightness {v : Int} (hv : clampBrightness v = s₀.bright) (hp : paramsOk s₀.cfg = true)
    (hc : s₀.contrastPending = 0#32) (hn : 19 ≤ n)
    (h : s₀.scripted out stopped p [] (.brightness v :: prog) (scriptTurn .host n :: ts) s) :
    ∃ t, step s = .next t ∧ t.pcon = deriveTriple s₀.bright ∧ t.wcon = deriveTriple s₀.bright ∧
      s₀.scripted (out ++ traceOf false (groupBytes s₀ .monoContrast)) stopped p [] prog ts t := by
  obtain ⟨u, hstep, hu, hready, hbudget⟩ := h.step_call hp rfl
  generalize hd : deriveTriple s₀.bright = d
  have hrun := exec_brightness_stopped (t := d) hu.hostWork hu.threadState (hu.contrastPending.trans hc) hready
    (by rwa [hu.rxq, hbudget]) (v := v) (by rw [hv, hd])
  rw [contrastSent_eq] at hrun
  refine ⟨_, hstep.trans hrun, rfl, rfl, { hu with bright := hv, trace := ?_, rxq := rfl }⟩
  simp only [groupBytes, hu.trace, hu.cfg, hv, List.append_assoc]

/-- R198: INIT, the monochrome timing table and the brightness of the persisted key, in three turns. -/
theorem State.scripted.startUp (hp : paramsOk s₀.cfg = true) (hc : s₀.contrastPending = 0#32)
    (hbright : s₀.bright = keyBrightness s₀.cfg.configKey)
    (hn : 3 * (s₀.cfg.init.length + s₀.cfg.modeMono.length) + 40 ≤ n)
    (h : s₀.scripted [] stopped p [] (startupProgram s₀.cfg ++ prog)
      (List.replicate 3 (scriptTurn .host n) ++ ts) s₀) :
    ∃ t, core.run 3 s₀ = .next t ∧ t.pcon = deriveTriple s₀.bright ∧ t.wcon = deriveTriple s₀.bright ∧
      s₀.scripted (traceOf false s₀.cfg.init ++ traceOf false s₀.cfg.modeMono ++
        traceOf false (groupBytes s₀ .monoContrast)) stopped p [] prog ts t := by
  have hkey : clampBrightness (keyBrightness s₀.cfg.configKey) = s₀.bright := by
    rw [hbright, clampBrightness_keyBrightness]
  obtain ⟨s₁, step₁, h₁⟩ := h.group (g := .init) rfl (fun _ => rfl) hp
    (fun _ hu => congrArg Config.Params.init hu) (show 3 * s₀.cfg.init.length + 6 ≤ n by omega)
  obtain ⟨s₂, step₂, h₂⟩ := h₁.group (g := .modeMono) rfl (fun _ => rfl) hp
    (fun _ hu => congrArg Config.Params.modeMono hu) (show 3 * s₀.cfg.modeMono.length + 6 ≤ n by omega)
  obtain ⟨t, step₃, hpcon, hwcon, h₃⟩ := h₂.brightness hkey hp hc (by omega)
  exact ⟨t, run_append (run_one step₁) <| run_append (run_one step₂) (run_one step₃), hpcon, hwcon, h₃⟩

end

end Sys2Proof.Machine

namespace Sys2Proof.Proofs

open Sys2Proof.Machine

/-- Settles O50: the two groups and the direct contrast command, one call a turn from reset. -/
theorem startUp : Obligations.StartUp := by
  intro p n prog rest hp hn
  obtain ⟨t, hrun, hpcon, hwcon, h⟩ := State.scripted.startUp (p := .idle)
    (s₀ := { State.resetWith p with
      hostProg := startupProgram p ++ prog, inputs := List.replicate 3 (scriptTurn .host n) ++ rest })
    hp rfl rfl hn ⟨rfl, rfl, rfl, rfl, rfl, rfl, rfl, rfl, rfl, rfl, rfl, rfl, rfl, rfl, rfl⟩
  exact ⟨t, hrun, h.trace, h.hostProg, h.hostWork, h.bright, hpcon, hwcon, h.threadState⟩

end Sys2Proof.Proofs
